-- ==== Sys2Proof/Word.lean ====
section
/-! DEFINITION. The word and identifier types of the mailbox (spec/00_scope.md R8, R10, R12; spec/10_state.md R20). -/

namespace Sys2Proof

/-- A word of a Message Buffer: `WORD_BITS` = 32 bits, bit 0 least significant (R10, R20). -/
abbrev Word := BitVec 32

/-- A function id: `FUNC_ID_BITS` = 8 (R8). -/
abbrev FuncId := BitVec 8

/-- An interrupt vector id: `VEC_BITS` = 11 (R8). -/
abbrev VecId := BitVec 11

/-- A raw message. R12 gives it exactly 32 words; it is held as a list, so a list of another length can be written down
and every operation that is handed one rejects it by name (R104). -/
abbrev Frame := List Word

end Sys2Proof
end

