-- ==== Sys2Proof/Syntax.lean ====
section
/-! DEFINITION. The typed messages (spec/30_encoding.md R83, R85, R88): one constructor of `Instr` per row of
spec/opcode_table.json, the typed bodies of the ten formats, the requests a VF's caller hands in, and the local errors
(spec/60_exceptions.md R290). Typed inputs are unbounded integers (R13), so an unencodable value can be written down;
WellFormed.lean says which can be encoded. -/

namespace Sys2Proof

/-- The header inputs of a typed message: match tag, claimed source, destination (R81, R83). -/
structure Header where
  tag : Int
  src : Int
  dst : Int
deriving DecidableEq, Repr, Inhabited

/-- Typed body of `P_QREQ` (R90). -/
structure QRange where
  qbase : Int
  qmax : Int
deriving DecidableEq, Repr, Inhabited

/-- Typed body of `P_QSEL`: the queue selector of the two notifications (R91). -/
structure QSel where
  qid : Int
  c2h : Int
  st : Int
deriving DecidableEq, Repr, Inhabited

/-- Typed body of `P_QSELT`: the queue selector with the completion-context type (R91, R92). -/
structure QSelT where
  qid : Int
  c2h : Int
  st : Int
  cmptCtxtType : Int
deriving DecidableEq, Repr, Inhabited

/-- Typed body of `P_FMAP` (R93). -/
structure Fmap where
  funcId : Int
  qbase : Int
  qmax : Int
deriving DecidableEq, Repr, Inhabited

/-- The Queue Configuration Descriptor: the 29 fields of R152, the two 64-bit addresses counted once each (R151). -/
structure QDesc where
  ringBsAddr : Int
  cmptRingBsAddr : Int
  forcedEn : Int
  enBypass : Int
  irqArm : Int
  wbiIntvlEn : Int
  wbiChk : Int
  at_ : Int
  wbkEn : Int
  irqEn : Int
  pfchEn : Int
  enBypassPrefetch : Int
  disOverflowCheck : Int
  cmptIntEn : Int
  cmptAt : Int
  cmptColor : Int
  cmptFullUpd : Int
  cmptStatEn : Int
  descSz : Int
  cmptDescSz : Int
  triggerMode : Int
  funcId : Int
  cntThres : Int
  timerThres : Int
  intrId : Int
  intrAggr : Int
  ringSz : Int
  bufSz : Int
  cmptRingSz : Int
deriving DecidableEq, Repr, Inhabited

/-- Typed body of `P_QCTXT`: the selector and the descriptor (R94, R151). -/
structure QCtxt where
  sel : QSelT
  desc : QDesc
deriving DecidableEq, Repr, Inhabited

/-- Typed body of `P_IRINGS`: the count and the index list (R95, R170). -/
structure IRings where
  numRings : Int
  ringIndex : List Int
deriving DecidableEq, Repr, Inhabited

/-- Typed body of `P_ICTXT`: the count, the index list and two context words per entry (R95, R170). -/
structure ICtxt where
  numRings : Int
  ringIndex : List Int
  ctxt : List (Int × Int)
deriving DecidableEq, Repr, Inhabited

/-- Typed body of `P_DEVINFO`: four opaque words (R96). -/
structure DevInfo where
  words : List Int
deriving DecidableEq, Repr, Inhabited

/-- Typed body of `P_CSR`: 25 opaque words (R96). -/
structure CsrInfo where
  words : List Int
deriving DecidableEq, Repr, Inhabited

/-- Typed body of `P_NONE`: the empty record (R89). -/
inductive NoBody where
  | none
deriving DecidableEq, Repr, Inhabited

/-- The body of a response: `RspOk(b)` with the opcode's format, or `RspFail(st)` with a negative status (R83, R97). -/
inductive Rsp (β : Type) where
  | ok (b : β)
  | fail (st : Int)
deriving DecidableEq, Repr, Inhabited

/-- The 15 opcodes, in the source's order (R85). -/
inductive Op where
  | vfOnline | vfOffline | qreq | qnotifyAdd | qnotifyDel | fmap
  | qctxtWrt | qctxtRd | qctxtInv | qctxtClr | csr
  | intrCtxtWrt | intrCtxtRd | intrCtxtInv | intrCtxtClr
deriving DecidableEq, Repr, Inhabited

/-- The direction flag (R81). -/
inductive Dir where
  | req | rsp
deriving DecidableEq, Repr, Inhabited

/-- A typed message (R83): opcode and direction are the constructor, one per row of spec/opcode_table.json; the header
and the body (R88) are its arguments. -/
inductive Instr where
  | vfOnlineReq (h : Header)
  | vfOnlineRsp (h : Header) (r : Rsp DevInfo)
  | vfOfflineReq (h : Header)
  | vfOfflineRsp (h : Header) (r : Rsp NoBody)
  | qreqReq (h : Header) (b : QRange)
  | qreqRsp (h : Header) (r : Rsp QRange)
  | qnotifyAddReq (h : Header) (b : QSel)
  | qnotifyAddRsp (h : Header) (r : Rsp NoBody)
  | qnotifyDelReq (h : Header) (b : QSel)
  | qnotifyDelRsp (h : Header) (r : Rsp NoBody)
  | fmapReq (h : Header) (b : Fmap)
  | fmapRsp (h : Header) (r : Rsp NoBody)
  | qctxtWrtReq (h : Header) (b : QCtxt)
  | qctxtWrtRsp (h : Header) (r : Rsp NoBody)
  | qctxtRdReq (h : Header) (b : QSelT)
  | qctxtRdRsp (h : Header) (r : Rsp QCtxt)
  | qctxtInvReq (h : Header) (b : QSelT)
  | qctxtInvRsp (h : Header) (r : Rsp NoBody)
  | qctxtClrReq (h : Header) (b : QSelT)
  | qctxtClrRsp (h : Header) (r : Rsp NoBody)
  | csrReq (h : Header)
  | csrRsp (h : Header) (r : Rsp CsrInfo)
  | intrCtxtWrtReq (h : Header) (b : ICtxt)
  | intrCtxtWrtRsp (h : Header) (r : Rsp NoBody)
  | intrCtxtRdReq (h : Header) (b : IRings)
  | intrCtxtRdRsp (h : Header) (r : Rsp ICtxt)
  | intrCtxtInvReq (h : Header) (b : IRings)
  | intrCtxtInvRsp (h : Header) (r : Rsp NoBody)
  | intrCtxtClrReq (h : Header) (b : IRings)
  | intrCtxtClrRsp (h : Header) (r : Rsp NoBody)
deriving DecidableEq, Repr, Inhabited

/-- The opcode of a typed message (R83, R85). -/
def Instr.op : Instr → Op
  | .vfOnlineReq _ | .vfOnlineRsp _ _ => .vfOnline
  | .vfOfflineReq _ | .vfOfflineRsp _ _ => .vfOffline
  | .qreqReq _ _ | .qreqRsp _ _ => .qreq
  | .qnotifyAddReq _ _ | .qnotifyAddRsp _ _ => .qnotifyAdd
  | .qnotifyDelReq _ _ | .qnotifyDelRsp _ _ => .qnotifyDel
  | .fmapReq _ _ | .fmapRsp _ _ => .fmap
  | .qctxtWrtReq _ _ | .qctxtWrtRsp _ _ => .qctxtWrt
  | .qctxtRdReq _ _ | .qctxtRdRsp _ _ => .qctxtRd
  | .qctxtInvReq _ _ | .qctxtInvRsp _ _ => .qctxtInv
  | .qctxtClrReq _ _ | .qctxtClrRsp _ _ => .qctxtClr
  | .csrReq _ | .csrRsp _ _ => .csr
  | .intrCtxtWrtReq _ _ | .intrCtxtWrtRsp _ _ => .intrCtxtWrt
  | .intrCtxtRdReq _ _ | .intrCtxtRdRsp _ _ => .intrCtxtRd
  | .intrCtxtInvReq _ _ | .intrCtxtInvRsp _ _ => .intrCtxtInv
  | .intrCtxtClrReq _ _ | .intrCtxtClrRsp _ _ => .intrCtxtClr

/-- The direction of a typed message (R83). -/
def Instr.dir : Instr → Dir
  | .vfOnlineReq _ | .vfOfflineReq _ | .qreqReq _ _ | .qnotifyAddReq _ _ | .qnotifyDelReq _ _ | .fmapReq _ _
  | .qctxtWrtReq _ _ | .qctxtRdReq _ _ | .qctxtInvReq _ _ | .qctxtClrReq _ _ | .csrReq _
  | .intrCtxtWrtReq _ _ | .intrCtxtRdReq _ _ | .intrCtxtInvReq _ _ | .intrCtxtClrReq _ _ => .req
  | .vfOnlineRsp _ _ | .vfOfflineRsp _ _ | .qreqRsp _ _ | .qnotifyAddRsp _ _ | .qnotifyDelRsp _ _ | .fmapRsp _ _
  | .qctxtWrtRsp _ _ | .qctxtRdRsp _ _ | .qctxtInvRsp _ _ | .qctxtClrRsp _ _ | .csrRsp _ _
  | .intrCtxtWrtRsp _ _ | .intrCtxtRdRsp _ _ | .intrCtxtInvRsp _ _ | .intrCtxtClrRsp _ _ => .rsp

/-- The header of a typed message (R83). -/
def Instr.header : Instr → Header
  | .vfOnlineReq h | .vfOnlineRsp h _ | .vfOfflineReq h | .vfOfflineRsp h _
  | .qreqReq h _ | .qreqRsp h _ | .qnotifyAddReq h _ | .qnotifyAddRsp h _
  | .qnotifyDelReq h _ | .qnotifyDelRsp h _ | .fmapReq h _ | .fmapRsp h _
  | .qctxtWrtReq h _ | .qctxtWrtRsp h _ | .qctxtRdReq h _ | .qctxtRdRsp h _
  | .qctxtInvReq h _ | .qctxtInvRsp h _ | .qctxtClrReq h _ | .qctxtClrRsp h _
  | .csrReq h | .csrRsp h _ | .intrCtxtWrtReq h _ | .intrCtxtWrtRsp h _
  | .intrCtxtRdReq h _ | .intrCtxtRdRsp h _ | .intrCtxtInvReq h _ | .intrCtxtInvRsp h _
  | .intrCtxtClrReq h _ | .intrCtxtClrRsp h _ => h

/-- A typed request body with its opcode, as a VF's caller hands it in; V1 fills in the header (R38, R276). -/
inductive Request where
  | vfOnline
  | vfOffline
  | qreq (b : QRange)
  | qnotifyAdd (b : QSel)
  | qnotifyDel (b : QSel)
  | fmap (b : Fmap)
  | qctxtWrt (b : QCtxt)
  | qctxtRd (b : QSelT)
  | qctxtInv (b : QSelT)
  | qctxtClr (b : QSelT)
  | csr
  | intrCtxtWrt (b : ICtxt)
  | intrCtxtRd (b : IRings)
  | intrCtxtInv (b : IRings)
  | intrCtxtClr (b : IRings)
deriving DecidableEq, Repr, Inhabited

/-- The request message with the given header (R277). -/
def Request.withHeader (h : Header) : Request → Instr
  | .vfOnline => .vfOnlineReq h
  | .vfOffline => .vfOfflineReq h
  | .qreq b => .qreqReq h b
  | .qnotifyAdd b => .qnotifyAddReq h b
  | .qnotifyDel b => .qnotifyDelReq h b
  | .fmap b => .fmapReq h b
  | .qctxtWrt b => .qctxtWrtReq h b
  | .qctxtRd b => .qctxtRdReq h b
  | .qctxtInv b => .qctxtInvReq h b
  | .qctxtClr b => .qctxtClrReq h b
  | .csr => .csrReq h
  | .intrCtxtWrt b => .intrCtxtWrtReq h b
  | .intrCtxtRd b => .intrCtxtRdReq h b
  | .intrCtxtInv b => .intrCtxtInvReq h b
  | .intrCtxtClr b => .intrCtxtClrReq h b

/-- The fields of the Queue Configuration Descriptor, named as R152 names them. -/
inductive DescField where
  | ringBsAddr | cmptRingBsAddr
  | forcedEn | enBypass | irqArm | wbiIntvlEn | wbiChk | at_ | wbkEn | irqEn | pfchEn | enBypassPrefetch
  | disOverflowCheck | cmptIntEn | cmptAt | cmptColor | cmptFullUpd | cmptStatEn
  | descSz | cmptDescSz | triggerMode | funcId | cntThres | timerThres
  | intrId | intrAggr | ringSz | bufSz | cmptRingSz
deriving DecidableEq, Repr

/-- The descriptor groups of R153: common, queue, completion. -/
inductive DescGroup where
  | common | queue | completion
deriving DecidableEq, Repr

/-- What an error is about: the `info` of `raise E(info)` (R11), as the pseudocode of the rules names it. -/
inductive Info where
  | tag | funcId | status | qbase | qmax | qid | flag | cmptCtxtType | typeMode
  | descField (f : DescField)
  | excluded (f : DescField)
  | numRings | listLength | ringIndex | ctxt | devInfo | csr
  | noSuchChannel | opcode | notAResponse | positiveStatus | unexpectedOpcode | length
deriving DecidableEq, Repr

/-- The seven local errors (R290). -/
inductive Err where
  | invalidArgument (i : Info)
  | malformedMessage (i : Info)
  | channelBusy
  | noMessage
  | unauthorized
  | timeout
  | hardwareFault
deriving DecidableEq, Repr

/-- The 3-bit code the spec suggests for each error; code 0 means no error, and no rule reads a code (R290, D42). -/
def Err.code : Err → BitVec 3
  | .invalidArgument _ => 1
  | .malformedMessage _ => 2
  | .channelBusy => 3
  | .noMessage => 4
  | .unauthorized => 5
  | .timeout => 6
  | .hardwareFault => 7

end Sys2Proof
end

