-- ==== Sys2Proof/Config.lean ====
section
/-! DEFINITION. Parameters (spec/00_scope.md R7, R9) and free values. The opcode map (spec/30_encoding.md R86) and the OPEN
parameters that a rule reads (`PF_FUNC_ID`, `VF_POLL_MAX`, `VF_RETRY_MAX`) are the fields of `Config.Params`, held in the state
and written by no step, so that a statement about every state holds for every value of them; `VFSET` is the set of channels a
state holds.
What no rule fixes and no rule reads (`MBOX_BASE`, the buffers after `hw_init`) is an opaque constant with no body. -/

namespace Sys2Proof

/-- The side on which a handshake operation is executed (R205, R305). -/
inductive Role where
  | pf
  | vf (f : FuncId)
deriving DecidableEq, Repr

/-- The four private Message Buffers of a channel (R21). -/
inductive Buf where
  | rxbuf | resp | sent | vfRxbuf
deriving DecidableEq, Repr

/-- `MBOX_WORDS` (R7). -/
def Config.mboxWords : Nat := 32

/-- The thirteen configurable rows of the opcode map: the opcodes the source implies without a number (R86). -/
structure Config.OpTable where
  qreq : Nat
  qnotifyAdd : Nat
  qnotifyDel : Nat
  fmap : Nat
  qctxtWrt : Nat
  qctxtRd : Nat
  qctxtInv : Nat
  qctxtClr : Nat
  csr : Nat
  intrCtxtWrt : Nat
  intrCtxtRd : Nat
  intrCtxtInv : Nat
  intrCtxtClr : Nat
deriving DecidableEq, Repr

/-- `OPC_VF_ONLINE`, fixed by the source (R86). -/
def Config.opcVfOnline : Nat := 19

/-- `OPC_VF_OFFLINE`, fixed by the source (R86). -/
def Config.opcVfOffline : Nat := 20

/-- The 15 values of the map, the two rows the source fixes first (R86). -/
def Config.OpTable.values (t : Config.OpTable) : List Nat :=
  [Config.opcVfOnline, Config.opcVfOffline, t.qreq, t.qnotifyAdd, t.qnotifyDel, t.fmap, t.qctxtWrt, t.qctxtRd, t.qctxtInv,
    t.qctxtClr, t.csr, t.intrCtxtWrt, t.intrCtxtRd, t.intrCtxtInv, t.intrCtxtClr]

/-- "The 15 values must be pairwise distinct and each at most 127" (R86). -/
def Config.OpTable.legal (t : Config.OpTable) : Bool :=
  decide t.values.Nodup && t.values.all fun n => decide (n ≤ 127)

/-- An opcode map: a table that the rule allows (R86). A table that it does not allow is no map. -/
structure Config.OpMap where
  table : Config.OpTable
  legal : table.legal = true
deriving DecidableEq, Repr

/-- The default map: "21 to 33 in the order §4.1 lists them" (R7, R86; decision D3). -/
def Config.OpMap.default : Config.OpMap where
  table :=
    { qreq := 21, qnotifyAdd := 22, qnotifyDel := 23, fmap := 24
      qctxtWrt := 25, qctxtRd := 26, qctxtInv := 27, qctxtClr := 28, csr := 29
      intrCtxtWrt := 30, intrCtxtRd := 31, intrCtxtInv := 32, intrCtxtClr := 33 }
  legal := by decide

/-- The opcode map (R86) and the OPEN parameters that a rule reads (R9). -/
structure Config.Params where
  /-- the opcode map -/
  ops : Config.OpMap
  /-- `PF_FUNC_ID` -/
  pfFuncId : FuncId
  /-- `VF_POLL_MAX`: the bound on the polls of one wait -/
  pollMax : Nat
  /-- `VF_POLL_MAX` is "at least 1" -/
  pollMax_pos : 1 ≤ pollMax
  /-- `VF_RETRY_MAX` -/
  retryMax : Nat
deriving DecidableEq, Repr

/-- The default map of R86 and the defaults of R9, "the spec's suggestion for tests only". DESIGN CHOICE (log 3): the state
after reset has them; statements about every state hold for every value. -/
def Config.defaults : Config.Params :=
  { ops := .default, pfFuncId := 0, pollMax := 8, pollMax_pos := by decide, retryMax := 3 }

/-- `MBOX_BASE(role)`: an OPEN parameter that no rule reads (R9, R70). Free value (log 4), safe. -/
opaque Config.mboxBase : Role → Nat

/-- Word `i` of a private buffer of channel `f` after the `n`-th `hw_init`: "become unspecified" (R322, R323; U9 "any
value"). Free value (log 5), safe. -/
opaque Config.freeWord (n : Nat) (f : FuncId) (b : Buf) (i : Nat) : Word

/-- `REQ[f]` after the `n`-th `hw_init(false)`: "become unspecified" (R322). Free value (log 5), safe. -/
opaque Config.freeMessage (n : Nat) (f : FuncId) : Instr

/-- `VF_REQ[f]` after the `n`-th `hw_init(true)`: "become unspecified" (R323). Free value (log 5), safe. -/
opaque Config.freeRequest (n : Nat) (f : FuncId) : Request

end Sys2Proof
end

