-- ==== Sys2Proof/WellFormed.lean ====
section
/-! DEFINITION. Which typed messages can be encoded: the legal set of every field, stated per format
(spec/30_encoding.md R83, R88 to R97, R103, R108; spec/41_codec_qctxt.md R152, R153; spec/42_codec_intr_ctxt.md R170 to
R172). `compose` (Decode.lean) tests the same sets in the order of the pseudocode and names the first one that fails. -/

namespace Sys2Proof

/-- `v` fits an unsigned field of width `w`: a comparison of unbounded integers (R108). -/
def fits (w : Nat) (v : Int) : Bool := decide (0 ≤ v) && decide (v < 2 ^ w)

/-- `0 <= v <= 65535`: the legal set of `QBASE` but in a `QREQ` request (R90, R93, R103). -/
def legalBase (v : Int) : Bool := decide (0 ≤ v) && decide (v ≤ 65535)

/-- The legal set of `QBASE` in a `QREQ` request: −1 ("no fixed base") or 0..65535 (R90, R125). -/
def legalBaseOrNone (v : Int) : Bool := decide (v = -1) || legalBase v

/-- `CMPT_CTXT_ONLY` (R92). -/
def cmptCtxtOnly : Int := 0
/-- `CMPT_WITH_MM` (R92). -/
def cmptWithMm : Int := 1
/-- `CMPT_WITH_ST` (R92). -/
def cmptWithSt : Int := 2
/-- `CMPT_NONE` (R92). -/
def cmptNone : Int := 3

/-- The reserved pairs of completion-context type and mode (R103 (c)). -/
def reservedPair (t st : Int) : Bool :=
  (decide (t = cmptWithMm) && decide (st = 1)) || (decide (t = cmptWithSt) && decide (st = 0))

/-- Which groups of descriptor fields the completion-context type includes (R153). -/
def DescGroup.includedBy (t : Int) : DescGroup → Bool
  | .common => true
  | .queue => decide (t ≠ cmptCtxtOnly)
  | .completion => decide (t ≠ cmptNone)

/-- The 29 descriptor fields in the order of R152's table, each with its group, its width and its typed value. -/
def QDesc.rows (d : QDesc) : List (DescField × DescGroup × Nat × Int) :=
  [ (.ringBsAddr, .queue, 64, d.ringBsAddr),
    (.cmptRingBsAddr, .completion, 64, d.cmptRingBsAddr),
    (.forcedEn, .queue, 1, d.forcedEn),
    (.enBypass, .queue, 1, d.enBypass),
    (.irqArm, .queue, 1, d.irqArm),
    (.wbiIntvlEn, .queue, 1, d.wbiIntvlEn),
    (.wbiChk, .queue, 1, d.wbiChk),
    (.at_, .queue, 1, d.at_),
    (.wbkEn, .queue, 1, d.wbkEn),
    (.irqEn, .queue, 1, d.irqEn),
    (.pfchEn, .queue, 1, d.pfchEn),
    (.enBypassPrefetch, .queue, 1, d.enBypassPrefetch),
    (.disOverflowCheck, .completion, 1, d.disOverflowCheck),
    (.cmptIntEn, .completion, 1, d.cmptIntEn),
    (.cmptAt, .completion, 1, d.cmptAt),
    (.cmptColor, .completion, 1, d.cmptColor),
    (.cmptFullUpd, .completion, 1, d.cmptFullUpd),
    (.cmptStatEn, .completion, 1, d.cmptStatEn),
    (.descSz, .queue, 2, d.descSz),
    (.cmptDescSz, .completion, 2, d.cmptDescSz),
    (.triggerMode, .completion, 3, d.triggerMode),
    (.funcId, .common, 8, d.funcId),
    (.cntThres, .completion, 8, d.cntThres),
    (.timerThres, .completion, 8, d.timerThres),
    (.intrId, .common, 11, d.intrId),
    (.intrAggr, .common, 1, d.intrAggr),
    (.ringSz, .queue, 16, d.ringSz),
    (.bufSz, .queue, 16, d.bufSz),
    (.cmptRingSz, .completion, 16, d.cmptRingSz) ]

/-- The header inputs are each 0..255 (R83, R98). -/
def Header.legal (h : Header) : Bool := fits 8 h.tag && fits 8 h.src && fits 8 h.dst

/-- R90 with the legal set of a request. -/
def QRange.legalReq (b : QRange) : Bool := legalBaseOrNone b.qbase && fits 16 b.qmax

/-- R90 with the legal set of a response. -/
def QRange.legalRsp (b : QRange) : Bool := legalBase b.qbase && fits 16 b.qmax

/-- R91, form `P_QSEL`. -/
def QSel.legal (b : QSel) : Bool := fits 16 b.qid && fits 1 b.c2h && fits 1 b.st

/-- R91, form `P_QSELT`, with the reserved pairs of R103 (c). -/
def QSelT.legal (b : QSelT) : Bool :=
  fits 16 b.qid && fits 1 b.c2h && fits 1 b.st && fits 2 b.cmptCtxtType && !reservedPair b.cmptCtxtType b.st

/-- R93. -/
def Fmap.legal (b : Fmap) : Bool := fits 8 b.funcId && legalBase b.qbase && fits 16 b.qmax

/-- Every field fits its width, and every field of an excluded group is 0 (R152, R153). -/
def QDesc.legal (t : Int) (d : QDesc) : Bool :=
  d.rows.all fun (_, g, w, v) => fits w v && (g.includedBy t || decide (v = 0))

/-- R94. -/
def QCtxt.legal (b : QCtxt) : Bool := b.sel.legal && b.desc.legal b.sel.cmptCtxtType

/-- `num_rings` in 1..8, the list of exactly that length, every identifier in 0..2047 (R170 to R172). -/
def IRings.legal (b : IRings) : Bool :=
  decide (1 ≤ b.numRings) && decide (b.numRings ≤ 8) && decide ((b.ringIndex.length : Int) = b.numRings) &&
    b.ringIndex.all (fits 11)

/-- As `IRings.legal`, with two 32-bit context words for each entry (R170 to R172). -/
def ICtxt.legal (b : ICtxt) : Bool :=
  IRings.legal ⟨b.numRings, b.ringIndex⟩ && decide ((b.ctxt.length : Int) = b.numRings) &&
    b.ctxt.all fun p => fits 32 p.1 && fits 32 p.2

/-- Exactly `DEVINFO_WORDS` = 4 words of 32 bits (R96, R122). -/
def DevInfo.legal (b : DevInfo) : Bool := decide (b.words.length = 4) && b.words.all (fits 32)

/-- Exactly `CSR_WORDS` = 25 words of 32 bits (R96, R134). -/
def CsrInfo.legal (b : CsrInfo) : Bool := decide (b.words.length = 25) && b.words.all (fits 32)

/-- A failure status is negative and not below −2^31 (R83); a success body is legal in its format. -/
def Rsp.legal {β : Type} (legalBody : β → Bool) : Rsp β → Bool
  | .ok b => legalBody b
  | .fail st => decide (-2 ^ 31 ≤ st) && decide (st < 0)

/-- The body is legal in the format that R88's table gives the opcode and direction. -/
def Instr.bodyLegal : Instr → Bool
  | .vfOnlineReq _ | .vfOfflineReq _ | .csrReq _ => true
  | .vfOnlineRsp _ r => r.legal DevInfo.legal
  | .qreqReq _ b => b.legalReq
  | .qreqRsp _ r => r.legal QRange.legalRsp
  | .qnotifyAddReq _ b | .qnotifyDelReq _ b => b.legal
  | .fmapReq _ b => b.legal
  | .qctxtWrtReq _ b => b.legal
  | .qctxtRdReq _ b | .qctxtInvReq _ b | .qctxtClrReq _ b => b.legal
  | .qctxtRdRsp _ r => r.legal QCtxt.legal
  | .csrRsp _ r => r.legal CsrInfo.legal
  | .intrCtxtWrtReq _ b => b.legal
  | .intrCtxtRdReq _ b | .intrCtxtInvReq _ b | .intrCtxtClrReq _ b => b.legal
  | .intrCtxtRdRsp _ r => r.legal ICtxt.legal
  | .vfOfflineRsp _ r | .qnotifyAddRsp _ r | .qnotifyDelRsp _ r | .fmapRsp _ r | .qctxtWrtRsp _ r
  | .qctxtInvRsp _ r | .qctxtClrRsp _ r | .intrCtxtWrtRsp _ r | .intrCtxtInvRsp _ r | .intrCtxtClrRsp _ r =>
    r.legal fun _ => true

/-- A typed message is well formed when every header and body field is in its legal set. -/
def wellFormed (i : Instr) : Bool := i.header.legal && i.bodyLegal

/-- The proposition that a typed message is well formed. -/
abbrev WellFormed (i : Instr) : Prop := wellFormed i = true

end Sys2Proof
end

