-- ==== Sys2Proof/Decode.lean ====
section
/-! DEFINITION. The codec: `parse` (spec/30_encoding.md R99; per opcode spec/40_codec_control.md, 41_codec_qctxt.md,
42_codec_intr_ctxt.md), total on any list of words and rejecting by name, and after it `compose` (R98) with the encoder it
writes with, both from the same format tables. -/

namespace Sys2Proof

/-! ## Bits and words -/

/-- Word `i` of a buffer (R11 `x[i]`). -/
def word (x : Frame) (i : Nat) : Word := x.getD i 0

/-- The field `v[hi:lo]`: the unsigned integer formed by bits `hi` down to `lo` (R10). -/
def field (w : Word) (hi lo : Nat) : Nat := w.toNat / 2 ^ lo % 2 ^ (hi + 1 - lo)

/-- What `put(i, hi, lo, v)` adds to a word of a zeroed buffer: `v` at bits `hi..lo` (R11). The fields of one word do not
overlap, so the sum of their contributions is their OR. -/
def put (hi lo : Nat) (v : Int) : Nat := 2 ^ lo * (v.toNat % 2 ^ (hi + 1 - lo))

/-- The word with these contributions. -/
def packed (n : Nat) : Word := BitVec.ofNat 32 n

/-- `s32(w)`: the word read as two's complement (R11, R109). -/
def s32 (w : Word) : Int := w.toInt

/-- `u32(n)`: the two's-complement word of an integer (R11, R109); also the whole-word unsigned fields. -/
def u32 (n : Int) : Word := BitVec.ofInt 32 n

/-- The unsigned value of a whole word. -/
def uword (w : Word) : Int := w.toNat

/-- The 32-word buffer whose word `i` is `g i` (R20). -/
def frameOf (g : Nat → Word) : Frame := (List.range 32).map g

/-! ## The opcode map (R86) -/

/-- `OPC` of each opcode under the map `ops`: the two rows the source fixes, the thirteen rows of the table (R86). -/
def Op.code (ops : Config.OpMap) : Op → Nat
  | .vfOnline => Config.opcVfOnline
  | .vfOffline => Config.opcVfOffline
  | .qreq => ops.table.qreq
  | .qnotifyAdd => ops.table.qnotifyAdd
  | .qnotifyDel => ops.table.qnotifyDel
  | .fmap => ops.table.fmap
  | .qctxtWrt => ops.table.qctxtWrt
  | .qctxtRd => ops.table.qctxtRd
  | .qctxtInv => ops.table.qctxtInv
  | .qctxtClr => ops.table.qctxtClr
  | .csr => ops.table.csr
  | .intrCtxtWrt => ops.table.intrCtxtWrt
  | .intrCtxtRd => ops.table.intrCtxtRd
  | .intrCtxtInv => ops.table.intrCtxtInv
  | .intrCtxtClr => ops.table.intrCtxtClr

/-- The closed set, in the source's order (R85). -/
def Op.all : List Op :=
  [.vfOnline, .vfOffline, .qreq, .qnotifyAdd, .qnotifyDel, .fmap, .qctxtWrt, .qctxtRd, .qctxtInv, .qctxtClr, .csr,
    .intrCtxtWrt, .intrCtxtRd, .intrCtxtInv, .intrCtxtClr]

/-- The mnemonic with `OPC(op) = n`, or none for the 113 illegal values (R99, R102). -/
def Op.ofCode (ops : Config.OpMap) (n : Nat) : Option Op := Op.all.find? fun op => op.code ops == n

/-- `dirbit` (R81, R98). -/
def Dir.bit : Dir → Nat
  | .req => 0
  | .rsp => 1

/-! ## Header fields (R81) -/

/-- `OPC`, bits `[6:0]` of word 0. -/
def opcOf (x : Frame) : Nat := field (word x 0) 6 0
/-- `DIR`, bit `[7]` of word 0. -/
def dirOf (x : Frame) : Nat := field (word x 0) 7 7
/-- `TAG`, bits `[15:8]` of word 0. -/
def tagOf (x : Frame) : Nat := field (word x 0) 15 8
/-- `SRC`, bits `[23:16]` of word 0. -/
def srcOf (x : Frame) : Nat := field (word x 0) 23 16
/-- `DST`, bits `[31:24]` of word 0. -/
def dstOf (x : Frame) : Nat := field (word x 0) 31 24

/-- The header of the typed message (R99). -/
def headerOf (x : Frame) : Header := ⟨tagOf x, srcOf x, dstOf x⟩

/-- Word 0 (R81, R98). -/
def headerWord (op : Nat) (d : Nat) (h : Header) : Word :=
  packed (put 6 0 op + put 7 7 d + put 15 8 h.tag + put 23 16 h.src + put 31 24 h.dst)

/-! ## `parse_body`: one parser per format (R88 to R96, R99) -/

/-- `P_QREQ` in a request (R90, R125). -/
def parseQRangeReq (x : Frame) : Except Err QRange :=
  let qbase := s32 (word x 2)
  if legalBaseOrNone qbase then .ok ⟨qbase, field (word x 3) 15 0⟩ else .error (.malformedMessage .qbase)

/-- `P_QREQ` in a response (R90, R126). -/
def parseQRangeRsp (x : Frame) : Except Err QRange :=
  let qbase := s32 (word x 2)
  if legalBase qbase then .ok ⟨qbase, field (word x 3) 15 0⟩ else .error (.malformedMessage .qbase)

/-- `P_QSEL` (R91, R127). -/
def parseQSel (x : Frame) : Except Err QSel :=
  .ok ⟨field (word x 2) 15 0, field (word x 2) 16 16, field (word x 2) 17 17⟩

/-- `P_QSELT` (R91, R103 (c), R158). -/
def parseQSelT (x : Frame) : Except Err QSelT :=
  let st : Int := field (word x 2) 17 17
  let t : Int := field (word x 2) 19 18
  if reservedPair t st then .error (.malformedMessage .typeMode)
  else .ok ⟨field (word x 2) 15 0, field (word x 2) 16 16, st, t⟩

/-- `P_FMAP` (R93, R131). -/
def parseFmap (x : Frame) : Except Err Fmap :=
  let qbase := s32 (word x 3)
  if legalBase qbase then .ok ⟨field (word x 2) 7 0, qbase, field (word x 4) 15 0⟩
  else .error (.malformedMessage .qbase)

/-- A descriptor field of group `g`: its value when the type includes the group, else 0 (R153, R155). -/
def descValue (t : Int) (g : DescGroup) (v : Nat) : Int := if g.includedBy t then v else 0

/-- A 64-bit field in two consecutive words, the low word first (R66). -/
def pair64 (lo hi : Word) : Nat := lo.toNat + 2 ^ 32 * hi.toNat

/-- `parse_desc(t, x)` (R155), the positions of R152. It never fails; reserved bits are not read. -/
def parseDesc (t : Int) (x : Frame) : QDesc :=
  let q := descValue t .queue
  let c := descValue t .completion
  let k := descValue t .common
  { ringBsAddr := q (pair64 (word x 3) (word x 4))
    cmptRingBsAddr := c (pair64 (word x 5) (word x 6))
    forcedEn := q (field (word x 7) 0 0)
    enBypass := q (field (word x 7) 1 1)
    irqArm := q (field (word x 7) 2 2)
    wbiIntvlEn := q (field (word x 7) 3 3)
    wbiChk := q (field (word x 7) 4 4)
    at_ := q (field (word x 7) 5 5)
    wbkEn := q (field (word x 7) 6 6)
    irqEn := q (field (word x 7) 7 7)
    pfchEn := q (field (word x 7) 8 8)
    enBypassPrefetch := q (field (word x 7) 9 9)
    disOverflowCheck := c (field (word x 7) 10 10)
    cmptIntEn := c (field (word x 7) 11 11)
    cmptAt := c (field (word x 7) 12 12)
    cmptColor := c (field (word x 7) 13 13)
    cmptFullUpd := c (field (word x 7) 14 14)
    cmptStatEn := c (field (word x 7) 15 15)
    descSz := q (field (word x 7) 17 16)
    cmptDescSz := c (field (word x 7) 19 18)
    triggerMode := c (field (word x 7) 22 20)
    funcId := k (field (word x 8) 7 0)
    cntThres := c (field (word x 8) 23 16)
    timerThres := c (field (word x 8) 31 24)
    intrId := k (field (word x 9) 10 0)
    intrAggr := k (field (word x 9) 11 11)
    ringSz := q (field (word x 9) 31 16)
    bufSz := q (field (word x 10) 15 0)
    cmptRingSz := c (field (word x 10) 31 16) }

/-- `P_QCTXT` (R94, R156). -/
def parseQCtxt (x : Frame) : Except Err QCtxt :=
  match parseQSelT x with
  | .error e => .error e
  | .ok sel => .ok ⟨sel, parseDesc sel.cmptCtxtType x⟩

/-- The first `n` entries of the index list, words `3 + i` (R171, R173). -/
def parseIndices (n : Nat) (x : Frame) : List Int :=
  (List.range n).map fun i => (field (word x (3 + i)) 10 0 : Int)

/-- The first `n` context pairs, words `11 + 2i` and `12 + 2i` (R171, R173). -/
def parseContexts (n : Nat) (x : Frame) : List (Int × Int) :=
  (List.range n).map fun i => (uword (word x (11 + 2 * i)), uword (word x (12 + 2 * i)))

/-- `NUM_RINGS`, word 2 `[3:0]`, when it is in 1..8 (R171, R173). -/
def parseNumRings (x : Frame) : Except Err Nat :=
  let n := field (word x 2) 3 0
  if 1 ≤ n ∧ n ≤ 8 then .ok n else .error (.malformedMessage .numRings)

/-- `P_IRINGS`: `parse_ictxt(false, x)` (R173). -/
def parseIRings (x : Frame) : Except Err IRings :=
  match parseNumRings x with
  | .error e => .error e
  | .ok n => .ok ⟨n, parseIndices n x⟩

/-- `P_ICTXT`: `parse_ictxt(true, x)` (R173). -/
def parseICtxt (x : Frame) : Except Err ICtxt :=
  match parseNumRings x with
  | .error e => .error e
  | .ok n => .ok ⟨n, parseIndices n x, parseContexts n x⟩

/-- `P_DEVINFO`: words 2 to 5 (R96, R122). -/
def parseDevInfo (x : Frame) : Except Err DevInfo :=
  .ok ⟨(List.range 4).map fun k => uword (word x (2 + k))⟩

/-- `P_CSR`: words 2 to 26 (R96, R134). -/
def parseCsrInfo (x : Frame) : Except Err CsrInfo :=
  .ok ⟨(List.range 25).map fun k => uword (word x (2 + k))⟩

/-- `P_NONE`: nothing is read (R89). -/
def parseNoBody (_ : Frame) : Except Err NoBody := .ok .none

/-! ## `parse` (R99) -/

/-- The request of opcode `op`, its body in the format R88 gives the request. -/
def parseRequest (op : Op) (h : Header) (x : Frame) : Except Err Instr :=
  match op with
  | .vfOnline => .ok (.vfOnlineReq h)
  | .vfOffline => .ok (.vfOfflineReq h)
  | .qreq => (parseQRangeReq x).map (.qreqReq h)
  | .qnotifyAdd => (parseQSel x).map (.qnotifyAddReq h)
  | .qnotifyDel => (parseQSel x).map (.qnotifyDelReq h)
  | .fmap => (parseFmap x).map (.fmapReq h)
  | .qctxtWrt => (parseQCtxt x).map (.qctxtWrtReq h)
  | .qctxtRd => (parseQSelT x).map (.qctxtRdReq h)
  | .qctxtInv => (parseQSelT x).map (.qctxtInvReq h)
  | .qctxtClr => (parseQSelT x).map (.qctxtClrReq h)
  | .csr => .ok (.csrReq h)
  | .intrCtxtWrt => (parseICtxt x).map (.intrCtxtWrtReq h)
  | .intrCtxtRd => (parseIRings x).map (.intrCtxtRdReq h)
  | .intrCtxtInv => (parseIRings x).map (.intrCtxtInvReq h)
  | .intrCtxtClr => (parseIRings x).map (.intrCtxtClrReq h)

/-- The body of a response (R99, R120): positive status malformed, negative status a failure whose body is not read, zero
the body of the format. -/
def parseRsp {β : Type} (body : Frame → Except Err β) (x : Frame) : Except Err (Rsp β) :=
  let st := s32 (word x 1)
  if st > 0 then .error (.malformedMessage .status)
  else if st < 0 then .ok (.fail st)
  else (body x).map .ok

/-- The response of opcode `op`, its body in the format R88 gives the response. -/
def parseResponse (op : Op) (h : Header) (x : Frame) : Except Err Instr :=
  match op with
  | .vfOnline => (parseRsp parseDevInfo x).map (.vfOnlineRsp h)
  | .vfOffline => (parseRsp parseNoBody x).map (.vfOfflineRsp h)
  | .qreq => (parseRsp parseQRangeRsp x).map (.qreqRsp h)
  | .qnotifyAdd => (parseRsp parseNoBody x).map (.qnotifyAddRsp h)
  | .qnotifyDel => (parseRsp parseNoBody x).map (.qnotifyDelRsp h)
  | .fmap => (parseRsp parseNoBody x).map (.fmapRsp h)
  | .qctxtWrt => (parseRsp parseNoBody x).map (.qctxtWrtRsp h)
  | .qctxtRd => (parseRsp parseQCtxt x).map (.qctxtRdRsp h)
  | .qctxtInv => (parseRsp parseNoBody x).map (.qctxtInvRsp h)
  | .qctxtClr => (parseRsp parseNoBody x).map (.qctxtClrRsp h)
  | .csr => (parseRsp parseCsrInfo x).map (.csrRsp h)
  | .intrCtxtWrt => (parseRsp parseNoBody x).map (.intrCtxtWrtRsp h)
  | .intrCtxtRd => (parseRsp parseICtxt x).map (.intrCtxtRdRsp h)
  | .intrCtxtInv => (parseRsp parseNoBody x).map (.intrCtxtInvRsp h)
  | .intrCtxtClr => (parseRsp parseNoBody x).map (.intrCtxtClrRsp h)

/-- `parse(x)` under the opcode map `ops` (R99), with the length test of R104 before anything else. -/
def parse (ops : Config.OpMap) (x : Frame) : Except Err Instr :=
  if x.length ≠ 32 then .error (.malformedMessage .length)
  else
    match Op.ofCode ops (opcOf x) with
    | none => .error (.malformedMessage .opcode)
    | some op => if dirOf x = 0 then parseRequest op (headerOf x) x else parseResponse op (headerOf x) x

/-- `parse_<op>_<dir>(x)`: `parse`, then the opcode and direction must be the expected ones (R99, R120). -/
def parseAs (ops : Config.OpMap) (op : Op) (d : Dir) (x : Frame) : Except Err Instr :=
  match parse ops x with
  | .error e => .error e
  | .ok m => if m.op = op ∧ m.dir = d then .ok m else .error (.malformedMessage .unexpectedOpcode)

/-! ## The encoder: `compose_body` writes each field with `put` (R98, R101) -/

/-- Words of `P_QREQ` (R90). -/
def QRange.words (b : QRange) : Nat → Word
  | 2 => u32 b.qbase
  | 3 => packed (put 15 0 b.qmax)
  | _ => 0

/-- Words of `P_QSEL` (R91). -/
def QSel.words (b : QSel) : Nat → Word
  | 2 => packed (put 15 0 b.qid + put 16 16 b.c2h + put 17 17 b.st)
  | _ => 0

/-- Words of `P_QSELT` (R91). -/
def QSelT.words (b : QSelT) : Nat → Word
  | 2 => packed (put 15 0 b.qid + put 16 16 b.c2h + put 17 17 b.st + put 19 18 b.cmptCtxtType)
  | _ => 0

/-- Words of `P_FMAP` (R93). -/
def Fmap.words (b : Fmap) : Nat → Word
  | 2 => packed (put 7 0 b.funcId)
  | 3 => u32 b.qbase
  | 4 => packed (put 15 0 b.qmax)
  | _ => 0

/-- The flag word of the descriptor, word 7 (R152, R154). -/
def QDesc.flagWord (d : QDesc) : Word :=
  packed (put 0 0 d.forcedEn + put 1 1 d.enBypass + put 2 2 d.irqArm + put 3 3 d.wbiIntvlEn + put 4 4 d.wbiChk +
    put 5 5 d.at_ + put 6 6 d.wbkEn + put 7 7 d.irqEn + put 8 8 d.pfchEn + put 9 9 d.enBypassPrefetch +
    put 10 10 d.disOverflowCheck + put 11 11 d.cmptIntEn + put 12 12 d.cmptAt + put 13 13 d.cmptColor +
    put 14 14 d.cmptFullUpd + put 15 15 d.cmptStatEn + put 17 16 d.descSz + put 19 18 d.cmptDescSz +
    put 22 20 d.triggerMode)

/-- Words 3 to 10: the descriptor (R152, R154). -/
def QDesc.words (d : QDesc) : Nat → Word
  | 3 => u32 d.ringBsAddr
  | 4 => u32 (d.ringBsAddr / 2 ^ 32)
  | 5 => u32 d.cmptRingBsAddr
  | 6 => u32 (d.cmptRingBsAddr / 2 ^ 32)
  | 7 => d.flagWord
  | 8 => packed (put 7 0 d.funcId + put 23 16 d.cntThres + put 31 24 d.timerThres)
  | 9 => packed (put 10 0 d.intrId + put 11 11 d.intrAggr + put 31 16 d.ringSz)
  | 10 => packed (put 15 0 d.bufSz + put 31 16 d.cmptRingSz)
  | _ => 0

/-- Words of `P_QCTXT`: the selector in word 2, the descriptor in words 3 to 10 (R94). -/
def QCtxt.words (b : QCtxt) (k : Nat) : Word := if k = 2 then b.sel.words 2 else b.desc.words k

/-- Words of `P_IRINGS` (R171, R173). -/
def IRings.words (b : IRings) (k : Nat) : Word :=
  if k = 2 then packed (put 3 0 b.numRings)
  else if 3 ≤ k ∧ k ≤ 10 then packed (put 10 0 (b.ringIndex.getD (k - 3) 0))
  else 0

/-- Words of `P_ICTXT` (R171, R173). -/
def ICtxt.words (b : ICtxt) (k : Nat) : Word :=
  if 11 ≤ k ∧ k ≤ 26 then
    let p := b.ctxt.getD ((k - 11) / 2) (0, 0)
    if (k - 11) % 2 = 0 then u32 p.1 else u32 p.2
  else IRings.words ⟨b.numRings, b.ringIndex⟩ k

/-- Words of `P_DEVINFO` (R96). -/
def DevInfo.frameWords (b : DevInfo) (k : Nat) : Word := if 2 ≤ k ∧ k ≤ 5 then u32 (b.words.getD (k - 2) 0) else 0

/-- Words of `P_CSR` (R96). -/
def CsrInfo.frameWords (b : CsrInfo) (k : Nat) : Word := if 2 ≤ k ∧ k ≤ 26 then u32 (b.words.getD (k - 2) 0) else 0

/-- Words 1 to 31 of a response: the status in word 1; a failure response has no body (R84, R97, R98). -/
def Rsp.words {β : Type} (body : β → Nat → Word) : Rsp β → Nat → Word
  | .ok b, k => if k = 1 then 0 else body b k
  | .fail st, k => if k = 1 then u32 st else 0

/-- Words of `P_NONE` (R89). -/
def noWords (_ : Nat) : Word := 0

/-- Words 1 to 31 of the message, in the format R88 gives its opcode and direction. -/
def Instr.bodyWords : Instr → Nat → Word
  | .vfOnlineReq _ | .vfOfflineReq _ | .csrReq _ => noWords
  | .vfOnlineRsp _ r => r.words DevInfo.frameWords
  | .qreqReq _ b => b.words
  | .qreqRsp _ r => r.words QRange.words
  | .qnotifyAddReq _ b | .qnotifyDelReq _ b => b.words
  | .fmapReq _ b => b.words
  | .qctxtWrtReq _ b => b.words
  | .qctxtRdReq _ b | .qctxtInvReq _ b | .qctxtClrReq _ b => b.words
  | .qctxtRdRsp _ r => r.words QCtxt.words
  | .csrRsp _ r => r.words CsrInfo.frameWords
  | .intrCtxtWrtReq _ b => b.words
  | .intrCtxtRdReq _ b | .intrCtxtInvReq _ b | .intrCtxtClrReq _ b => b.words
  | .intrCtxtRdRsp _ r => r.words ICtxt.words
  | .vfOfflineRsp _ r | .qnotifyAddRsp _ r | .qnotifyDelRsp _ r | .fmapRsp _ r | .qctxtWrtRsp _ r
  | .qctxtInvRsp _ r | .qctxtClrRsp _ r | .intrCtxtWrtRsp _ r | .intrCtxtInvRsp _ r | .intrCtxtClrRsp _ r =>
    r.words fun _ => noWords

/-- The 32 words of a message: the header in word 0, the body after it, every filler bit 0 (R81, R98, R101). -/
def encode (ops : Config.OpMap) (i : Instr) : Frame :=
  frameOf fun k => if k = 0 then headerWord (i.op.code ops) i.dir.bit i.header else i.bodyWords k

/-! ## `compose` (R98): the tests in the order of the pseudocode, then the encoder -/

/-- The first of these tests that fails names the error (R297). -/
def firstFailure : List (Bool × Info) → Option Info
  | [] => none
  | (ok, i) :: rest => if ok then firstFailure rest else some i

/-- The header tests of R98. -/
def Header.tests (h : Header) : List (Bool × Info) :=
  [(fits 8 h.tag, .tag), (fits 8 h.src && fits 8 h.dst, .funcId)]

/-- R125. -/
def QRange.reqTests (b : QRange) : List (Bool × Info) :=
  [(legalBaseOrNone b.qbase, .qbase), (fits 16 b.qmax, .qmax)]

/-- R126. -/
def QRange.rspTests (b : QRange) : List (Bool × Info) := [(legalBase b.qbase, .qbase), (fits 16 b.qmax, .qmax)]

/-- R127. -/
def QSel.tests (b : QSel) : List (Bool × Info) := [(fits 16 b.qid, .qid), (fits 1 b.c2h && fits 1 b.st, .flag)]

/-- R131. -/
def Fmap.tests (b : Fmap) : List (Bool × Info) :=
  [(fits 8 b.funcId, .funcId), (legalBase b.qbase, .qbase), (fits 16 b.qmax, .qmax)]

/-- R156, the selector. -/
def QSelT.tests (b : QSelT) : List (Bool × Info) :=
  [(fits 16 b.qid, .qid), (fits 1 b.c2h && fits 1 b.st, .flag), (fits 2 b.cmptCtxtType, .cmptCtxtType),
    (!reservedPair b.cmptCtxtType b.st, .typeMode)]

/-- R154: the width of every field, then the fields of an excluded group. -/
def QDesc.tests (t : Int) (d : QDesc) : List (Bool × Info) :=
  (d.rows.map fun (f, _, w, v) => (fits w v, Info.descField f)) ++
    d.rows.map fun (f, g, _, v) => (g.includedBy t || decide (v = 0), Info.excluded f)

/-- R156. -/
def QCtxt.tests (b : QCtxt) : List (Bool × Info) := b.sel.tests ++ b.desc.tests b.sel.cmptCtxtType

/-- R173, `with_ctxt` false. -/
def IRings.tests (b : IRings) : List (Bool × Info) :=
  [(decide (1 ≤ b.numRings ∧ b.numRings ≤ 8), .numRings),
    (decide ((b.ringIndex.length : Int) = b.numRings), .listLength),
    (b.ringIndex.all (fits 11), .ringIndex)]

/-- R173, `with_ctxt` true. -/
def ICtxt.tests (b : ICtxt) : List (Bool × Info) :=
  [(decide (1 ≤ b.numRings ∧ b.numRings ≤ 8), .numRings),
    (decide ((b.ringIndex.length : Int) = b.numRings), .listLength),
    (decide ((b.ctxt.length : Int) = b.numRings), .listLength),
    (b.ringIndex.all (fits 11), .ringIndex),
    (b.ctxt.all (fun p => fits 32 p.1 && fits 32 p.2), .ctxt)]

/-- R122. -/
def DevInfo.tests (b : DevInfo) : List (Bool × Info) :=
  [(decide (b.words.length = 4) && b.words.all (fits 32), .devInfo)]

/-- R134. -/
def CsrInfo.tests (b : CsrInfo) : List (Bool × Info) :=
  [(decide (b.words.length = 25) && b.words.all (fits 32), .csr)]

/-- R98, R120: the status of a failure response; the body of a success response. -/
def Rsp.tests {β : Type} (body : β → List (Bool × Info)) : Rsp β → List (Bool × Info)
  | .ok b => body b
  | .fail st => [(decide (-2 ^ 31 ≤ st ∧ st < 0), .status)]

/-- The body tests of each opcode and direction, in the order of its rule (R121 to R181). -/
def Instr.bodyTests : Instr → List (Bool × Info)
  | .vfOnlineReq _ | .vfOfflineReq _ | .csrReq _ => []
  | .vfOnlineRsp _ r => r.tests DevInfo.tests
  | .qreqReq _ b => b.reqTests
  | .qreqRsp _ r => r.tests QRange.rspTests
  | .qnotifyAddReq _ b | .qnotifyDelReq _ b => b.tests
  | .fmapReq _ b => b.tests
  | .qctxtWrtReq _ b => b.tests
  | .qctxtRdReq _ b | .qctxtInvReq _ b | .qctxtClrReq _ b => b.tests
  | .qctxtRdRsp _ r => r.tests QCtxt.tests
  | .csrRsp _ r => r.tests CsrInfo.tests
  | .intrCtxtWrtReq _ b => b.tests
  | .intrCtxtRdReq _ b | .intrCtxtInvReq _ b | .intrCtxtClrReq _ b => b.tests
  | .intrCtxtRdRsp _ r => r.tests ICtxt.tests
  | .vfOfflineRsp _ r | .qnotifyAddRsp _ r | .qnotifyDelRsp _ r | .fmapRsp _ r | .qctxtWrtRsp _ r
  | .qctxtInvRsp _ r | .qctxtClrRsp _ r | .intrCtxtWrtRsp _ r | .intrCtxtInvRsp _ r | .intrCtxtClrRsp _ r =>
    r.tests fun _ => []

/-- `compose(m)` (R98, R297): header tests, body tests, then the encoder. -/
def compose (ops : Config.OpMap) (m : Instr) : Except Err Frame :=
  match firstFailure (m.header.tests ++ m.bodyTests) with
  | some i => .error (.invalidArgument i)
  | none => .ok (encode ops m)

/-! ## Byte image and the opcode table's words -/

/-- The 128-byte image of a message, little-endian: byte `4*i + k` is bits `[8k+7 : 8k]` of word `i` (R65). -/
def byteImage (x : Frame) : List (BitVec 8) :=
  x.flatMap fun w => (List.range 4).map fun k => BitVec.ofNat 8 (field w (8 * k + 7) (8 * k))

/-- The word of four bytes, the first byte lowest (R65). -/
def wordOfBytes (b0 b1 b2 b3 : BitVec 8) : Word :=
  packed (b0.toNat + 2 ^ 8 * b1.toNat + 2 ^ 16 * b2.toNat + 2 ^ 24 * b3.toNat)

/-- The words of a byte image (R65); bytes that do not fill a word are dropped. -/
def wordsOfBytes : List (BitVec 8) → Frame
  | b0 :: b1 :: b2 :: b3 :: rest => wordOfBytes b0 b1 b2 b3 :: wordsOfBytes rest
  | _ => []

/-- `parse` of a byte image; an image that is not 128 bytes is no 32-word buffer and is rejected (R65, R104). -/
def parseBytes (ops : Config.OpMap) (b : List (BitVec 8)) : Except Err Instr :=
  if b.length = 128 then parse ops (wordsOfBytes b) else .error (.malformedMessage .length)

/-- The frame whose bits are `w`, numbered as spec/opcode_table.json numbers them: word `i` is bits `32i+31..32i`, and
every bit from `nbits` up is 0. -/
def frameOfBits (nbits w : Nat) : Frame :=
  frameOf fun i => packed (w % 2 ^ nbits / 2 ^ (32 * i))

/-- The typed message `parse` reads from a frame given by its bits; none where `parse` rejects it. -/
def decodeWord (ops : Config.OpMap) (nbits w : Nat) : Option Instr :=
  (parseBytes ops (byteImage (frameOfBits nbits w))).toOption

/-- `decodeWord` under the default map, which numbers spec/opcode_table.json (R86). -/
def decodeTableWord (nbits w : Nat) : Option Instr := decodeWord .default nbits w

end Sys2Proof
end

