-- ==== Sys2Proof/Machine/State.lean ====
section
/-! DEFINITION. The state of the block (spec/10_state.md): per channel the two handshake flags, the PF side, the VF side and
the grant row; the shared slots as one memory; the registered bases. Beside the spec's state stand four fields of the MODEL's
own: the schedule of agent steps with the environment's inputs (R6, R42), what the latest step returned to its caller
(R11, R291), the call of `PRIV` it made (R250, R309), and the counter of `hw_init`s that the free values take (log 5). -/

namespace Sys2Proof.Machine

/-! ## State of one channel -/

/-- `DSTATE[f]` (R26). -/
inductive DState where
  | idle | decoding | executing | responding | faulted
deriving DecidableEq, Repr

/-- The 3-bit encoding R26 suggests; no rule depends on it. -/
def DState.code : DState → BitVec 3
  | .idle => 0
  | .decoding => 1
  | .executing => 2
  | .responding => 3
  | .faulted => 4

/-- `VSTATE[f]` (R37). -/
inductive VState where
  | idle | wait
deriving DecidableEq, Repr

/-- The grant of a function: `GRANT_QBASE[f]`, `GRANT_QMAX[f]`, `GRANT_VEC[f]` (R41). -/
structure Grant where
  qbase : Nat
  qmax : Nat
  /-- a set, held as a list; only membership is read -/
  vec : List VecId
deriving DecidableEq, Repr

/-- A grant for each function it names (R250 "the new value of the grant tables"). -/
abbrev GrantTable := List (FuncId × Grant)

/-- The state of channel `f`, the shared slot apart (R23 to R41). -/
structure Chan where
  /-- `PEND[f]` (R23) -/
  pend : Bool
  /-- `ACK[f]` (R24) -/
  ack : Bool
  /-- `DSTATE[f]` (R26) -/
  dstate : DState
  /-- `RXBUF[f]` (R27) -/
  rxbuf : Frame
  /-- `REQ[f]` (R28) -/
  req : Instr
  /-- `RESP[f]` (R29) -/
  resp : Frame
  /-- `ACK_SHADOW[f]` (R31) -/
  ackShadow : Bool
  /-- `INTR_EN_PF[f]` (R32) -/
  intrEnPf : Bool
  /-- `OUTSTANDING[f]` (R33) -/
  outstanding : Bool
  /-- `SENT[f]` (R34) -/
  sent : Frame
  /-- `VF_RXBUF[f]` (R35) -/
  vfRxbuf : Frame
  /-- `TAG_NEXT[f]` (R36) -/
  tagNext : BitVec 8
  /-- `VSTATE[f]` (R37) -/
  vstate : VState
  /-- `VF_REQ[f]` (R38) -/
  vfReq : Request
  /-- `VF_POLLS[f]` (R38) -/
  vfPolls : Nat
  /-- `VF_RETRY[f]` (R38) -/
  vfRetry : Nat
  /-- `VF_HF[f]` (R38) -/
  vfHf : Bool
  /-- `VF_FAULTED[f]` (R39) -/
  vfFaulted : Bool
  /-- `INTR_EN_VF[f]` (R40) -/
  intrEnVf : Bool
  /-- `GRANT_*[f]` (R41) -/
  grant : Grant
  /-- the base `hw_init(true)` recorded (R70, R323) -/
  vfBase : Nat
deriving DecidableEq, Repr

/-! ## Inputs: what an agent or the environment brings to a step (R6, R42) -/

/-- The data of an answer of `PRIV` (R251). -/
inductive PrivData where
  | none
  | devInfo (b : DevInfo)
  | qrange (b : QRange)
  | desc (d : QDesc)
  | csr (b : CsrInfo)
  | ctxt (c : List (Int × Int))
deriving DecidableEq, Repr

/-- An answer of `PRIV` (R250): `Throw`, or a status with data. -/
inductive PrivAnswer where
  | throw
  | answer (st : Int) (data : PrivData)
deriving DecidableEq, Repr

/-- The five getters (R191 to R195). -/
inductive Getter where
  | devInfo | qinfo | csr | qctxt | intrCtxt
deriving DecidableEq, Repr

/-- One atomic step of one agent (R6, R14), with every input the step takes from its caller or the environment: the frame
or typed request, a handshake-failure bit for each `send`, `receive` or `clear_ack` it makes (R206), the answer of `PRIV`
with the new value of the grant tables (R250). -/
inductive Action where
  /-- `send(VF(f), x)` (R207) -/
  | sendVf (f : FuncId) (x : Frame) (hsFail : Bool)
  /-- `send(PF, x)` (R208) -/
  | sendPf (x : Frame) (hsFail : Bool)
  /-- `receive(PF, f)` (R209) -/
  | receivePf (f : FuncId) (hsFail : Bool)
  /-- `receive(VF(f))` (R210) -/
  | receiveVf (f : FuncId) (hsFail : Bool)
  /-- `clear_ack(PF, f)` (R212) -/
  | clearAckPf (f : FuncId) (hsFail : Bool)
  /-- `clear_ack(VF(f), f)` (R212) -/
  | clearAckVf (f : FuncId) (hsFail : Bool)
  /-- `enable_interrupts(role)` (R213) -/
  | enableInterrupts (r : Role)
  /-- `disable_interrupts(role)` (R214) -/
  | disableInterrupts (r : Role)
  /-- `hw_init(is_vf)` (R215, R322, R323); in the PF role it is transition T6 -/
  | hwInit (r : Role)
  /-- T1 (R237) -/
  | accept (f : FuncId) (hsFail : Bool)
  /-- T2 (R238) -/
  | decode (f : FuncId)
  /-- T3 (R240) -/
  | execute (f : FuncId) (a : PrivAnswer) (g : GrantTable)
  /-- T4 (R241) -/
  | respond (f : FuncId) (hsFail : Bool)
  /-- T5 (R242): one bit for its `receive`, one for its `send` -/
  | busyReject (f : FuncId) (hsReceive hsSend : Bool)
  /-- V1 (R278): one bit for the drain's `receive`, one for the `send` -/
  | start (f : FuncId) (req : Request) (hsReceive hsSend : Bool)
  /-- V2 or V3 (R279) -/
  | poll (f : FuncId) (hsFail : Bool)
  /-- V5 (R282): one bit for its `clear_ack`, one for its `send` -/
  | retry (f : FuncId) (hsClear hsSend : Bool)
  /-- V6 (R283) -/
  | giveUp (f : FuncId) (hsClear : Bool)
  /-- VF `f`'s caller reads the response in `VF_RXBUF[f]`: `status`, then the opcode's getter (R286) -/
  | readResponse (f : FuncId)
  /-- the resource manager changes the grant tables (R41, R338) -/
  | setGrants (g : GrantTable)
  /-- `compose` of a typed message (R98) -/
  | compose (m : Instr)
  /-- `parse` of a raw message (R99) -/
  | parse (x : Frame)
  /-- `parse_<op>_<dir>` of a raw message (R120) -/
  | parseAs (op : Op) (d : Dir) (x : Frame)
  /-- `is_response(sent, received)` (R186) -/
  | isResponse (sent received : Frame)
  /-- `status(received)` (R188) -/
  | status (x : Frame)
  /-- a getter applied to a raw response (R190) -/
  | get (g : Getter) (x : Frame)
  /-- `handle_request(f, y)` (R255) -/
  | handleRequest (f : FuncId) (y : Frame) (a : PrivAnswer) (g : GrantTable)
  /-- power-on reset (R320, R321) -/
  | powerOn
deriving DecidableEq, Repr

/-! ## Results: what a step returns to its caller (R11, R291) -/

/-- The failure kinds a negative status maps to (R189). -/
inductive FailKind where
  | badArgument | queueNotFound | resourceExhausted | busy | unauthorized | malformed | failure
  | other (st : Int)
deriving DecidableEq, Repr

/-- What `status` returns when it does not raise (R188). -/
inductive RspStatus where
  | success
  | failed (k : FailKind)
deriving DecidableEq, Repr

/-- The fields a getter returns on success (R191 to R195). -/
inductive Snapshot where
  | devInfo (b : DevInfo)
  | qinfo (b : QRange)
  | csr (b : CsrInfo)
  | qctxt (b : QCtxt)
  | intrCtxt (b : ICtxt)
deriving DecidableEq, Repr

/-- What a step returned. -/
inductive Result where
  /-- no step has run, or nothing was scheduled -/
  | none
  /-- the scheduled transition is not enabled in this state (log 2) -/
  | notEnabled
  /-- `Ok` with no value, or a transition that has no caller ran -/
  | ok
  /-- the transaction goes on; nothing is returned to its caller yet (V1, V2, V5) -/
  | pending
  | error (e : Err)
  /-- a frame: what `receive`, V3, `compose` or `handle_request` returns; `receive(PF, f)` returns the channel too -/
  | frame (source : Option FuncId) (y : Frame)
  | message (m : Instr)
  | correlated (b : Bool)
  | status (st : RspStatus)
  | fields (v : Snapshot)
deriving DecidableEq, Repr

/-- A call `PRIV(f, op, body)`, its opcode and body in the typed request (R250). -/
structure PrivCall where
  f : FuncId
  m : Instr
deriving DecidableEq, Repr

/-! ## The whole state -/

/-- The shared slots as one byte memory: byte `4*i + k` of `SLOT[f]` at address `128*f + 4*i + k` (R22, R65; log 6). -/
abbrev Memory := List Host.Cell

/-- What an address that is not listed reads as. The spec leaves the slot words after reset unspecified (R46, R48).
DESIGN CHOICE (log 7), unsafe: a fixed byte. -/
def Memory.unlisted : BitVec 8 := 0

/-- The canonical form: addresses strictly rising, no entry equal to what an unlisted address reads as. -/
def Memory.wf : Memory → Bool
  | [] => true
  | [(_, b)] => b != Memory.unlisted
  | (a, b) :: (a', b') :: rest => b != Memory.unlisted && decide (a < a') && Memory.wf ((a', b') :: rest)

/-- The state of the block. -/
structure State where
  /-- the opcode map (R86) and the OPEN parameters (R9); no step writes them -/
  cfg : Config.Params
  /-- `SLOT[f]` for every `f` (R22) -/
  mem : Memory
  /-- the channels: `VFSET` is the set of keys (R9); no step changes the keys -/
  chans : List (FuncId × Chan)
  /-- the base `hw_init(false)` recorded (R70, R322) -/
  pfBase : Nat
  /-- MODEL: the steps the agents take from here on, in order, with their inputs (log 1) -/
  sched : List Action
  /-- MODEL: what the latest step returned to its caller (log 8) -/
  result : Result
  /-- MODEL: the call of `PRIV` the latest step made, if any (log 8) -/
  priv : Option PrivCall
  /-- MODEL: how many `hw_init`s have run: the index of the next free values (log 5) -/
  inits : Nat
deriving DecidableEq, Repr

/-- Why the machine stops. -/
inductive Fault where
  /-- Raised by `step` and `exec` when the scheduled step names a function id outside `VFSET`: such a channel does not
  exist and an access to it is refused (R20 preamble, R60). Safe: no rule issues such an access. -/
  | noSuchChannel
deriving DecidableEq, Repr

/-- Why a step has no meaning. -/
inductive Refusal where
  /-- Raised by no arm: every row of spec/opcode_table.json has its meaning. Safe. -/
  | notModelled (mnemonic : String)
deriving DecidableEq, Repr

/-- The outcome of a step. -/
abbrev Out := Host.Outcome State Fault Refusal

/-! ## Reset (R46, R321) -/

/-- A private buffer after power-on reset. The spec leaves it unspecified (R46, R48). DESIGN CHOICE (log 9), unsafe. -/
def Frame.reset : Frame := List.replicate 32 0

/-- `REQ[f]` after power-on reset, unspecified by the spec (R46). DESIGN CHOICE (log 9), unsafe. -/
def Chan.resetReq : Instr := .vfOnlineReq ⟨0, 0, 0⟩

/-- `VF_REQ[f]` after power-on reset, unspecified by the spec (R46). DESIGN CHOICE (log 9), unsafe. -/
def Chan.resetVfReq : Request := .vfOnline

/-- `GRANT_*[f]` after power-on reset: nothing is granted (R41, R46). -/
def Grant.reset : Grant := { qbase := 0, qmax := 0, vec := [] }

/-- A recorded base after power-on reset: the spec gives it no reset value (R46, R322, R323). DESIGN CHOICE (log 19),
unsafe. -/
def baseReset : Nat := 0

/-- A channel after power-on reset: the table of R46. -/
def Chan.reset : Chan :=
  { pend := false, ack := false
    dstate := .idle
    rxbuf := Frame.reset, req := Chan.resetReq, resp := Frame.reset
    ackShadow := false, intrEnPf := false
    outstanding := false
    sent := Frame.reset, vfRxbuf := Frame.reset
    tagNext := 0
    vstate := .idle
    vfReq := Chan.resetVfReq, vfPolls := 0, vfRetry := 0, vfHf := false
    vfFaulted := false, intrEnVf := false
    grant := Grant.reset
    vfBase := baseReset }

/-- The state after power-on reset (R46, R321), with the default map and parameters of R86 and R9 (log 3): `VFSET` = {1}. Nothing is
scheduled: the first step is a VF requester's V1 or a host call (R47). -/
def State.reset : State :=
  { cfg := Config.defaults
    mem := []
    chans := [(1, Chan.reset)]
    pfBase := baseReset
    sched := []
    result := .none
    priv := none
    inits := 0 }

end Sys2Proof.Machine
end

