-- ==== Sys2Proof/Machine/Ops.lean ====
section
/-! DEFINITION. The named operations over the state: the slot memory (spec/20_memory.md R60, R61, R65), channels, the flag
writes (R62, R63), the end of a step, taking an exception (spec/60_exceptions.md R295) and returning from one (R298), and
which message a step works on. -/

namespace Sys2Proof.Machine

/-! ## Slot memory (R22, R60, R61, R65) -/

/-- The byte at an address. -/
def Memory.read : Memory → Nat → BitVec 8
  | [], _ => Memory.unlisted
  | (a, b) :: rest, k => if a = k then b else Memory.read rest k

/-- Write one byte, keeping the canonical form: writing what an unlisted address reads as removes the entry. -/
def Memory.write : Memory → Nat → BitVec 8 → Memory
  | [], k, v => if v = Memory.unlisted then [] else [(k, v)]
  | (a, b) :: rest, k, v =>
    if k < a then if v = Memory.unlisted then (a, b) :: rest else (k, v) :: (a, b) :: rest
    else if a = k then if v = Memory.unlisted then rest else (k, v) :: rest
    else (a, b) :: Memory.write rest k v

/-- Byte `k` (0..3) of a word: bits `[8k+7 : 8k]` (R65). -/
def byteOf (w : Word) (k : Nat) : BitVec 8 := BitVec.ofNat 8 (field w (8 * k + 7) (8 * k))

/-- The word whose four bytes start at an address, little-endian (R65). -/
def Memory.readWord (m : Memory) (a : Nat) : Word :=
  wordOfBytes (m.read a) (m.read (a + 1)) (m.read (a + 2)) (m.read (a + 3))

/-- Write the four bytes of a word, little-endian (R65). -/
def Memory.writeWord (m : Memory) (a : Nat) (w : Word) : Memory :=
  (((m.write a (byteOf w 0)).write (a + 1) (byteOf w 1)).write (a + 2) (byteOf w 2)).write (a + 3) (byteOf w 3)

/-- Write words at consecutive word addresses, the first word first (R73). -/
def Memory.writeWords : Memory → Nat → List Word → Memory
  | m, _, [] => m
  | m, a, w :: ws => Memory.writeWords (m.writeWord a w) (a + 4) ws

/-- The address of word 0 of `SLOT[f]` (log 6). -/
def slotBase (f : FuncId) : Nat := 128 * f.toNat

/-- `MemRead(f, i)` (R60). -/
def memRead (m : Memory) (f : FuncId) (i : Nat) : Word := m.readWord (slotBase f + 4 * i)

/-- The 32 `MemRead`s of a `receive`, in ascending order (R209, R210). -/
def readSlot (m : Memory) (f : FuncId) : Frame := frameOf fun i => memRead m f i

/-- The 32 `MemWrite`s of a `send`, in ascending order (R207, R208). -/
def writeSlot (m : Memory) (f : FuncId) (x : Frame) : Memory := m.writeWords (slotBase f) x

/-! ## Channels -/

/-- The channel of a function id, if the id is in `VFSET`. -/
def findChan : List (FuncId × Chan) → FuncId → Option Chan
  | [], _ => none
  | (g, c) :: rest, f => if g = f then some c else findChan rest f

/-- `f` is in `VFSET`. -/
def State.hasChan (s : State) (f : FuncId) : Bool := (findChan s.chans f).isSome

/-- The state of channel `f`; a step that names an `f` outside `VFSET` is stopped before it reads this. -/
def State.chan (s : State) (f : FuncId) : Chan := (findChan s.chans f).getD Chan.reset

/-- Change channel `f`. -/
def State.updChan (s : State) (f : FuncId) (u : Chan → Chan) : State :=
  { s with chans := s.chans.map fun p => if p.1 = f then (p.1, u p.2) else p }

/-- Change every channel. -/
def State.updAll (s : State) (u : FuncId → Chan → Chan) : State :=
  { s with chans := s.chans.map fun p => (p.1, u p.1 p.2) }

/-- The grant a table gives a function, if it names the function. -/
def grantOf : GrantTable → FuncId → Option Grant
  | [], _ => none
  | (g, v) :: rest, f => if g = f then some v else grantOf rest f

/-- The new value of the grant tables (R250): the row of every function the table names. -/
def State.setGrants (s : State) (g : GrantTable) : State :=
  s.updAll fun f c => { c with grant := (grantOf g f).getD c.grant }

/-! ## The two flags (R62, R63) -/

/-- The handshake flags a `FlagWrite` names. -/
inductive FlagName where
  | pend | ack
deriving DecidableEq, Repr

/-- `FlagRead(F, f)` (R62). -/
def flagRead (F : FlagName) (f : FuncId) (s : State) : Bool :=
  match F with
  | .pend => (s.chan f).pend
  | .ack => (s.chan f).ack

/-- `FlagWrite(F, f, b, fail)` (R63). -/
def flagWrite (F : FlagName) (f : FuncId) (b fail : Bool) (s : State) : State × Except Err Unit :=
  if fail then (s, .error .hardwareFault)
  else
    match F with
    | .pend => (s.updChan f fun c => { c with pend := b }, .ok ())
    | .ack => (s.updChan f fun c => { c with ack := b }, .ok ())

/-! ## The end of a step -/

/-- The step is over: the next scheduled step is due, the caller has its result, and the call of `PRIV` is recorded. -/
def State.retire (s : State) (r : Result) (p : Option PrivCall) : State :=
  { s with sched := s.sched.tail, result := r, priv := p }

/-- The result of an operation that returns no value. -/
def resultOf : Except Err Unit → Result
  | .ok _ => .ok
  | .error e => .error e

/-! ## Status codes (R292) -/

/-- `STATUS_BAD_ARGUMENT` -/
def statusBadArgument : Int := -1
/-- `STATUS_QUEUE_NOT_FOUND` -/
def statusQueueNotFound : Int := -2
/-- `STATUS_RESOURCE_EXHAUSTED` -/
def statusResourceExhausted : Int := -3
/-- `STATUS_BUSY` -/
def statusBusy : Int := -4
/-- `STATUS_UNAUTHORIZED` -/
def statusUnauthorized : Int := -5
/-- `STATUS_MALFORMED` -/
def statusMalformed : Int := -6
/-- `STATUS_FAILURE` -/
def statusFailure : Int := -7

/-! ## Taking an exception (R293, R295) and returning from one (R298) -/

/-- `status_rsp(f, o, t, st)` (R243, R245): the opcode and tag of the request echoed, `DIR` = 1, `SRC` = the PF's id, `DST` =
the function the request arrived from, the status in word 1, the rest zero. -/
def statusRsp (pf f : FuncId) (o t : Nat) (st : Int) : Frame :=
  frameOf fun k =>
    if k = 0 then headerWord o 1 ⟨t, pf.toNat, f.toNat⟩
    else if k = 1 then u32 st
    else 0

/-- `malformed_rsp(f, y)` (R244). -/
def malformedRsp (pf f : FuncId) (y : Frame) : Frame := statusRsp pf f (opcOf y) (tagOf y) statusMalformed

/-- A response is ready: `RESP[f]` holds it and `DSTATE[f] <- RESPONDING` (R238, R240). -/
def State.respondWith (s : State) (f : FuncId) (y : Frame) : State :=
  s.updChan f fun c => { c with resp := y, dstate := .responding }

/-- Taking an exception on the PF (R295 (b)): a negative-status response that echoes the opcode and tag of the request is
loaded, and the machine of `f` goes to `RESPONDING`. -/
def State.takeStatus (s : State) (f : FuncId) (o t : Nat) (st : Int) : State :=
  s.respondWith f (statusRsp s.cfg.pfFuncId f o t st)

/-- Taking a hardware fault on the PF (R257, R295 (c)): `DSTATE[f] <- FAULTED`; the buffers keep their values. -/
def State.takeFault (s : State) (f : FuncId) : State :=
  s.updChan f fun c => { c with dstate := .faulted }

/-- The return after a response is sent: `IDLE`, whether the status was zero or negative; nothing was saved, so nothing is
restored (R241, R298). -/
def State.returnIdle (s : State) (f : FuncId) : State :=
  s.updChan f fun c => { c with dstate := .idle }

/-! ## The message a step works on -/

/-- Where in the block a message is being worked on, with the inputs of that step. -/
inductive Stage where
  /-- T2 is due and enabled: `RXBUF[f]` is being decoded (R238) -/
  | decode (f : FuncId)
  /-- T3 is due and enabled: `REQ[f]` is being executed (R240) -/
  | execute (f : FuncId) (a : PrivAnswer) (g : GrantTable)
  /-- VF `f`'s caller reads `VF_RXBUF[f]` (R286) -/
  | read (f : FuncId)
  /-- the scheduled step works on no message, or is not enabled -/
  | off
  /-- the scheduled step names a function id outside `VFSET` -/
  | absent
deriving DecidableEq, Repr

/-- The stage the head of the schedule and `DSTATE[f]` put the machine in (R235). -/
def stageOf (s : State) : Stage :=
  match s.sched with
  | .decode f :: _ =>
    if s.hasChan f then if (s.chan f).dstate = .decoding then .decode f else .off else .absent
  | .execute f a g :: _ =>
    if s.hasChan f then if (s.chan f).dstate = .executing then .execute f a g else .off else .absent
  | .readResponse f :: _ => if s.hasChan f then .read f else .absent
  | _ => .off

end Sys2Proof.Machine
end

