-- ==== Sys2Proof/Machine/Flags.lean ====
section
/-! DEFINITION. What is computed from the flags: the slot is free (spec/10_state.md R25), the function is busy (R30), the
two kinds of interrupt line (spec/60_exceptions.md R300). -/

namespace Sys2Proof.Machine

/-- `slot_free(f)`: both flags are 0 (R25). -/
def slotFree (f : FuncId) (s : State) : Bool := !flagRead .pend f s && !flagRead .ack f s

/-- `BUSY[f]` (R30). -/
def busy (f : FuncId) (s : State) : Bool :=
  match (s.chan f).dstate with
  | .decoding | .executing | .responding => true
  | .idle | .faulted => false

/-- `IRQ_PF`: some channel has a pending frame and its interrupt enabled (R300). -/
def irqPf (s : State) : Bool := s.chans.any fun p => p.2.pend && p.2.intrEnPf

/-- `IRQ_VF[f]` (R300). -/
def irqVf (f : FuncId) (s : State) : Bool := (s.chan f).ack && (s.chan f).intrEnVf

end Sys2Proof.Machine
end

