-- ==== Sys2Proof/Machine/Handshake.lean ====
section
/-! DEFINITION. The Channel Handshake and the frame router (spec/44_handshake.md): `send`, `receive`, `clear_ack`, the
interrupt enables and `hw_init` (spec/70_reset_and_hazards.md R322, R323), each one atomic step (R14). -/

namespace Sys2Proof.Machine

/-- `send(VF(f), x)` (R207): the frame goes into `SLOT[f]` whatever its header says (R228). -/
def sendVf (f : FuncId) (x : Frame) (hs : Bool) (s : State) : State × Except Err Unit :=
  if x.length ≠ 32 then (s, .error (.malformedMessage .length))
  else if (s.chan f).outstanding || flagRead .pend f s || flagRead .ack f s then (s, .error .channelBusy)
  else
    match flagWrite .pend f true hs { s with mem := writeSlot s.mem f x } with
    | (s1, .error e) => (s1, .error e)
    | (s1, .ok _) => (s1.updChan f fun c => { c with outstanding := true }, .ok ())

/-- `send(PF, x)` (R208): the frame goes to the channel its `DST` names (R227). -/
def sendPf (x : Frame) (hs : Bool) (s : State) : State × Except Err Unit :=
  if x.length ≠ 32 then (s, .error (.malformedMessage .length))
  else
    let f : FuncId := BitVec.ofNat 8 (dstOf x)
    if !s.hasChan f then (s, .error (.invalidArgument .noSuchChannel))
    else if flagRead .pend f s || flagRead .ack f s then (s, .error .channelBusy)
    else
      flagWrite .ack f true hs
        ({ s with mem := writeSlot s.mem f x }.updChan f fun c => { c with ackShadow := true })

/-- `receive(PF, f)` (R209). -/
def receivePf (f : FuncId) (hs : Bool) (s : State) : State × Except Err Frame :=
  if !flagRead .pend f s then (s, .error .noMessage)
  else
    match flagWrite .pend f false hs (s.updChan f fun c => { c with ackShadow := false }) with
    | (s1, .error e) => (s1, .error e)
    | (s1, .ok _) =>
      match flagWrite .ack f false hs s1 with
      | (s2, .error e) => (s2, .error e)
      | (s2, .ok _) => (s2, .ok (readSlot s.mem f))

/-- `receive(VF(f))` (R210). -/
def receiveVf (f : FuncId) (hs : Bool) (s : State) : State × Except Err Frame :=
  if !flagRead .ack f s then (s, .error .noMessage)
  else
    match flagWrite .ack f false hs s with
    | (s1, .error e) => (s1, .error e)
    | (s1, .ok _) =>
      (s1.updChan f fun c => { c with outstanding := false, vfRxbuf := readSlot s.mem f }, .ok (readSlot s.mem f))

/-- The two flag writes that end a `clear_ack` (R212). -/
def clearFlags (f : FuncId) (hs : Bool) (s : State) : State × Except Err Unit :=
  match flagWrite .pend f false hs s with
  | (s1, .error e) => (s1, .error e)
  | (s1, .ok _) => flagWrite .ack f false hs s1

/-- `clear_ack(PF, f)` (R212). -/
def clearAckPf (f : FuncId) (hs : Bool) (s : State) : State × Except Err Unit :=
  clearFlags f hs (s.updChan f fun c => { c with outstanding := false, ackShadow := false })

/-- `clear_ack(VF(f), f)` (R212): the shadow is PF-private and stays. -/
def clearAckVf (f : FuncId) (hs : Bool) (s : State) : State × Except Err Unit :=
  clearFlags f hs (s.updChan f fun c => { c with outstanding := false })

/-- `enable_interrupts` (b = 1) and `disable_interrupts` (b = 0) in the PF role: every channel (R213, R214). -/
def setIntrPf (b : Bool) (s : State) : State := s.updAll fun _ c => { c with intrEnPf := b }

/-- `enable_interrupts` and `disable_interrupts` in role `VF(f)` (R213, R214). -/
def setIntrVf (f : FuncId) (b : Bool) (s : State) : State := s.updChan f fun c => { c with intrEnVf := b }

/-- A private buffer that became unspecified (R322, R323): 32 free words. -/
def freeFrame (n : Nat) (f : FuncId) (b : Buf) : Frame := frameOf fun i => Config.freeWord n f b i

/-- `hw_init(false)` (R322), transition T6 of every function (R235). -/
def hwInitPf (s : State) : State :=
  { s.updAll (fun f c =>
      { c with
        pend := false, ack := false, ackShadow := false, intrEnPf := false, dstate := .idle, outstanding := false
        rxbuf := freeFrame s.inits f .rxbuf
        req := Config.freeMessage s.inits f
        resp := freeFrame s.inits f .resp }) with
    pfBase := Config.mboxBase .pf
    inits := s.inits + 1 }

/-- `hw_init(true)` by VF `f` (R323). -/
def hwInitVf (f : FuncId) (s : State) : State :=
  { s.updChan f (fun c =>
      { c with
        pend := false, ack := false, outstanding := false, intrEnVf := false, tagNext := 0
        vstate := .idle, vfPolls := 0, vfRetry := 0, vfHf := false, vfFaulted := false
        sent := freeFrame s.inits f .sent
        vfRxbuf := freeFrame s.inits f .vfRxbuf
        vfReq := Config.freeRequest s.inits f
        vfBase := Config.mboxBase (.vf f) }) with
    inits := s.inits + 1 }

/-- Power-on reset (R320, R321): every piece of state of every channel takes its reset value. The parameters and the set of
channels are fixed before reset (R321); the steps still to come and the count of free values are the model's own. -/
def powerOn (s : State) : State :=
  { s.updAll (fun _ _ => Chan.reset) with mem := [], pfBase := baseReset }

end Sys2Proof.Machine
end

