-- ==== Sys2Proof/Machine/Dispatcher.lean ====
section
/-! DEFINITION. The transitions of the PF Dispatch State Machine that move frames (spec/45_pf_dispatch.md): T1 accept, T2's
decode failure, T4 respond, T5 busy reject. T2 on a request that parses and T3 are the meaning of the message itself
(Machine/Messages.lean). A transition that is not enabled changes nothing (log 2). -/

namespace Sys2Proof.Machine

/-- T1, accept (R237). -/
def accept (f : FuncId) (hs : Bool) (s : State) : State × Result :=
  if (s.chan f).dstate = .idle ∧ flagRead .pend f s then
    match receivePf f hs s with
    | (s1, .error .hardwareFault) => (s1.takeFault f, .error .hardwareFault)
    | (s1, .error e) => (s1, .error e)
    | (s1, .ok y) => (s1.updChan f fun c => { c with rxbuf := y, dstate := .decoding }, .ok)
  else (s, .notEnabled)

/-- T2 when `parse` rejects `RXBUF[f]` (R238): the generic malformed-request response. -/
def decodeFailure (f : FuncId) (s : State) : State × Result :=
  (s.respondWith f (malformedRsp s.cfg.pfFuncId f (s.chan f).rxbuf), .ok)

/-- T4, respond (R241): on `ChannelBusy` the machine holds in `RESPONDING` (R259). -/
def respond (f : FuncId) (hs : Bool) (s : State) : State × Result :=
  if (s.chan f).dstate = .responding then
    match sendPf (s.chan f).resp hs s with
    | (s1, .ok _) => (s1.returnIdle f, .ok)
    | (s1, .error .hardwareFault) => (s1.takeFault f, .error .hardwareFault)
    | (s1, .error e) => (s1, .error e)
  else (s, .notEnabled)

/-- T5, busy reject (R242): the second request is taken and answered with `STATUS_BUSY`, undecoded; the first keeps its
place. -/
def busyReject (f : FuncId) (hsReceive hsSend : Bool) (s : State) : State × Result :=
  if busy f s ∧ flagRead .pend f s then
    match receivePf f hsReceive s with
    | (s1, .error .hardwareFault) => (s1.takeFault f, .error .hardwareFault)
    | (s1, .error e) => (s1, .error e)
    | (s1, .ok y) =>
      match sendPf (statusRsp s.cfg.pfFuncId f (opcOf y) (tagOf y) statusBusy) hsSend s1 with
      | (s2, .ok _) => (s2, .ok)
      | (s2, .error .hardwareFault) => (s2.takeFault f, .error .hardwareFault)
      | (s2, .error e) => (s2, .error e)
  else (s, .notEnabled)

end Sys2Proof.Machine
end

