-- ==== Sys2Proof/Machine/Correlator.lean ====
section
/-! DEFINITION. The Response Correlator (spec/43_correlator.md): `is_response`, `status`, `kind_of`, the five getters, and
what VF `f`'s caller makes of a response (spec/46_vf_requester.md R286). All are pure functions of raw messages (R15). -/

namespace Sys2Proof.Machine

/-- `kind_of(st)` for a negative status (R189, R292). -/
def kindOf (st : Int) : FailKind :=
  if st = statusBadArgument then .badArgument
  else if st = statusQueueNotFound then .queueNotFound
  else if st = statusResourceExhausted then .resourceExhausted
  else if st = statusBusy then .busy
  else if st = statusUnauthorized then .unauthorized
  else if st = statusMalformed then .malformed
  else if st = statusFailure then .failure
  else .other st

/-- The predicate of R186 on two 32-word buffers: it reads word 0 of each and nothing else. -/
def correlates (sent received : Frame) : Bool :=
  decide (dirOf sent = 0) && decide (dirOf received = 1) && decide (opcOf received = opcOf sent) &&
    decide (tagOf received = tagOf sent) && decide (srcOf received = dstOf sent) && decide (dstOf received = srcOf sent)

/-- `is_response(sent, received)` (R186), with the length test of R104. -/
def isResponse (sent received : Frame) : Except Err Bool :=
  if sent.length ≠ 32 ∨ received.length ≠ 32 then .error (.malformedMessage .length)
  else .ok (correlates sent received)

/-- `status(received)` (R188), with the length test of R104. -/
def status (x : Frame) : Except Err RspStatus :=
  if x.length ≠ 32 then .error (.malformedMessage .length)
  else if dirOf x = 0 then .error (.malformedMessage .notAResponse)
  else
    let st := s32 (word x 1)
    if st > 0 then .error (.malformedMessage .positiveStatus)
    else if st = 0 then .ok .success
    else .ok (.failed (kindOf st))

/-- The opcode a getter expects (R191 to R195). -/
def Getter.op : Getter → Op
  | .devInfo => .vfOnline
  | .qinfo => .qreq
  | .csr => .csr
  | .qctxt => .qctxtRd
  | .intrCtxt => .intrCtxtRd

/-- The fields of a success response that carries a body (R88, R191 to R195). -/
def snapshotOf : Instr → Option Snapshot
  | .vfOnlineRsp _ (.ok b) => some (.devInfo b)
  | .qreqRsp _ (.ok b) => some (.qinfo b)
  | .csrRsp _ (.ok b) => some (.csr b)
  | .qctxtRdRsp _ (.ok b) => some (.qctxt b)
  | .intrCtxtRdRsp _ (.ok b) => some (.intrCtxt b)
  | _ => none

/-- A getter under the opcode map `ops` (R190): the tests in their order; the body is read only when the status is 0. -/
def get (ops : Config.OpMap) (g : Getter) (x : Frame) : Result :=
  if x.length ≠ 32 then .error (.malformedMessage .length)
  else if dirOf x = 0 then .error (.malformedMessage .notAResponse)
  else if opcOf x ≠ g.op.code ops then .error (.malformedMessage .unexpectedOpcode)
  else
    match status x with
    | .error e => .error e
    | .ok (.failed k) => .status (.failed k)
    | .ok .success =>
      match parseAs ops g.op .rsp x with
      | .error e => .error e
      | .ok m =>
        match snapshotOf m with
        | some v => .fields v
        | none => .error (.malformedMessage .unexpectedOpcode)

/-- What the caller of a transaction learns from a typed response (R286): the getter's fields or `Success`, or the failure
kind of a negative status. -/
def viewResponse {β : Type} (onOk : β → Result) : Rsp β → Result
  | .ok b => onOk b
  | .fail st => .status (.failed (kindOf st))

/-- What the caller learns from a frame that does not parse (R286, R188): `status` first, which also reads the generic
malformed-request response; a frame whose status is 0 has no getter that could read it. -/
def viewUnparsed (x : Frame) (e : Err) : Result :=
  match status x with
  | .error e' => .error e'
  | .ok (.failed k) => .status (.failed k)
  | .ok .success => .error e

end Sys2Proof.Machine
end

