-- ==== Sys2Proof/Machine/Operands.lean ====
section
/-! DEFINITION. The operands of a request as the PF validates them: the header claim (spec/45_pf_dispatch.md R246), the
grant tests (R247), and the condition of each operand form (R248, R249). -/

namespace Sys2Proof.Machine

/-- The header claim: `m.src = f` and `m.dst = PF_FUNC_ID` (R246). -/
def claimHolds (pf f : FuncId) (h : Header) : Bool :=
  decide (h.src = (f.toNat : Int)) && decide (h.dst = (pf.toNat : Int))

/-- `in_grant(f, q)`, in unbounded integers (R247). -/
def inGrant (g : Grant) (q : Int) : Bool :=
  decide ((g.qbase : Int) ≤ q) && decide (q < (g.qbase : Int) + g.qmax)

/-- `range_in_grant(f, b, n)` (R247). -/
def rangeInGrant (g : Grant) (b n : Int) : Bool :=
  decide (n = 0) || (decide ((g.qbase : Int) ≤ b) && decide (b + n ≤ (g.qbase : Int) + g.qmax))

/-- `v` is in `GRANT_VEC[f]` (R41). -/
def vecGranted (g : Grant) (v : Int) : Bool := g.vec.any fun x => decide ((x.toNat : Int) = v)

/-- The condition of a queue selector: its queue is granted (R249). -/
def queueAllowed (g : Grant) (qid : Int) : Bool := inGrant g qid

/-- The condition of `FMAP`: its own id and a granted range (R249). -/
def fmapAllowed (f : FuncId) (g : Grant) (b : Fmap) : Bool :=
  decide (b.funcId = (f.toNat : Int)) && rangeInGrant g b.qbase b.qmax

/-- An interrupt enable of an included group is set, so `INTR_ID` is used (R248 (c)). -/
def usesVector (b : QCtxt) : Bool :=
  (DescGroup.queue.includedBy b.sel.cmptCtxtType && decide (b.desc.irqEn = 1)) ||
    (DescGroup.completion.includedBy b.sel.cmptCtxtType && decide (b.desc.cmptIntEn = 1))

/-- The condition of `QCTXT_WRT` (R248). -/
def qctxtWrtAllowed (f : FuncId) (g : Grant) (b : QCtxt) : Bool :=
  inGrant g b.sel.qid && decide (b.desc.funcId = (f.toNat : Int)) && (!usesVector b || vecGranted g b.desc.intrId)

/-- The condition of the interrupt-context opcodes: every ring index is a granted vector (R249). -/
def ringsAllowed (g : Grant) (idx : List Int) : Bool := idx.all (vecGranted g)

end Sys2Proof.Machine
end

