-- ==== Sys2Proof/Machine/Messages.lean ====
section
/-! DEFINITION. What the meanings of the 30 message kinds share: a request is latched by T2 and executed by T3
(spec/45_pf_dispatch.md R238, R240), a response is read by the VF's caller (spec/46_vf_requester.md R286), and a message that
reaches the wrong side is rejected there (R238, R188). -/

namespace Sys2Proof.Machine

/-- The statuses `PRIV` may answer in contract, zero apart (R251, R252). -/
def privStatuses : List Int := [statusBadArgument, statusQueueNotFound, statusResourceExhausted, statusBusy]

/-- `normalise(m, a)` with the response composed (R252): the success response, or the negative status that takes its place.
`reply` builds the success response from the data; data of another shape is out of contract (log 10). -/
def normalise (ops : Config.OpMap) (reply : PrivData → Option Instr) : PrivAnswer → Except Int Frame
  | .throw => .error statusFailure
  | .answer st data =>
    if st = 0 then
      match reply data with
      | none => .error statusFailure
      | some r =>
        match compose ops r with
        | .ok y => .ok y
        | .error _ => .error statusFailure
    else if privStatuses.contains st then .error st
    else .error statusFailure

/-- The header of the response to a request of function `f` (R243). -/
def replyHeader (pf f : FuncId) (h : Header) : Header := ⟨h.tag, pf.toNat, f.toNat⟩

/-- T3 on the request `m` of function `f` (R240): validation, the call of `PRIV` and the response in one step.
`allowed` is the condition of R249 beyond the header claim. -/
def executeRequest (f : FuncId) (a : PrivAnswer) (g : GrantTable) (m : Instr) (allowed : FuncId → Grant → Bool)
    (reply : Header → PrivData → Option Instr) (s : State) : State :=
  if claimHolds s.cfg.pfFuncId f m.header && allowed f (s.chan f).grant then
    match normalise s.cfg.ops (reply (replyHeader s.cfg.pfFuncId f m.header)) a with
    | .ok y => ((s.setGrants g).respondWith f y).retire .ok (some ⟨f, m⟩)
    | .error st => ((s.setGrants g).takeStatus f (m.op.code s.cfg.ops) m.header.tag.toNat st).retire .ok (some ⟨f, m⟩)
  else (s.takeStatus f (m.op.code s.cfg.ops) m.header.tag.toNat statusUnauthorized).retire .ok none

/-- A request at each stage. T2: it is latched in `REQ[f]` and the machine goes to `EXECUTING` (R238). T3:
`executeRequest` (R240). Read by a VF's caller: it is no response (R188). -/
def runRequest (m : Instr) (allowed : FuncId → Grant → Bool) (reply : Header → PrivData → Option Instr) (s : State) : Out :=
  match stageOf s with
  | .decode f => .next ((s.updChan f fun c => { c with req := m, dstate := .executing }).retire .ok none)
  | .execute f a g => .next (executeRequest f a g m allowed reply s)
  | .read _ => .next (s.retire (.error (.malformedMessage .notAResponse)) none)
  | .off => .next (s.retire .notEnabled none)
  | .absent => .fault .noSuchChannel

/-- A response at each stage. Read by a VF's caller: `view` is what the caller learns (R286). At the PF, `DIR` = 1 is a
decode failure: the generic malformed-request response (R238, R244). -/
def runResponse (m : Instr) (view : Result) (s : State) : Out :=
  match stageOf s with
  | .decode f => .next ((s.takeStatus f (m.op.code s.cfg.ops) m.header.tag.toNat statusMalformed).retire .ok none)
  | .execute f _ _ => .next ((s.takeStatus f (m.op.code s.cfg.ops) m.header.tag.toNat statusMalformed).retire .ok none)
  | .read _ => .next (s.retire view none)
  | .off => .next (s.retire .notEnabled none)
  | .absent => .fault .noSuchChannel

/-- The conclusion a caller draws from a status-only success (R286). -/
def statusOnly (_ : NoBody) : Result := .status .success

end Sys2Proof.Machine
end

