-- ==== Sys2Proof/Machine/HandleRequest.lean ====
section
/-! DEFINITION. `handle_request` (spec/45_pf_dispatch.md R255): T2 and T3 as one function of the true source, the raw frame,
the function's grant and the answer of `PRIV`, written from the tables of R249 and R254. The dispatch machine itself goes
through the meanings of the messages; that the two agree is a statement for the provers. -/

namespace Sys2Proof.Machine

/-- The condition of R249 beyond the header claim, by opcode; a response is never authorised. -/
def rowAllowed (f : FuncId) (g : Grant) : Instr → Bool
  | .vfOnlineReq _ | .vfOfflineReq _ | .csrReq _ | .qreqReq _ _ => true
  | .qnotifyAddReq _ b | .qnotifyDelReq _ b => inGrant g b.qid
  | .fmapReq _ b => decide (b.funcId = (f.toNat : Int)) && rangeInGrant g b.qbase b.qmax
  | .qctxtWrtReq _ b => qctxtWrtAllowed f g b
  | .qctxtRdReq _ b | .qctxtInvReq _ b | .qctxtClrReq _ b => inGrant g b.qid
  | .intrCtxtWrtReq _ b => b.ringIndex.all (vecGranted g)
  | .intrCtxtRdReq _ b | .intrCtxtInvReq _ b | .intrCtxtClrReq _ b => b.ringIndex.all (vecGranted g)
  | .vfOnlineRsp _ _ | .vfOfflineRsp _ _ | .qreqRsp _ _ | .qnotifyAddRsp _ _ | .qnotifyDelRsp _ _ | .fmapRsp _ _
  | .qctxtWrtRsp _ _ | .qctxtRdRsp _ _ | .qctxtInvRsp _ _ | .qctxtClrRsp _ _ | .csrRsp _ _
  | .intrCtxtWrtRsp _ _ | .intrCtxtRdRsp _ _ | .intrCtxtInvRsp _ _ | .intrCtxtClrRsp _ _ => false

/-- `authorised(f, m)`: the header claim and the row of R249 (R246). -/
def authorised (pf f : FuncId) (g : Grant) (m : Instr) : Bool := claimHolds pf f m.header && rowAllowed f g m

/-- The success response to a request, from the data of `PRIV`'s answer (R251, R254). -/
def successReply (h : Header) : Instr → PrivData → Option Instr
  | .vfOnlineReq _, .devInfo b => some (.vfOnlineRsp h (.ok b))
  | .vfOfflineReq _, _ => some (.vfOfflineRsp h (.ok .none))
  | .qreqReq _ _, .qrange b => some (.qreqRsp h (.ok b))
  | .qnotifyAddReq _ _, _ => some (.qnotifyAddRsp h (.ok .none))
  | .qnotifyDelReq _ _, _ => some (.qnotifyDelRsp h (.ok .none))
  | .fmapReq _ _, _ => some (.fmapRsp h (.ok .none))
  | .qctxtWrtReq _ _, _ => some (.qctxtWrtRsp h (.ok .none))
  | .qctxtRdReq _ b, .desc d => some (.qctxtRdRsp h (.ok ⟨b, d⟩))
  | .qctxtInvReq _ _, _ => some (.qctxtInvRsp h (.ok .none))
  | .qctxtClrReq _ _, _ => some (.qctxtClrRsp h (.ok .none))
  | .csrReq _, .csr b => some (.csrRsp h (.ok b))
  | .intrCtxtWrtReq _ _, _ => some (.intrCtxtWrtRsp h (.ok .none))
  | .intrCtxtRdReq _ b, .ctxt c => some (.intrCtxtRdRsp h (.ok ⟨b.numRings, b.ringIndex, c⟩))
  | .intrCtxtInvReq _ _, _ => some (.intrCtxtInvRsp h (.ok .none))
  | .intrCtxtClrReq _ _, _ => some (.intrCtxtClrRsp h (.ok .none))
  | _, _ => none

/-- `handle_request(f, y)` with the block's parameters, the grant of `f` and the answer of `PRIV` (R255): the one response, and the call of `PRIV` if
the request got that far. -/
def handleRequest (cfg : Config.Params) (f : FuncId) (g : Grant) (y : Frame) (a : PrivAnswer) : Frame × Option PrivCall :=
  match parse cfg.ops y with
  | .error _ => (malformedRsp cfg.pfFuncId f y, none)
  | .ok m =>
    if m.dir = .rsp then (malformedRsp cfg.pfFuncId f y, none)
    else if authorised cfg.pfFuncId f g m then
      match normalise cfg.ops (successReply (replyHeader cfg.pfFuncId f m.header) m) a with
      | .ok r => (r, some ⟨f, m⟩)
      | .error st => (statusRsp cfg.pfFuncId f (m.op.code cfg.ops) m.header.tag.toNat st, some ⟨f, m⟩)
    else (statusRsp cfg.pfFuncId f (m.op.code cfg.ops) m.header.tag.toNat statusUnauthorized, none)

end Sys2Proof.Machine
end

