-- ==== Sys2Proof/Machine/Requester.lean ====
section
/-! DEFINITION. The VF requester (spec/46_vf_requester.md): V1 start, V2 and V3 poll, V5 retry, V6 give up, with V4 the first
half of V5 and V6. A transition that is not enabled changes nothing (log 2). -/

namespace Sys2Proof.Machine

/-- The header of every request the requester composes: `tag = TAG_NEXT[f]`, `src = f`, `dst = PF_FUNC_ID` (R277). -/
def requestHeader (s : State) (f : FuncId) : Header :=
  ⟨(s.chan f).tagNext.toNat, f.toNat, s.cfg.pfFuncId.toNat⟩

/-- `TAG_NEXT[f] <- (TAG_NEXT[f] + 1) mod 256` (R110, R277). -/
def bumpTag (f : FuncId) (s : State) : State := s.updChan f fun c => { c with tagNext := c.tagNext + 1 }

/-- V1's drain of a stale frame of an abandoned attempt (R278). -/
def drainStale (f : FuncId) (hs : Bool) (s : State) : State × Except Err Unit :=
  if flagRead .ack f s ∧ (s.chan f).outstanding = false then
    match receiveVf f hs s with
    | (s1, .error e) => (s1, .error e)
    | (s1, .ok _) => (s1, .ok ())
  else (s, .ok ())

/-- V1, start (R278). -/
def start (f : FuncId) (req : Request) (hsReceive hsSend : Bool) (s : State) : State × Result :=
  if (s.chan f).vstate = .wait then (s, .notEnabled)
  else if (s.chan f).vfFaulted then (s, .error .hardwareFault)
  else
    match compose s.cfg.ops (req.withHeader (requestHeader s f)) with
    | .error e => (s, .error e)
    | .ok x =>
      match drainStale f hsReceive s with
      | (s1, .error e) => (s1, .error e)
      | (s1, .ok _) =>
        match sendVf f x hsSend (bumpTag f s1) with
        | (s2, .ok _) =>
          (s2.updChan f fun c =>
            { c with sent := x, vfReq := req, vfRetry := 0, vfPolls := 0, vfHf := false, vstate := .wait }, .pending)
        | (s2, .error .hardwareFault) =>
          (s2.updChan f fun c =>
            { c with sent := x, vfReq := req, vfRetry := 0, vfPolls := s.cfg.pollMax, vfHf := true, vstate := .wait },
            .pending)
        | (s2, .error e) => (s2, .error e)

/-- V2 and V3, poll (R279, R280): one `receive`, and the correlation of the frame it returns. -/
def poll (f : FuncId) (hs : Bool) (s : State) : State × Result :=
  if (s.chan f).vstate = .wait ∧ (s.chan f).vfPolls < s.cfg.pollMax then
    match receiveVf f hs s with
    | (s1, .error .noMessage) => (s1.updChan f fun c => { c with vfPolls := c.vfPolls + 1 }, .pending)
    | (s1, .error .hardwareFault) =>
      (s1.updChan f fun c => { c with vfHf := true, vfPolls := s.cfg.pollMax }, .pending)
    | (s1, .error e) => (s1, .error e)
    | (s1, .ok y) =>
      if correlates (s.chan f).sent y then (s1.updChan f fun c => { c with vstate := .idle }, .frame none y)
      else (s1.updChan f fun c => { c with vfPolls := c.vfPolls + 1 }, .pending)
  else (s, .notEnabled)

/-- V4, expire: the first half of V5 and V6 (R281). -/
def expire (f : FuncId) (hs : Bool) (s : State) : State :=
  match clearAckVf f hs s with
  | (s1, .ok _) => s1
  | (s1, .error _) => s1.updChan f fun c => { c with vfHf := true }

/-- The wait is over: `V_WAIT` and `VF_POLLS[f] >= VF_POLL_MAX` (R281). -/
def waitOver (f : FuncId) (s : State) : Bool :=
  decide ((s.chan f).vstate = .wait) && decide (s.cfg.pollMax ≤ (s.chan f).vfPolls)

/-- V5, retry (R282): the same opcode and body with a fresh tag. -/
def retry (f : FuncId) (hsClear hsSend : Bool) (s : State) : State × Result :=
  if waitOver f s ∧ (s.chan f).vfRetry < s.cfg.retryMax then
    let s1 := (expire f hsClear s).updChan f fun c => { c with vfRetry := c.vfRetry + 1 }
    match compose s.cfg.ops ((s1.chan f).vfReq.withHeader (requestHeader s1 f)) with
    | .error e => (s1, .error e)
    | .ok x =>
      match sendVf f x hsSend ((bumpTag f s1).updChan f fun c => { c with sent := x }) with
      | (s2, .ok _) => (s2.updChan f fun c => { c with vfPolls := 0, vfHf := false }, .pending)
      | (s2, .error _) => (s2.updChan f fun c => { c with vfPolls := s.cfg.pollMax, vfHf := true }, .pending)
  else (s, .notEnabled)

/-- V6, give up (R283, R284). -/
def giveUp (f : FuncId) (hsClear : Bool) (s : State) : State × Result :=
  if waitOver f s ∧ (s.chan f).vfRetry = s.cfg.retryMax then
    let s1 := (expire f hsClear s).updChan f fun c => { c with vstate := .idle }
    if (s1.chan f).vfHf then (s1.updChan f fun c => { c with vfFaulted := true }, .error .hardwareFault)
    else (s1, .error .timeout)
  else (s, .notEnabled)

end Sys2Proof.Machine
end

