-- ==== Sys2Proof/Machine/Agents.lean ====
section
/-! DEFINITION. The steps of the agents (spec/00_scope.md R6) that are not the meaning of a decoded message, and which
message, if any, the scheduled step fetches. -/

namespace Sys2Proof.Machine

/-- The end of a step that made no call of `PRIV`. -/
def finish : State × Result → Out
  | (s, r) => .next (s.retire r none)

/-- The end of a step of channel `f`; a channel outside `VFSET` does not exist (R60). -/
def onChannel (f : FuncId) (s : State) (step : State × Result) : Out :=
  if s.hasChan f then finish step else .fault .noSuchChannel

/-- The result of a `receive` (R209, R210). -/
def frameResult (source : Option FuncId) : Except Err Frame → Result
  | .ok y => .frame source y
  | .error e => .error e

/-- `handle_request` called by the PF host (R255, R305): the answer is returned, and `PRIV`, if it was called, has changed
the grant tables. -/
def hostHandleRequest (f : FuncId) (y : Frame) (a : PrivAnswer) (g : GrantTable) (s : State) : Out :=
  if !s.hasChan f then .fault .noSuchChannel
  else if y.length ≠ 32 then .next (s.retire (.error (.malformedMessage .length)) none)
  else
    match handleRequest s.cfg f (s.chan f).grant y a with
    | (r, none) => .next (s.retire (.frame none r) none)
    | (r, some c) => .next ((s.setGrants g).retire (.frame none r) (some c))

/-- `enable_interrupts` and `disable_interrupts` (R213, R214). -/
def setInterrupts (r : Role) (b : Bool) (s : State) : Out :=
  match r with
  | .pf => finish (setIntrPf b s, .ok)
  | .vf f => onChannel f s (setIntrVf f b s, .ok)

/-- `hw_init` (R215). -/
def hwInit (r : Role) (s : State) : Out :=
  match r with
  | .pf => finish (hwInitPf s, .ok)
  | .vf f => onChannel f s (hwInitVf f s, .ok)

/-- The step an agent takes. The three steps that work on a message (`decode`, `execute`, `readResponse`) come here only when
no message was fetched: they are then not enabled, or name no channel. -/
def agentStep (a : Action) (s : State) : Out :=
  match a with
  | .sendVf f x hs => onChannel f s ((sendVf f x hs s).1, resultOf (sendVf f x hs s).2)
  | .sendPf x hs => finish ((sendPf x hs s).1, resultOf (sendPf x hs s).2)
  | .receivePf f hs => onChannel f s ((receivePf f hs s).1, frameResult (some f) (receivePf f hs s).2)
  | .receiveVf f hs => onChannel f s ((receiveVf f hs s).1, frameResult none (receiveVf f hs s).2)
  | .clearAckPf f hs => onChannel f s ((clearAckPf f hs s).1, resultOf (clearAckPf f hs s).2)
  | .clearAckVf f hs => onChannel f s ((clearAckVf f hs s).1, resultOf (clearAckVf f hs s).2)
  | .enableInterrupts r => setInterrupts r true s
  | .disableInterrupts r => setInterrupts r false s
  | .hwInit r => hwInit r s
  | .accept f hs => onChannel f s (accept f hs s)
  | .decode f => onChannel f s (s, .notEnabled)
  | .execute f _ _ => onChannel f s (s, .notEnabled)
  | .respond f hs => onChannel f s (respond f hs s)
  | .busyReject f hsR hsS => onChannel f s (busyReject f hsR hsS s)
  | .start f req hsR hsS => onChannel f s (start f req hsR hsS s)
  | .poll f hs => onChannel f s (poll f hs s)
  | .retry f hsC hsS => onChannel f s (retry f hsC hsS s)
  | .giveUp f hsC => onChannel f s (giveUp f hsC s)
  | .readResponse f => onChannel f s (s, .notEnabled)
  | .setGrants g => finish (s.setGrants g, .ok)
  | .compose m =>
    match compose s.cfg.ops m with
    | .ok x => finish (s, .frame none x)
    | .error e => finish (s, .error e)
  | .parse x =>
    match parse s.cfg.ops x with
    | .ok m => finish (s, .message m)
    | .error e => finish (s, .error e)
  | .parseAs op d x =>
    match parseAs s.cfg.ops op d x with
    | .ok m => finish (s, .message m)
    | .error e => finish (s, .error e)
  | .isResponse x y =>
    match isResponse x y with
    | .ok b => finish (s, .correlated b)
    | .error e => finish (s, .error e)
  | .status x =>
    match status x with
    | .ok st => finish (s, .status st)
    | .error e => finish (s, .error e)
  | .get g x => finish (s, get s.cfg.ops g x)
  | .handleRequest f y p g => hostHandleRequest f y p g s
  | .powerOn => finish (powerOn s, .ok)

/-- What the scheduled step fetches. -/
inductive Fetched where
  /-- a message that parses: its meaning runs -/
  | message (i : Instr)
  /-- T2 on a frame that does not parse -/
  | malformed (f : FuncId)
  /-- a caller reads a frame that does not parse -/
  | unparsed (f : FuncId) (e : Err)
  /-- no message -/
  | nothing
deriving DecidableEq, Repr

/-- Fetch the message the scheduled step works on: T2 parses `RXBUF[f]` (R238), T3 takes `REQ[f]` (R240), the VF's caller
parses `VF_RXBUF[f]` (R286). -/
def fetch (s : State) : Fetched :=
  match stageOf s with
  | .decode f =>
    match parse s.cfg.ops (s.chan f).rxbuf with
    | .ok i => .message i
    | .error _ => .malformed f
  | .execute f _ _ => .message (s.chan f).req
  | .read f =>
    match parse s.cfg.ops (s.chan f).vfRxbuf with
    | .ok i => .message i
    | .error e => .unparsed f e
  | .off => .nothing
  | .absent => .nothing

/-- The channel `withFetchWord` uses: the first of `VFSET`. -/
def firstChan (s : State) : FuncId :=
  match s.chans with
  | [] => 0
  | (f, _) :: _ => f

/-- A state whose next step works on the frame `x` of channel `f`: a request stands decoded in `REQ[f]` with T3 due, a response
stands in `VF_RXBUF[f]` with its reader due, and a frame `parse` rejects stands in `RXBUF[f]` with T2 due. `PRIV` would
answer success with no data and leave the grants alone. -/
def withFrame (f : FuncId) (x : Frame) (s : State) : State :=
  match parse s.cfg.ops x with
  | .ok i =>
    match i.dir with
    | .req =>
      { s.updChan f (fun c => { c with rxbuf := x, req := i, dstate := .executing }) with
        sched := [.execute f (.answer 0 .none) []] }
    | .rsp => { s.updChan f (fun c => { c with vfRxbuf := x }) with sched := [.readResponse f] }
  | .error _ =>
    { s.updChan f (fun c => { c with rxbuf := x, dstate := .decoding }) with sched := [.decode f] }

end Sys2Proof.Machine
end

