-- ==== Sys2Proof/Machine/Control.lean ====
section
/-! DEFINITION. The meanings of the control opcodes (spec/40_codec_control.md): `VF_ONLINE`, `VF_OFFLINE`, `QREQ`,
`QNOTIFY_ADD`, `QNOTIFY_DEL`, `FMAP`, `CSR`. Each request names its condition (spec/45_pf_dispatch.md R249) and its success
response (R254); each response names what its reader learns (spec/43_correlator.md R188 to R195). -/

namespace Sys2Proof.Machine

/-- `VF_ONLINE.REQ` (R121, R249, R254). -/
def execVfOnlineReq (h : Header) (s : State) : Out :=
  runRequest (.vfOnlineReq h) (fun _ _ => true)
    (fun h' d => match d with | .devInfo b => some (.vfOnlineRsp h' (.ok b)) | _ => none) s

/-- `VF_ONLINE.RSP` (R122, R191). -/
def execVfOnlineRsp (h : Header) (r : Rsp DevInfo) (s : State) : Out :=
  runResponse (.vfOnlineRsp h r) (viewResponse (fun b => .fields (.devInfo b)) r) s

/-- `VF_OFFLINE.REQ` (R123, R249, R254, R260). -/
def execVfOfflineReq (h : Header) (s : State) : Out :=
  runRequest (.vfOfflineReq h) (fun _ _ => true) (fun h' _ => some (.vfOfflineRsp h' (.ok .none))) s

/-- `VF_OFFLINE.RSP` (R124). -/
def execVfOfflineRsp (h : Header) (r : Rsp NoBody) (s : State) : Out :=
  runResponse (.vfOfflineRsp h r) (viewResponse statusOnly r) s

/-- `QREQ.REQ` (R125, R249, R254): it asks for a grant, so there is nothing to check against one. -/
def execQreqReq (h : Header) (b : QRange) (s : State) : Out :=
  runRequest (.qreqReq h b) (fun _ _ => true)
    (fun h' d => match d with | .qrange r => some (.qreqRsp h' (.ok r)) | _ => none) s

/-- `QREQ.RSP` (R126, R192). -/
def execQreqRsp (h : Header) (r : Rsp QRange) (s : State) : Out :=
  runResponse (.qreqRsp h r) (viewResponse (fun b => .fields (.qinfo b)) r) s

/-- `QNOTIFY_ADD.REQ` (R127, R249, R254). -/
def execQnotifyAddReq (h : Header) (b : QSel) (s : State) : Out :=
  runRequest (.qnotifyAddReq h b) (fun _ g => queueAllowed g b.qid) (fun h' _ => some (.qnotifyAddRsp h' (.ok .none))) s

/-- `QNOTIFY_ADD.RSP` (R128). -/
def execQnotifyAddRsp (h : Header) (r : Rsp NoBody) (s : State) : Out :=
  runResponse (.qnotifyAddRsp h r) (viewResponse statusOnly r) s

/-- `QNOTIFY_DEL.REQ` (R129, R249, R254). -/
def execQnotifyDelReq (h : Header) (b : QSel) (s : State) : Out :=
  runRequest (.qnotifyDelReq h b) (fun _ g => queueAllowed g b.qid) (fun h' _ => some (.qnotifyDelRsp h' (.ok .none))) s

/-- `QNOTIFY_DEL.RSP` (R130). -/
def execQnotifyDelRsp (h : Header) (r : Rsp NoBody) (s : State) : Out :=
  runResponse (.qnotifyDelRsp h r) (viewResponse statusOnly r) s

/-- `FMAP.REQ` (R131, R249, R254). -/
def execFmapReq (h : Header) (b : Fmap) (s : State) : Out :=
  runRequest (.fmapReq h b) (fun f g => fmapAllowed f g b) (fun h' _ => some (.fmapRsp h' (.ok .none))) s

/-- `FMAP.RSP` (R132). -/
def execFmapRsp (h : Header) (r : Rsp NoBody) (s : State) : Out :=
  runResponse (.fmapRsp h r) (viewResponse statusOnly r) s

/-- `CSR.REQ` (R133, R249, R254). -/
def execCsrReq (h : Header) (s : State) : Out :=
  runRequest (.csrReq h) (fun _ _ => true)
    (fun h' d => match d with | .csr b => some (.csrRsp h' (.ok b)) | _ => none) s

/-- `CSR.RSP` (R134, R193). -/
def execCsrRsp (h : Header) (r : Rsp CsrInfo) (s : State) : Out :=
  runResponse (.csrRsp h r) (viewResponse (fun b => .fields (.csr b)) r) s

end Sys2Proof.Machine
end

