-- ==== Sys2Proof/Machine/InterruptContext.lean ====
section
/-! DEFINITION. The meanings of the interrupt-context opcodes (spec/42_codec_intr_ctxt.md): `INTR_CTXT_WRT`, `INTR_CTXT_RD`,
`INTR_CTXT_INV`, `INTR_CTXT_CLR`, with the condition of spec/45_pf_dispatch.md R249 and the success responses of R254. -/

namespace Sys2Proof.Machine

/-- `INTR_CTXT_WRT.REQ` (R174, R249, R254). -/
def execIntrCtxtWrtReq (h : Header) (b : ICtxt) (s : State) : Out :=
  runRequest (.intrCtxtWrtReq h b) (fun _ g => ringsAllowed g b.ringIndex)
    (fun h' _ => some (.intrCtxtWrtRsp h' (.ok .none))) s

/-- `INTR_CTXT_WRT.RSP` (R175). -/
def execIntrCtxtWrtRsp (h : Header) (r : Rsp NoBody) (s : State) : Out :=
  runResponse (.intrCtxtWrtRsp h r) (viewResponse statusOnly r) s

/-- `INTR_CTXT_RD.REQ` (R176, R249, R254): the response echoes the count and the index list. -/
def execIntrCtxtRdReq (h : Header) (b : IRings) (s : State) : Out :=
  runRequest (.intrCtxtRdReq h b) (fun _ g => ringsAllowed g b.ringIndex)
    (fun h' d => match d with
      | .ctxt c => some (.intrCtxtRdRsp h' (.ok ⟨b.numRings, b.ringIndex, c⟩))
      | _ => none) s

/-- `INTR_CTXT_RD.RSP` (R177, R195). -/
def execIntrCtxtRdRsp (h : Header) (r : Rsp ICtxt) (s : State) : Out :=
  runResponse (.intrCtxtRdRsp h r) (viewResponse (fun b => .fields (.intrCtxt b)) r) s

/-- `INTR_CTXT_INV.REQ` (R178, R249, R254). -/
def execIntrCtxtInvReq (h : Header) (b : IRings) (s : State) : Out :=
  runRequest (.intrCtxtInvReq h b) (fun _ g => ringsAllowed g b.ringIndex)
    (fun h' _ => some (.intrCtxtInvRsp h' (.ok .none))) s

/-- `INTR_CTXT_INV.RSP` (R179). -/
def execIntrCtxtInvRsp (h : Header) (r : Rsp NoBody) (s : State) : Out :=
  runResponse (.intrCtxtInvRsp h r) (viewResponse statusOnly r) s

/-- `INTR_CTXT_CLR.REQ` (R180, R249, R254). -/
def execIntrCtxtClrReq (h : Header) (b : IRings) (s : State) : Out :=
  runRequest (.intrCtxtClrReq h b) (fun _ g => ringsAllowed g b.ringIndex)
    (fun h' _ => some (.intrCtxtClrRsp h' (.ok .none))) s

/-- `INTR_CTXT_CLR.RSP` (R181). -/
def execIntrCtxtClrRsp (h : Header) (r : Rsp NoBody) (s : State) : Out :=
  runResponse (.intrCtxtClrRsp h r) (viewResponse statusOnly r) s

end Sys2Proof.Machine
end

