-- ==== Sys2Proof/Machine/QueueContext.lean ====
section
/-! DEFINITION. The meanings of the queue-context opcodes (spec/41_codec_qctxt.md): `QCTXT_WRT`, `QCTXT_RD`, `QCTXT_INV`,
`QCTXT_CLR`, with the conditions of spec/45_pf_dispatch.md R248, R249 and the success responses of R254. -/

namespace Sys2Proof.Machine

/-- `QCTXT_WRT.REQ` (R156, R248, R254). -/
def execQctxtWrtReq (h : Header) (b : QCtxt) (s : State) : Out :=
  runRequest (.qctxtWrtReq h b) (fun f g => qctxtWrtAllowed f g b) (fun h' _ => some (.qctxtWrtRsp h' (.ok .none))) s

/-- `QCTXT_WRT.RSP` (R157). -/
def execQctxtWrtRsp (h : Header) (r : Rsp NoBody) (s : State) : Out :=
  runResponse (.qctxtWrtRsp h r) (viewResponse statusOnly r) s

/-- `QCTXT_RD.REQ` (R158, R249, R254): the response echoes the selector. -/
def execQctxtRdReq (h : Header) (b : QSelT) (s : State) : Out :=
  runRequest (.qctxtRdReq h b) (fun _ g => queueAllowed g b.qid)
    (fun h' d => match d with | .desc q => some (.qctxtRdRsp h' (.ok ⟨b, q⟩)) | _ => none) s

/-- `QCTXT_RD.RSP` (R159, R194). -/
def execQctxtRdRsp (h : Header) (r : Rsp QCtxt) (s : State) : Out :=
  runResponse (.qctxtRdRsp h r) (viewResponse (fun b => .fields (.qctxt b)) r) s

/-- `QCTXT_INV.REQ` (R160, R249, R254). -/
def execQctxtInvReq (h : Header) (b : QSelT) (s : State) : Out :=
  runRequest (.qctxtInvReq h b) (fun _ g => queueAllowed g b.qid) (fun h' _ => some (.qctxtInvRsp h' (.ok .none))) s

/-- `QCTXT_INV.RSP` (R161). -/
def execQctxtInvRsp (h : Header) (r : Rsp NoBody) (s : State) : Out :=
  runResponse (.qctxtInvRsp h r) (viewResponse statusOnly r) s

/-- `QCTXT_CLR.REQ` (R162, R249, R254). -/
def execQctxtClrReq (h : Header) (b : QSelT) (s : State) : Out :=
  runRequest (.qctxtClrReq h b) (fun _ g => queueAllowed g b.qid) (fun h' _ => some (.qctxtClrRsp h' (.ok .none))) s

/-- `QCTXT_CLR.RSP` (R163). -/
def execQctxtClrRsp (h : Header) (r : Rsp NoBody) (s : State) : Out :=
  runResponse (.qctxtClrRsp h r) (viewResponse statusOnly r) s

end Sys2Proof.Machine
end

