-- ==== Sys2Proof/Machine/Dispatch.lean ====
section
/-! DEFINITION. The meaning of every message kind of spec/opcode_table.json. -/

namespace Sys2Proof.Machine

/-- What the message `i` does in the state `s`: at the PF or at the VF's reader, as the scheduled step says. -/
def exec (i : Instr) (s : State) : Host.Outcome State Fault Refusal :=
  match i with
  | .vfOnlineReq h => Sys2Proof.Machine.execVfOnlineReq h s
  | .vfOnlineRsp h r => Sys2Proof.Machine.execVfOnlineRsp h r s
  | .vfOfflineReq h => Sys2Proof.Machine.execVfOfflineReq h s
  | .vfOfflineRsp h r => Sys2Proof.Machine.execVfOfflineRsp h r s
  | .qreqReq h b => Sys2Proof.Machine.execQreqReq h b s
  | .qreqRsp h r => Sys2Proof.Machine.execQreqRsp h r s
  | .qnotifyAddReq h b => Sys2Proof.Machine.execQnotifyAddReq h b s
  | .qnotifyAddRsp h r => Sys2Proof.Machine.execQnotifyAddRsp h r s
  | .qnotifyDelReq h b => Sys2Proof.Machine.execQnotifyDelReq h b s
  | .qnotifyDelRsp h r => Sys2Proof.Machine.execQnotifyDelRsp h r s
  | .fmapReq h b => Sys2Proof.Machine.execFmapReq h b s
  | .fmapRsp h r => Sys2Proof.Machine.execFmapRsp h r s
  | .qctxtWrtReq h b => Sys2Proof.Machine.execQctxtWrtReq h b s
  | .qctxtWrtRsp h r => Sys2Proof.Machine.execQctxtWrtRsp h r s
  | .qctxtRdReq h b => Sys2Proof.Machine.execQctxtRdReq h b s
  | .qctxtRdRsp h r => Sys2Proof.Machine.execQctxtRdRsp h r s
  | .qctxtInvReq h b => Sys2Proof.Machine.execQctxtInvReq h b s
  | .qctxtInvRsp h r => Sys2Proof.Machine.execQctxtInvRsp h r s
  | .qctxtClrReq h b => Sys2Proof.Machine.execQctxtClrReq h b s
  | .qctxtClrRsp h r => Sys2Proof.Machine.execQctxtClrRsp h r s
  | .csrReq h => Sys2Proof.Machine.execCsrReq h s
  | .csrRsp h r => Sys2Proof.Machine.execCsrRsp h r s
  | .intrCtxtWrtReq h b => Sys2Proof.Machine.execIntrCtxtWrtReq h b s
  | .intrCtxtWrtRsp h r => Sys2Proof.Machine.execIntrCtxtWrtRsp h r s
  | .intrCtxtRdReq h b => Sys2Proof.Machine.execIntrCtxtRdReq h b s
  | .intrCtxtRdRsp h r => Sys2Proof.Machine.execIntrCtxtRdRsp h r s
  | .intrCtxtInvReq h b => Sys2Proof.Machine.execIntrCtxtInvReq h b s
  | .intrCtxtInvRsp h r => Sys2Proof.Machine.execIntrCtxtInvRsp h r s
  | .intrCtxtClrReq h b => Sys2Proof.Machine.execIntrCtxtClrReq h b s
  | .intrCtxtClrRsp h r => Sys2Proof.Machine.execIntrCtxtClrRsp h r s

end Sys2Proof.Machine
end

