-- ==== Sys2Proof/Machine/Step.lean ====
section
/-! DEFINITION. One step of the block: the agent at the head of the schedule takes one atomic step (spec/00_scope.md R6, R14).
If the step works on a message, the message is fetched and its meaning runs; a frame that does not parse is handled where it
was met. With nothing scheduled no agent acts (spec/10_state.md R47). -/

namespace Sys2Proof.Machine

/-- One step. -/
def step (s : State) : Host.Outcome State Fault Refusal :=
  match s.sched with
  | [] => .next (s.retire .none none)
  | a :: _ =>
    match fetch s with
    | .message i => exec i s
    | .malformed f => finish (decodeFailure f s)
    | .unparsed f e => finish (s, viewUnparsed (s.chan f).vfRxbuf e)
    | .nothing => agentStep a s

/-- `s` with the frame whose bits are `w` placed where the next step fetches its message (log 11). -/
def State.withFetchWord (s : State) (nbits w : Nat) : State :=
  withFrame (firstChan s) (frameOfBits nbits w) s

end Sys2Proof.Machine
end

