-- ==== Sys2Proof/Safety.lean ====
section
/-! DEFINITION. What counts as a safe state and a safe step, in the terms statements use: the invariant of a state (spec/
10_state.md R43, R45, spec/20_memory.md R64, R72), the field bits of a message (spec/30_encoding.md R101), the resources a
call of `PRIV` names (spec/60_exceptions.md R309), and the frame predicates. -/

namespace Sys2Proof

/-! ## Field bits and filler (R101) -/

/-- A mask of the bits `hi..lo`. -/
def bitMask (hi lo : Nat) : Nat := (2 ^ (hi + 1 - lo) - 1) * 2 ^ lo

/-- The bits of words 3 to 10 that the descriptor's included groups occupy (R152, R153). -/
def descMask (t : Int) (k : Nat) : Nat :=
  let q := DescGroup.queue.includedBy t
  let c := DescGroup.completion.includedBy t
  let on (b : Bool) (n : Nat) : Nat := if b then n else 0
  match k with
  | 3 => on q (bitMask 31 0)
  | 4 => on q (bitMask 31 0)
  | 5 => on c (bitMask 31 0)
  | 6 => on c (bitMask 31 0)
  | 7 => on q (bitMask 9 0 + bitMask 17 16) + on c (bitMask 15 10 + bitMask 22 18)
  | 8 => bitMask 7 0 + on c (bitMask 31 16)
  | 9 => bitMask 11 0 + on q (bitMask 31 16)
  | 10 => on q (bitMask 15 0) + on c (bitMask 31 16)
  | _ => 0

/-- The bits of the index list and the contexts that the first `n` entries occupy (R171, R172). -/
def ringMask (withCtxt : Bool) (n : Int) (k : Nat) : Nat :=
  if k = 2 then bitMask 3 0
  else if 3 ≤ k ∧ k ≤ 10 then if ((k - 3 : Nat) : Int) < n then bitMask 10 0 else 0
  else if 11 ≤ k ∧ k ≤ 26 then if withCtxt ∧ (((k - 11) / 2 : Nat) : Int) < n then bitMask 31 0 else 0
  else 0

/-- The field bits of words 1 to 31 of a response: the status, and the body's when the status is 0 (R84, R97). -/
def rspMask {β : Type} (body : β → Nat → Nat) : Rsp β → Nat → Nat
  | .ok b, k => if k = 1 then bitMask 31 0 else body b k
  | .fail _, k => if k = 1 then bitMask 31 0 else 0

/-- The bits of words 1 to 31 that the format in use gives to a field (R88 to R97, R101). -/
def bodyMask : Instr → Nat → Nat
  | .vfOnlineReq _, _ | .vfOfflineReq _, _ | .csrReq _, _ => 0
  | .vfOnlineRsp _ r, k => rspMask (fun _ k => if 2 ≤ k ∧ k ≤ 5 then bitMask 31 0 else 0) r k
  | .csrRsp _ r, k => rspMask (fun _ k => if 2 ≤ k ∧ k ≤ 26 then bitMask 31 0 else 0) r k
  | .qreqReq _ _, k => if k = 2 then bitMask 31 0 else if k = 3 then bitMask 15 0 else 0
  | .qreqRsp _ r, k => rspMask (fun _ k => if k = 2 then bitMask 31 0 else if k = 3 then bitMask 15 0 else 0) r k
  | .qnotifyAddReq _ _, k | .qnotifyDelReq _ _, k => if k = 2 then bitMask 17 0 else 0
  | .fmapReq _ _, k =>
    if k = 2 then bitMask 7 0 else if k = 3 then bitMask 31 0 else if k = 4 then bitMask 15 0 else 0
  | .qctxtWrtReq _ b, k => if k = 2 then bitMask 19 0 else descMask b.sel.cmptCtxtType k
  | .qctxtRdReq _ _, k | .qctxtInvReq _ _, k | .qctxtClrReq _ _, k => if k = 2 then bitMask 19 0 else 0
  | .qctxtRdRsp _ r, k =>
    rspMask (fun b k => if k = 2 then bitMask 19 0 else descMask b.sel.cmptCtxtType k) r k
  | .intrCtxtWrtReq _ b, k => ringMask true b.numRings k
  | .intrCtxtRdReq _ b, k | .intrCtxtInvReq _ b, k | .intrCtxtClrReq _ b, k => ringMask false b.numRings k
  | .intrCtxtRdRsp _ r, k => rspMask (fun b k => ringMask true b.numRings k) r k
  | .vfOfflineRsp _ r, k | .qnotifyAddRsp _ r, k | .qnotifyDelRsp _ r, k | .fmapRsp _ r, k | .qctxtWrtRsp _ r, k
  | .qctxtInvRsp _ r, k | .qctxtClrRsp _ r, k | .intrCtxtWrtRsp _ r, k | .intrCtxtInvRsp _ r, k
  | .intrCtxtClrRsp _ r, k => rspMask (fun _ _ => 0) r k

/-- The field bits of word `k`: every bit of the header, and the body's. Every other bit is filler (R81, R101). -/
def fieldMask (i : Instr) (k : Nat) : Word :=
  if k = 0 then packed (bitMask 31 0) else packed (bodyMask i k)

namespace Machine

/-! ## The invariant -/

/-- A response of the dispatcher for function `f`, as its header and status say (R243, R292). -/
structure IsReply (pf f : FuncId) (y : Frame) : Prop where
  len : y.length = 32
  dir : dirOf y = 1
  src : srcOf y = pf.toNat
  dst : dstOf y = f.toNat
  status : s32 (word y 1) ≤ 0

/-- The invariant of channel `f`. -/
structure ChanInv (cfg : Config.Params) (f : FuncId) (c : Chan) : Prop where
  /-- R43 -/
  flags : ¬(c.pend = true ∧ c.ack = true)
  /-- every private buffer has 32 words (R20) -/
  rxbufLen : c.rxbuf.length = 32
  respLen : c.resp.length = 32
  sentLen : c.sent.length = 32
  vfRxbufLen : c.vfRxbuf.length = 32
  /-- `REQ[f]` is a decoded request while `EXECUTING` (R28) -/
  req : c.dstate = .executing → c.req.dir = .req ∧ WellFormed c.req
  /-- `RESP[f]` is a well-formed response to `f` while `RESPONDING` (R29, R240) -/
  resp : c.dstate = .responding → IsReply cfg.pfFuncId f c.resp
  /-- the counters of the transaction are within their bounds (R38) -/
  polls : c.vstate = .wait → c.vfPolls ≤ cfg.pollMax
  retries : c.vstate = .wait → c.vfRetry ≤ cfg.retryMax
  /-- `VF_REQ[f]` composes with every tag while a transaction is in progress (R282 "cannot fail") -/
  vfReq : c.vstate = .wait →
    ∀ tag : BitVec 8, WellFormed (c.vfReq.withHeader ⟨tag.toNat, f.toNat, cfg.pfFuncId.toNat⟩)
  /-- `SENT[f]` is a request of `f` to the PF while a transaction is in progress (R277) -/
  sent : c.vstate = .wait → dirOf c.sent = 0 ∧ srcOf c.sent = f.toNat ∧ dstOf c.sent = cfg.pfFuncId.toNat

/-- The invariant of a state. -/
structure Inv (s : State) : Prop where
  /-- the memory is in canonical form -/
  mem : Memory.wf s.mem = true
  /-- every listed byte lies in the slot of a channel (R64) -/
  slots : ∀ p ∈ s.mem, ∃ f, s.hasChan f = true ∧ slotBase f ≤ p.1 ∧ p.1 < slotBase f + 128
  /-- a function has one channel, and the PF none (R9) -/
  keys : (s.chans.map Prod.fst).Nodup
  pfNoChan : s.hasChan s.cfg.pfFuncId = false
  chans : ∀ p ∈ s.chans, ChanInv s.cfg p.1 p.2

/-! ## The resources a call of `PRIV` names (R309) -/

/-- The queue ids of a request (R249). -/
def queueIds : Instr → List Int
  | .qnotifyAddReq _ b | .qnotifyDelReq _ b => [b.qid]
  | .qctxtWrtReq _ b => [b.sel.qid]
  | .qctxtRdReq _ b | .qctxtInvReq _ b | .qctxtClrReq _ b => [b.qid]
  | _ => []

/-- The interrupt vectors of a request that the block checks (R248 (c), R249). -/
def vectorIds : Instr → List Int
  | .intrCtxtWrtReq _ b => b.ringIndex
  | .intrCtxtRdReq _ b | .intrCtxtInvReq _ b | .intrCtxtClrReq _ b => b.ringIndex
  | .qctxtWrtReq _ b => if usesVector b then [b.desc.intrId] else []
  | _ => []

/-! ## Frames -/

/-- Everything but the channels, the memory and the model's own fields is unchanged, and so is `VFSET`. -/
structure SameRest (s t : State) : Prop where
  cfg : t.cfg = s.cfg
  pfBase : t.pfBase = s.pfBase
  inits : t.inits = s.inits
  vfset : ∀ g, t.hasChan g = s.hasChan g

/-- Only channel `f` may differ. -/
structure OnlyChan (f : FuncId) (s t : State) : Prop where
  rest : SameRest s t
  others : ∀ g, g ≠ f → t.chan g = s.chan g

/-- Every byte of memory reads as before. -/
def SameMem (s t : State) : Prop := ∀ a, t.mem.read a = s.mem.read a

/-- Every byte outside the 128 bytes of `SLOT[f]` reads as before. -/
def SameMemBut (f : FuncId) (s t : State) : Prop :=
  ∀ a, a < slotBase f ∨ slotBase f + 128 ≤ a → t.mem.read a = s.mem.read a

/-- The PF's private part of a channel (R307). -/
structure SamePfSide (c d : Chan) : Prop where
  dstate : d.dstate = c.dstate
  rxbuf : d.rxbuf = c.rxbuf
  req : d.req = c.req
  resp : d.resp = c.resp
  ackShadow : d.ackShadow = c.ackShadow
  intrEnPf : d.intrEnPf = c.intrEnPf
  grant : d.grant = c.grant

/-- The VF's private part of a channel (R307), `OUTSTANDING[f]` apart. -/
structure SameVfSide (c d : Chan) : Prop where
  sent : d.sent = c.sent
  vfRxbuf : d.vfRxbuf = c.vfRxbuf
  tagNext : d.tagNext = c.tagNext
  vstate : d.vstate = c.vstate
  vfReq : d.vfReq = c.vfReq
  vfPolls : d.vfPolls = c.vfPolls
  vfRetry : d.vfRetry = c.vfRetry
  vfHf : d.vfHf = c.vfHf
  vfFaulted : d.vfFaulted = c.vfFaulted
  intrEnVf : d.intrEnVf = c.intrEnVf
  vfBase : d.vfBase = c.vfBase

/-- Two states look the same to VF `f` (R64, R307): the parameters, its private state, the flags and `OUTSTANDING` of its channel and
its slot agree; so does the index of the next free values, which the model keeps (log 5). -/
structure SameVfView (f : FuncId) (s s' : State) : Prop where
  cfg : s.cfg = s'.cfg
  inits : s.inits = s'.inits
  vfset : s.hasChan f = true ∧ s'.hasChan f = true
  wf : Memory.wf s.mem = true ∧ Memory.wf s'.mem = true
  side : SameVfSide (s.chan f) (s'.chan f)
  pend : (s.chan f).pend = (s'.chan f).pend
  ack : (s.chan f).ack = (s'.chan f).ack
  outstanding : (s.chan f).outstanding = (s'.chan f).outstanding
  slot : readSlot s.mem f = readSlot s'.mem f

/-- The side that takes a step: the PF, VF `f`, or neither (a pure operation, or power-on). -/
inductive Side where
  | pf
  | vf (f : FuncId)
  | neither
deriving DecidableEq, Repr

/-- Which side takes each step (R6, R307). -/
def sideOf : Action → Side
  | .sendVf f _ _ => .vf f
  | .sendPf _ _ => .pf
  | .receivePf _ _ => .pf
  | .receiveVf f _ => .vf f
  | .clearAckPf _ _ => .pf
  | .clearAckVf f _ => .vf f
  | .enableInterrupts r | .disableInterrupts r | .hwInit r =>
    match r with
    | .pf => .pf
    | .vf f => .vf f
  | .accept _ _ | .decode _ | .execute _ _ _ | .respond _ _ | .busyReject _ _ _ => .pf
  | .start f _ _ _ => .vf f
  | .poll f _ | .retry f _ _ | .giveUp f _ => .vf f
  | .readResponse f => .vf f
  | .setGrants _ | .handleRequest _ _ _ _ => .pf
  | .compose _ | .parse _ | .parseAs _ _ _ | .isResponse _ _ | .status _ | .get _ _ => .neither
  | .powerOn => .neither

/-- None of the step's handshakes fails (R206). -/
def noHsFail : Action → Bool
  | .sendVf _ _ h | .sendPf _ h | .receivePf _ h | .receiveVf _ h | .clearAckPf _ h | .clearAckVf _ h
  | .accept _ h | .respond _ h | .poll _ h | .giveUp _ h => !h
  | .busyReject _ h h' | .start _ _ h h' | .retry _ h h' => !h && !h'
  | _ => true

/-- The step ends no service of a function: it is neither `hw_init(false)` nor power-on reset (R258). -/
def keepsService : Action → Bool
  | .hwInit .pf | .powerOn => false
  | _ => true

/-- The channel a scheduled step names, if it names one: `send(PF, x)` is routed by the frame, and a role of `PF`, a pure
operation, a change of the grant tables and power-on reset name none. -/
def channelOf : Action → Option FuncId
  | .sendVf f _ _ | .receivePf f _ | .receiveVf f _ | .clearAckPf f _ | .clearAckVf f _ => some f
  | .sendPf _ _ => none
  | .enableInterrupts r | .disableInterrupts r | .hwInit r =>
    match r with
    | .pf => none
    | .vf f => some f
  | .accept f _ | .decode f | .execute f _ _ | .respond f _ | .busyReject f _ _ => some f
  | .start f _ _ _ | .poll f _ | .retry f _ _ | .giveUp f _ | .readResponse f => some f
  | .handleRequest f _ _ _ => some f
  | .setGrants _ | .compose _ | .parse _ | .parseAs _ _ _ | .isResponse _ _ | .status _ | .get _ _ | .powerOn => none

/-! ## A step and what it leaves -/

/-- The step `a` is due, and its channel `f` exists. -/
structure Due (a : Action) (f : FuncId) (s : State) : Prop where
  head : s.sched.head? = some a
  vfset : s.hasChan f = true

/-- A step of channel `f` that called no `PRIV`: the next scheduled step is due, and nothing but channel `f`, the memory and the
result may differ. -/
structure Took (f : FuncId) (s t : State) : Prop where
  only : OnlyChan f s t
  sched : t.sched = s.sched.tail
  priv : t.priv = none

/-- T3 of function `f` answered with the frame `y` (R240): `RESP[f]` holds it, `DSTATE[f]` is `RESPONDING`, every grant row the
table `g` names is replaced, and nothing else of any channel, of the memory or of the rest differs. -/
structure Answered (f : FuncId) (y : Frame) (g : GrantTable) (p : Option PrivCall) (s t : State) : Prop where
  chan : t.chan f =
    { s.chan f with grant := (grantOf g f).getD (s.chan f).grant, resp := y, dstate := .responding }
  others : ∀ k, k ≠ f → s.hasChan k = true →
    t.chan k = { s.chan k with grant := (grantOf g k).getD (s.chan k).grant }
  mem : SameMem s t
  rest : SameRest s t
  sched : t.sched = s.sched.tail
  result : t.result = .ok
  priv : t.priv = p

/-- A step changed the grant tables alone: every row the table `g` names is replaced and nothing else of any channel, of the memory or
of the rest differs; the step returned `r` and called `PRIV` as `p` says (R41, R250, R338). -/
structure Regranted (g : GrantTable) (r : Result) (p : Option PrivCall) (s t : State) : Prop where
  chans : ∀ k, s.hasChan k = true → t.chan k = { s.chan k with grant := (grantOf g k).getD (s.chan k).grant }
  mem : SameMem s t
  rest : SameRest s t
  sched : t.sched = s.sched.tail
  result : t.result = r
  priv : t.priv = p

/-! ## The words of a response, as the rules write them -/

/-- Word 0 of every response to function `f` (R243): `o | 0x80 | (t << 8) | (PF_FUNC_ID << 16) | (f << 24)`. -/
def rspHeader (o : Nat) (t : Int) (pf f : FuncId) : Word :=
  BitVec.ofInt 32 (o + 128 + t * 2 ^ 8 + pf.toNat * 2 ^ 16 + f.toNat * 2 ^ 24)

/-- The 32 words of a response with the words `body` from word 1 on. -/
def rspFrame (o : Nat) (t : Int) (pf f : FuncId) (body : Nat → Int) : Frame :=
  frameOf fun k => if k = 0 then rspHeader o t pf f else BitVec.ofInt 32 (body k)

/-- `status_rsp` (R245): the status in word 1, words 2 to 31 zero. -/
def statusFrame (o : Nat) (t : Int) (pf f : FuncId) (st : Int) : Frame :=
  rspFrame o t pf f fun k => if k = 1 then st else 0

/-- Words 3 to 10 of a descriptor, each the sum of its fields at their positions (R152, R154). -/
def descWord (d : QDesc) : Nat → Int
  | 3 => d.ringBsAddr % 2 ^ 32
  | 4 => d.ringBsAddr / 2 ^ 32
  | 5 => d.cmptRingBsAddr % 2 ^ 32
  | 6 => d.cmptRingBsAddr / 2 ^ 32
  | 7 => d.forcedEn + d.enBypass * 2 + d.irqArm * 4 + d.wbiIntvlEn * 8 + d.wbiChk * 16 + d.at_ * 32 + d.wbkEn * 64 +
      d.irqEn * 128 + d.pfchEn * 256 + d.enBypassPrefetch * 512 + d.disOverflowCheck * 1024 + d.cmptIntEn * 2048 +
      d.cmptAt * 4096 + d.cmptColor * 8192 + d.cmptFullUpd * 16384 + d.cmptStatEn * 32768 + d.descSz * 65536 +
      d.cmptDescSz * 262144 + d.triggerMode * 1048576
  | 8 => d.funcId + d.cntThres * 2 ^ 16 + d.timerThres * 2 ^ 24
  | 9 => d.intrId + d.intrAggr * 2 ^ 11 + d.ringSz * 2 ^ 16
  | 10 => d.bufSz + d.cmptRingSz * 2 ^ 16
  | _ => 0

/-- The selector word of `P_QSELT` (R91): `qid | c2h<<16 | st<<17 | t<<18`. -/
def selectorWord (b : QSelT) : Int := b.qid + b.c2h * 2 ^ 16 + b.st * 2 ^ 17 + b.cmptCtxtType * 2 ^ 18

/-! ## What a request may ask for (R246 to R249) -/

/-- Queue `q` is granted (R41, R247). -/
def GrantsQueue (g : Grant) (q : Int) : Prop := (g.qbase : Int) ≤ q ∧ q < (g.qbase : Int) + g.qmax

/-- Vector `v` is granted (R41). -/
def GrantsVector (g : Grant) (v : Int) : Prop := ∃ x ∈ g.vec, (x.toNat : Int) = v

/-- The row of R249 for the request, R248 included; a response is never authorised. -/
def PermittedRow (f : FuncId) (g : Grant) : Instr → Prop
  | .vfOnlineReq _ | .vfOfflineReq _ | .csrReq _ | .qreqReq _ _ => True
  | .qnotifyAddReq _ b | .qnotifyDelReq _ b => GrantsQueue g b.qid
  | .fmapReq _ b => b.funcId = f.toNat ∧
      (b.qmax = 0 ∨ ((g.qbase : Int) ≤ b.qbase ∧ b.qbase + b.qmax ≤ (g.qbase : Int) + g.qmax))
  | .qctxtWrtReq _ b => GrantsQueue g b.sel.qid ∧ b.desc.funcId = f.toNat ∧
      ((b.sel.cmptCtxtType ≠ 0 ∧ b.desc.irqEn = 1) ∨ (b.sel.cmptCtxtType ≠ 3 ∧ b.desc.cmptIntEn = 1) →
        GrantsVector g b.desc.intrId)
  | .qctxtRdReq _ b | .qctxtInvReq _ b | .qctxtClrReq _ b => GrantsQueue g b.qid
  | .intrCtxtWrtReq _ b => ∀ v ∈ b.ringIndex, GrantsVector g v
  | .intrCtxtRdReq _ b | .intrCtxtInvReq _ b | .intrCtxtClrReq _ b => ∀ v ∈ b.ringIndex, GrantsVector g v
  | .vfOnlineRsp _ _ | .vfOfflineRsp _ _ | .qreqRsp _ _ | .qnotifyAddRsp _ _ | .qnotifyDelRsp _ _ | .fmapRsp _ _
  | .qctxtWrtRsp _ _ | .qctxtRdRsp _ _ | .qctxtInvRsp _ _ | .qctxtClrRsp _ _ | .csrRsp _ _
  | .intrCtxtWrtRsp _ _ | .intrCtxtRdRsp _ _ | .intrCtxtInvRsp _ _ | .intrCtxtClrRsp _ _ => False

/-- `authorised(f, m)` (R246, R249): the header claim and the row. -/
def Permitted (pf f : FuncId) (g : Grant) (m : Instr) : Prop :=
  m.header.src = f.toNat ∧ m.header.dst = pf.toNat ∧ PermittedRow f g m

/-! ## Reserved field values (R103) -/

/-- The frame holds a reserved field value in a field that `parse` reads for this opcode (R103, R239). -/
def HoldsReserved (op : Op) (x : Frame) : Prop :=
  let base (k : Nat) (lo : Int) : Prop := s32 (word x k) < lo ∨ 65535 < s32 (word x k)
  let pair : Prop := (field (word x 2) 19 18 = 1 ∧ field (word x 2) 17 17 = 1) ∨
    (field (word x 2) 19 18 = 2 ∧ field (word x 2) 17 17 = 0)
  let rings : Prop := field (word x 2) 3 0 = 0 ∨ 9 ≤ field (word x 2) 3 0
  if dirOf x = 0 then
    match op with
    | .qreq => base 2 (-1)
    | .fmap => base 3 0
    | .qctxtWrt | .qctxtRd | .qctxtInv | .qctxtClr => pair
    | .intrCtxtWrt | .intrCtxtRd | .intrCtxtInv | .intrCtxtClr => rings
    | .vfOnline | .vfOffline | .qnotifyAdd | .qnotifyDel | .csr => False
  else
    0 < s32 (word x 1) ∨ (s32 (word x 1) = 0 ∧
      match op with
      | .qreq => base 2 0
      | .qctxtRd => pair
      | .intrCtxtRd => rings
      | .vfOnline | .vfOffline | .qnotifyAdd | .qnotifyDel | .fmap | .qctxtWrt | .qctxtInv | .qctxtClr | .csr
      | .intrCtxtWrt | .intrCtxtInv | .intrCtxtClr => False)

/-! ## The bound on a wait (R341) -/

/-- How many polls a transaction in progress can still make. -/
def pollsLeft (cfg : Config.Params) (c : Chan) : Nat :=
  (cfg.retryMax - c.vfRetry) * cfg.pollMax + (cfg.pollMax - c.vfPolls)

/-- A measure that every poll and every retry lowers. -/
def waitMeasure (cfg : Config.Params) (c : Chan) : Nat :=
  (cfg.retryMax - c.vfRetry) * (cfg.pollMax + 1) + (cfg.pollMax - c.vfPolls)

/-! ## The reset table (R46) -/

/-- The rows of R46 that give a value; the rows it leaves unspecified are left out. -/
structure ResetRow (c : Chan) : Prop where
  pend : c.pend = false
  ack : c.ack = false
  dstate : c.dstate = .idle
  ackShadow : c.ackShadow = false
  intrEnPf : c.intrEnPf = false
  intrEnVf : c.intrEnVf = false
  outstanding : c.outstanding = false
  tagNext : c.tagNext = 0
  vstate : c.vstate = .idle
  vfPolls : c.vfPolls = 0
  vfRetry : c.vfRetry = 0
  vfHf : c.vfHf = false
  vfFaulted : c.vfFaulted = false
  qbase : c.grant.qbase = 0
  qmax : c.grant.qmax = 0
  vec : c.grant.vec = []

end Machine

end Sys2Proof
end

