-- ==== Sys2Proof/Certificates/Slice0/Obligations.lean ====
section
/-! DEFINITION. The statements for the provers, from the numbered rules of spec/. The scheduled step, the result a step leaves and
the recorded call of `PRIV` are fields of the model (log 1, log 8); everything else a statement names is the spec's state. -/

open Sys2Proof Sys2Proof.Machine

/-! ## The codec -/

/-- Sanity: words written out in spec/95_test_vectors.md (TB1, TB3, TC12, TD10, TA7, and the illegal opcode of TA3) decode, under the
default map, to the messages they stand for (R99). -/
def Obligations.WrittenWordsDecode : Prop :=
  let map : Config.OpMap := .default
  decodeTableWord 32 0x00010713 = some (.vfOnlineReq ⟨7, 1, 0⟩) ∧
  parse map (frameOf fun k => [0x00010115, 0, 0x0000FFFF, 0x0000FFFF].getD k 0) =
    .ok (.qreqReq ⟨1, 1, 0⟩ ⟨65535, 65535⟩) ∧
  parse map (frameOf fun k => [0x0001091A, 0, 0x000B0003].getD k 0) = .ok (.qctxtRdReq ⟨9, 1, 0⟩ ⟨3, 1, 1, 2⟩) ∧
  parse map (frameOf fun k => [0x00010F20, 0, 1, 5].getD k 0) = .ok (.intrCtxtInvReq ⟨15, 1, 0⟩ ⟨1, [5]⟩) ∧
  parse map (frameOf fun k => [0x01000498, 0xFFFFFFF9].getD k 0) = .ok (.fmapRsp ⟨4, 0, 1⟩ (.fail (-7))) ∧
  parse map (frameOf fun k => [0x00010022].getD k 0) = .error (.malformedMessage .opcode)

/-- R100, first half: under every opcode map (R86), what `compose` writes, `parse` reads back whole, for every message of every opcode
and direction; so does the parser of that opcode and direction (R120). -/
def Obligations.ParseOfComposeIsIdentity : Prop :=
  ∀ (ops : Config.OpMap) (m : Instr) (x : Frame), compose ops m = .ok x →
    parse ops x = .ok m ∧ parseAs ops m.op m.dir x = .ok m

/-- R100, second half: composing what was parsed gives the frame with every filler bit cleared. -/
def Obligations.ComposeOfParseClearsFiller : Prop :=
  ∀ (ops : Config.OpMap) (x : Frame) (m : Instr), parse ops x = .ok m →
    compose ops m = .ok (frameOf fun k => word x k &&& fieldMask m k)

/-- R13, R98: `compose` succeeds exactly on the messages whose every field is in its legal set, and otherwise raises
`InvalidArgument` and gives no buffer. -/
def Obligations.ComposeSucceedsExactlyOnLegal : Prop :=
  ∀ (ops : Config.OpMap) (m : Instr), (WellFormed m → compose ops m = .ok (encode ops m)) ∧
    (¬WellFormed m → ∃ i, compose ops m = .error (.invalidArgument i))

/-- R101: `compose` writes 0 to every filler bit, and `parse` reads no filler bit: a frame that agrees on the field bits of the
message parses to the same message. -/
def Obligations.FillerIsZeroedAndIgnored : Prop :=
  ∀ ops : Config.OpMap,
    (∀ (m : Instr) (x : Frame), compose ops m = .ok x → ∀ k, k < 32 → word x k &&& ~~~(fieldMask m k) = 0) ∧
    ∀ (x y : Frame) (m : Instr), parse ops x = .ok m → y.length = 32 →
      (∀ k, k < 32 → word y k &&& fieldMask m k = word x k &&& fieldMask m k) → parse ops y = .ok m

/-- R86, R102: every opcode map has 15 pairwise distinct values of at most 127, `VF_ONLINE` = 19 and `VF_OFFLINE` = 20 among them, and
the default map numbers the others 21 to 33 in the source's order; `parse` rejects exactly the 113 values the map does not list; and T2
answers such a frame with the generic malformed-request response (R244). -/
def Obligations.IllegalOpcodesAreRejected : Prop :=
  (∀ ops : Config.OpMap,
    Op.vfOnline.code ops = 19 ∧ Op.vfOffline.code ops = 20 ∧ (∀ a : Op, a.code ops ≤ 127) ∧
    (∀ a b : Op, a.code ops = b.code ops → a = b) ∧
    (∀ x : Frame, x.length = 32 →
      (parse ops x = .error (.malformedMessage .opcode) ↔ ∀ a : Op, a.code ops ≠ opcOf x)) ∧
    ((List.range 128).filter fun n => (Op.ofCode ops n).isNone).length = 113) ∧
  Op.all.map (Op.code .default) = [19, 20, 21, 22, 23, 24, 25, 26, 27, 28, 29, 30, 31, 32, 33] ∧
  (∀ n, n < 128 → ((∀ a : Op, a.code .default ≠ n) ↔ n ≤ 18 ∨ 34 ≤ n)) ∧
  ∀ (s : State) (f : FuncId), Due (.decode f) f s → (s.chan f).dstate = .decoding → (s.chan f).rxbuf.length = 32 →
    (∀ a : Op, a.code s.cfg.ops ≠ opcOf (s.chan f).rxbuf) →
    ∃ t, step s = .next t ∧ (t.chan f).dstate = .responding ∧
      (t.chan f).resp =
        statusFrame (opcOf (s.chan f).rxbuf) (tagOf (s.chan f).rxbuf) s.cfg.pfFuncId f (-6)

/-- R99, R103: with a legal opcode, `parse` fails exactly when the frame holds a reserved value in a field the format reads. -/
def Obligations.ParseFailsExactlyOnReservedValues : Prop :=
  ∀ (ops : Config.OpMap) (x : Frame) (op : Op), x.length = 32 → opcOf x = op.code ops →
    ((∃ i, parse ops x = .error (.malformedMessage i)) ↔ HoldsReserved op x)

/-- R104: a buffer that is not 32 words is rejected with `MalformedMessage` by `parse`, `is_response`, `status`, every getter,
`send` in either role and `handle_request`, whatever else holds; nothing is changed. -/
def Obligations.WrongLengthIsMalformed : Prop :=
  ∀ x : Frame, x.length ≠ 32 →
    (∀ ops, parse ops x = .error (.malformedMessage .length)) ∧
    (∀ y, isResponse x y = .error (.malformedMessage .length) ∧ isResponse y x = .error (.malformedMessage .length)) ∧
    status x = .error (.malformedMessage .length) ∧
    (∀ ops g, get ops g x = .error (.malformedMessage .length)) ∧
    (∀ (s : State) (f : FuncId) (hs : Bool), Due (.sendVf f x hs) f s →
      step s = .next (s.retire (.error (.malformedMessage .length)) none)) ∧
    (∀ (s : State) (hs : Bool), s.sched.head? = some (.sendPf x hs) →
      step s = .next (s.retire (.error (.malformedMessage .length)) none)) ∧
    ∀ (s : State) (f : FuncId) (a : PrivAnswer) (g : GrantTable), Due (.handleRequest f x a g) f s →
      step s = .next (s.retire (.error (.malformedMessage .length)) none)

/-- R65: the 128-byte image is little-endian and determines the message; a slot holds a frame as that image (the place of a slot in
the byte memory is the model's, log 6). -/
def Obligations.ByteImageIsLittleEndian : Prop :=
  ∀ x : Frame, x.length = 32 →
    (byteImage x).length = 128 ∧ wordsOfBytes (byteImage x) = x ∧
    ∀ i k, i < 32 → k < 4 →
      ((byteImage x).getD (4 * i + k) 0).toNat = field (word x i) (8 * k + 7) (8 * k) ∧
      ∀ (m : Memory) (f : FuncId), Memory.wf m = true →
        (writeSlot m f x).read (128 * f.toNat + (4 * i + k)) = (byteImage x).getD (4 * i + k) 0

/-! ## The correlator -/

/-- R186: `is_response` raises nothing on 32-word buffers, reads word 0 of each and nothing else, and holds exactly when the sent
frame is a request and the received word 0 is the word the rule writes out. -/
def Obligations.IsResponseIsTheWordEquation : Prop :=
  ∀ sent received : Frame, sent.length = 32 → received.length = 32 →
    ∃ b, isResponse sent received = .ok b ∧
      (b = true ↔ dirOf sent = 0 ∧ (word received 0).toNat =
        opcOf sent + 0x80 + tagOf sent * 2 ^ 8 + dstOf sent * 2 ^ 16 + srcOf sent * 2 ^ 24)

/-- R187 (a) to (c), and of (d) that one response never correlates with two requests of different tags. -/
def Obligations.CorrelationConsequences : Prop :=
  (∀ m : Frame, m.length = 32 → isResponse m m = .ok false) ∧
  (∀ (cfg : Config.Params) (f : FuncId) (g : Grant) (q : Frame) (a : PrivAnswer), q.length = 32 → dirOf q = 0 →
    (isResponse q (handleRequest cfg f g q a).1 = .ok true ↔ srcOf q = f.toNat ∧ dstOf q = cfg.pfFuncId.toNat)) ∧
  ∀ q q' r : Frame, isResponse q r = .ok true → isResponse q' r = .ok true → tagOf q = tagOf q'

/-- R188, R189: what `status` gives on every 32-word buffer, and the failure kind of every negative status. -/
def Obligations.StatusAndFailureKinds : Prop :=
  (∀ x : Frame, x.length = 32 →
    (dirOf x = 0 → status x = .error (.malformedMessage .notAResponse)) ∧
    (dirOf x = 1 → 0 < s32 (word x 1) → status x = .error (.malformedMessage .positiveStatus)) ∧
    (dirOf x = 1 → s32 (word x 1) = 0 → status x = .ok .success) ∧
    (dirOf x = 1 → s32 (word x 1) < 0 → status x = .ok (.failed (kindOf (s32 (word x 1)))))) ∧
  kindOf (-1) = .badArgument ∧ kindOf (-2) = .queueNotFound ∧ kindOf (-3) = .resourceExhausted ∧
  kindOf (-4) = .busy ∧ kindOf (-5) = .unauthorized ∧ kindOf (-6) = .malformed ∧ kindOf (-7) = .failure ∧
  ∀ st : Int, st < -7 → kindOf st = .other st

/-- R190 to R195: the getters test in the order of the rule, surface a failure without reading the body, and give the body's words on
success. -/
def Obligations.GettersReadTheSnapshot : Prop :=
  ∀ (ops : Config.OpMap) (x : Frame), x.length = 32 →
    (∀ g : Getter, dirOf x = 0 → get ops g x = .error (.malformedMessage .notAResponse)) ∧
    (∀ g : Getter, dirOf x = 1 → opcOf x ≠ g.op.code ops → get ops g x = .error (.malformedMessage .unexpectedOpcode)) ∧
    (∀ g : Getter, dirOf x = 1 → opcOf x = g.op.code ops → 0 < s32 (word x 1) →
      get ops g x = .error (.malformedMessage .positiveStatus)) ∧
    (∀ g : Getter, dirOf x = 1 → opcOf x = g.op.code ops → s32 (word x 1) < 0 →
      get ops g x = .status (.failed (kindOf (s32 (word x 1))))) ∧
    (dirOf x = 1 → s32 (word x 1) = 0 →
      (opcOf x = Op.vfOnline.code ops →
        get ops .devInfo x =
          .fields (.devInfo ⟨[uword (word x 2), uword (word x 3), uword (word x 4), uword (word x 5)]⟩)) ∧
      (opcOf x = Op.qreq.code ops →
        get ops .qinfo x =
          if 0 ≤ s32 (word x 2) ∧ s32 (word x 2) ≤ 65535 then
            .fields (.qinfo ⟨s32 (word x 2), field (word x 3) 15 0⟩)
          else .error (.malformedMessage .qbase)) ∧
      (opcOf x = Op.csr.code ops → ∃ ws, get ops .csr x = .fields (.csr ⟨ws⟩) ∧ ws.length = 25 ∧
        ∀ k, k < 25 → ws.getD k 0 = uword (word x (2 + k))) ∧
      (opcOf x = Op.qctxtRd.code ops →
        get ops .qctxt x =
          let st := field (word x 2) 17 17
          let t := field (word x 2) 19 18
          if (t = 1 ∧ st = 1) ∨ (t = 2 ∧ st = 0) then .error (.malformedMessage .typeMode)
          else .fields (.qctxt ⟨⟨field (word x 2) 15 0, field (word x 2) 16 16, st, t⟩, parseDesc t x⟩)) ∧
      (opcOf x = Op.intrCtxtRd.code ops →
        (1 ≤ field (word x 2) 3 0 ∧ field (word x 2) 3 0 ≤ 8 →
          ∃ idx ctxt, get ops .intrCtxt x = .fields (.intrCtxt ⟨field (word x 2) 3 0, idx, ctxt⟩) ∧
            idx.length = field (word x 2) 3 0 ∧ ctxt.length = field (word x 2) 3 0 ∧
            ∀ i, i < field (word x 2) 3 0 →
              idx.getD i 0 = field (word x (3 + i)) 10 0 ∧
              ctxt.getD i (0, 0) = (uword (word x (11 + 2 * i)), uword (word x (12 + 2 * i)))) ∧
        (field (word x 2) 3 0 = 0 ∨ 9 ≤ field (word x 2) 3 0 →
          get ops .intrCtxt x = .error (.malformedMessage .numRings))))

/-! ## The step runs the decoded message -/

/-- At T2, at T3 and where a VF's caller reads its response, `step` is `exec` of the message at hand: the one `parse` reads from
`RXBUF[f]`, the one in `REQ[f]`, the one `parse` reads from `VF_RXBUF[f]` (R238, R240, R286). -/
def Obligations.StepRunsTheDecodedMessage : Prop :=
  ∀ (s : State) (f : FuncId),
    (∀ i, Due (.decode f) f s → (s.chan f).dstate = .decoding → parse s.cfg.ops (s.chan f).rxbuf = .ok i →
      step s = exec i s) ∧
    (∀ a g, Due (.execute f a g) f s → (s.chan f).dstate = .executing → step s = exec (s.chan f).req s) ∧
    (∀ i, Due (.readResponse f) f s → parse s.cfg.ops (s.chan f).vfRxbuf = .ok i → step s = exec i s)

/-- A word placed by `withFetchWord` is the message the very next step runs, read under the map in force (log 11). -/
def Obligations.PlacedWordRunsNext : Prop :=
  ∀ (s : State) (nbits w : Nat) (i : Instr), s.chans ≠ [] → decodeWord s.cfg.ops nbits w = some i →
    step (s.withFetchWord nbits w) = exec i (s.withFetchWord nbits w)

/-- Every step answers a next state, but for a step that names a channel outside `VFSET`, which does not exist (R60, R291). That a
scheduled transition that is not enabled answers a next state, with nothing but the model's own fields changed, is the model's choice
(log 2), and so is the step with nothing scheduled (log 1). -/
def Obligations.OnlyAnAbsentChannelStopsAStep : Prop :=
  ∀ s : State,
    ((∃ a f, s.sched.head? = some a ∧ channelOf a = some f ∧ s.hasChan f = false) → step s = .fault .noSuchChannel) ∧
    ((¬∃ a f, s.sched.head? = some a ∧ channelOf a = some f ∧ s.hasChan f = false) → ∃ t, step s = .next t)

/-! ## Requests executed (T3) -/

/-- `VF_ONLINE.REQ` authorised and answered by `PRIV` with four device-info words: the response carries them in words 2 to 5
(R240, R249, R254, R122). -/
def Obligations.VfOnlineServed : Prop :=
  ∀ (s : State) (f : FuncId) (g : GrantTable) (h : Header) (b : DevInfo),
    Due (.execute f (.answer 0 (.devInfo b)) g) f s → (s.chan f).dstate = .executing →
    Permitted s.cfg.pfFuncId f (s.chan f).grant (.vfOnlineReq h) → 0 ≤ h.tag → h.tag ≤ 255 →
    b.words.length = 4 → (∀ v ∈ b.words, 0 ≤ v ∧ v < 2 ^ 32) →
    ∃ t, exec (.vfOnlineReq h) s = .next t ∧
      Answered f
        (rspFrame (Op.vfOnline.code s.cfg.ops) h.tag s.cfg.pfFuncId f fun k => if 2 ≤ k ∧ k ≤ 5 then b.words.getD (k - 2) 0 else 0)
        g (some ⟨f, .vfOnlineReq h⟩) s t

/-- `QREQ.REQ` authorised and answered by `PRIV` with a range: the response carries the base in word 2 and the count in word 3, and
the grant tables take the values `PRIV` gave (R240, R249, R250, R254, R126). -/
def Obligations.QreqServed : Prop :=
  ∀ (s : State) (f : FuncId) (g : GrantTable) (h : Header) (b r : QRange),
    Due (.execute f (.answer 0 (.qrange r)) g) f s → (s.chan f).dstate = .executing →
    Permitted s.cfg.pfFuncId f (s.chan f).grant (.qreqReq h b) → 0 ≤ h.tag → h.tag ≤ 255 →
    0 ≤ r.qbase → r.qbase ≤ 65535 → 0 ≤ r.qmax → r.qmax ≤ 65535 →
    ∃ t, exec (.qreqReq h b) s = .next t ∧
      Answered f
        (rspFrame (Op.qreq.code s.cfg.ops) h.tag s.cfg.pfFuncId f fun k => if k = 2 then r.qbase else if k = 3 then r.qmax else 0)
        g (some ⟨f, .qreqReq h b⟩) s t

/-- `CSR.REQ` authorised and answered by `PRIV` with 25 words: the response carries them in words 2 to 26 (R240, R249, R254,
R134). -/
def Obligations.CsrServed : Prop :=
  ∀ (s : State) (f : FuncId) (g : GrantTable) (h : Header) (b : CsrInfo),
    Due (.execute f (.answer 0 (.csr b)) g) f s → (s.chan f).dstate = .executing →
    Permitted s.cfg.pfFuncId f (s.chan f).grant (.csrReq h) → 0 ≤ h.tag → h.tag ≤ 255 →
    b.words.length = 25 → (∀ v ∈ b.words, 0 ≤ v ∧ v < 2 ^ 32) →
    ∃ t, exec (.csrReq h) s = .next t ∧
      Answered f
        (rspFrame (Op.csr.code s.cfg.ops) h.tag s.cfg.pfFuncId f fun k => if 2 ≤ k ∧ k ≤ 26 then b.words.getD (k - 2) 0 else 0)
        g (some ⟨f, .csrReq h⟩) s t

/-- `QCTXT_RD.REQ` authorised and answered by `PRIV` with a descriptor that fits the requested type: the response echoes the selector
in word 2 and carries the descriptor in words 3 to 10 (R240, R249, R254, R159, R154). -/
def Obligations.QctxtRdServed : Prop :=
  ∀ (s : State) (f : FuncId) (g : GrantTable) (h : Header) (b : QSelT) (d : QDesc),
    Due (.execute f (.answer 0 (.desc d)) g) f s → (s.chan f).dstate = .executing →
    Permitted s.cfg.pfFuncId f (s.chan f).grant (.qctxtRdReq h b) → WellFormed (.qctxtRdReq h b) →
    d.legal b.cmptCtxtType = true →
    ∃ t, exec (.qctxtRdReq h b) s = .next t ∧
      Answered f
        (rspFrame (Op.qctxtRd.code s.cfg.ops) h.tag s.cfg.pfFuncId f fun k => if k = 2 then selectorWord b else descWord d k)
        g (some ⟨f, .qctxtRdReq h b⟩) s t

/-- `INTR_CTXT_RD.REQ` authorised and answered by `PRIV` with two context words for each entry: the response echoes the count and the
index list and carries the contexts (R240, R249, R254, R177, R173). -/
def Obligations.IntrCtxtRdServed : Prop :=
  ∀ (s : State) (f : FuncId) (g : GrantTable) (h : Header) (b : IRings) (c : List (Int × Int)),
    Due (.execute f (.answer 0 (.ctxt c)) g) f s → (s.chan f).dstate = .executing →
    Permitted s.cfg.pfFuncId f (s.chan f).grant (.intrCtxtRdReq h b) → WellFormed (.intrCtxtRdReq h b) →
    (c.length : Int) = b.numRings → (∀ p ∈ c, 0 ≤ p.1 ∧ p.1 < 2 ^ 32 ∧ 0 ≤ p.2 ∧ p.2 < 2 ^ 32) →
    ∃ t, exec (.intrCtxtRdReq h b) s = .next t ∧
      Answered f
        (rspFrame (Op.intrCtxtRd.code s.cfg.ops) h.tag s.cfg.pfFuncId f fun k =>
          if k = 2 then b.numRings
          else if 3 ≤ k ∧ k ≤ 10 then b.ringIndex.getD (k - 3) 0
          else if 11 ≤ k ∧ k ≤ 26 then
            if (k - 11) % 2 = 0 then (c.getD ((k - 11) / 2) (0, 0)).1 else (c.getD ((k - 11) / 2) (0, 0)).2
          else 0)
        g (some ⟨f, .intrCtxtRdReq h b⟩) s t

/-- `VF_OFFLINE.REQ` and `FMAP.REQ` authorised and answered with success: the status-only response, words 1 to 31 zero (R240, R249,
R254). That data `PRIV` may add is not read is the model's reading (log 10). -/
def Obligations.VfOfflineAndFmapServed : Prop :=
  ∀ (s : State) (f : FuncId) (g : GrantTable) (data : PrivData) (h : Header),
    Due (.execute f (.answer 0 data) g) f s → (s.chan f).dstate = .executing → 0 ≤ h.tag → h.tag ≤ 255 →
    (Permitted s.cfg.pfFuncId f (s.chan f).grant (.vfOfflineReq h) →
      ∃ t, exec (.vfOfflineReq h) s = .next t ∧
        Answered f (statusFrame (Op.vfOffline.code s.cfg.ops) h.tag s.cfg.pfFuncId f 0) g (some ⟨f, .vfOfflineReq h⟩) s t) ∧
    ∀ b : Fmap, Permitted s.cfg.pfFuncId f (s.chan f).grant (.fmapReq h b) →
      ∃ t, exec (.fmapReq h b) s = .next t ∧
        Answered f (statusFrame (Op.fmap.code s.cfg.ops) h.tag s.cfg.pfFuncId f 0) g (some ⟨f, .fmapReq h b⟩) s t

/-- `QNOTIFY_ADD.REQ`, `QNOTIFY_DEL.REQ`, `QCTXT_INV.REQ` and `QCTXT_CLR.REQ` on a granted queue, answered with success: the
status-only response (R240, R249, R254; log 10). -/
def Obligations.QueueSelectorRequestsServed : Prop :=
  ∀ (s : State) (f : FuncId) (g : GrantTable) (data : PrivData) (h : Header),
    Due (.execute f (.answer 0 data) g) f s → (s.chan f).dstate = .executing → 0 ≤ h.tag → h.tag ≤ 255 →
    (∀ b : QSel, Permitted s.cfg.pfFuncId f (s.chan f).grant (.qnotifyAddReq h b) →
      ∃ t, exec (.qnotifyAddReq h b) s = .next t ∧
        Answered f (statusFrame (Op.qnotifyAdd.code s.cfg.ops) h.tag s.cfg.pfFuncId f 0) g (some ⟨f, .qnotifyAddReq h b⟩) s t) ∧
    (∀ b : QSel, Permitted s.cfg.pfFuncId f (s.chan f).grant (.qnotifyDelReq h b) →
      ∃ t, exec (.qnotifyDelReq h b) s = .next t ∧
        Answered f (statusFrame (Op.qnotifyDel.code s.cfg.ops) h.tag s.cfg.pfFuncId f 0) g (some ⟨f, .qnotifyDelReq h b⟩) s t) ∧
    (∀ b : QSelT, Permitted s.cfg.pfFuncId f (s.chan f).grant (.qctxtInvReq h b) →
      ∃ t, exec (.qctxtInvReq h b) s = .next t ∧
        Answered f (statusFrame (Op.qctxtInv.code s.cfg.ops) h.tag s.cfg.pfFuncId f 0) g (some ⟨f, .qctxtInvReq h b⟩) s t) ∧
    ∀ b : QSelT, Permitted s.cfg.pfFuncId f (s.chan f).grant (.qctxtClrReq h b) →
      ∃ t, exec (.qctxtClrReq h b) s = .next t ∧
        Answered f (statusFrame (Op.qctxtClr.code s.cfg.ops) h.tag s.cfg.pfFuncId f 0) g (some ⟨f, .qctxtClrReq h b⟩) s t

/-- `QCTXT_WRT.REQ` authorised as R248 says and answered with success: the status-only response (R240, R254; log 10). -/
def Obligations.QctxtWrtServed : Prop :=
  ∀ (s : State) (f : FuncId) (g : GrantTable) (data : PrivData) (h : Header) (b : QCtxt),
    Due (.execute f (.answer 0 data) g) f s → (s.chan f).dstate = .executing → 0 ≤ h.tag → h.tag ≤ 255 →
    Permitted s.cfg.pfFuncId f (s.chan f).grant (.qctxtWrtReq h b) →
    ∃ t, exec (.qctxtWrtReq h b) s = .next t ∧
      Answered f (statusFrame (Op.qctxtWrt.code s.cfg.ops) h.tag s.cfg.pfFuncId f 0) g (some ⟨f, .qctxtWrtReq h b⟩) s t

/-- `INTR_CTXT_WRT.REQ`, `INTR_CTXT_INV.REQ` and `INTR_CTXT_CLR.REQ` whose ring indices are all granted, answered with success: the
status-only response (R240, R249, R254; log 10). -/
def Obligations.InterruptContextRequestsServed : Prop :=
  ∀ (s : State) (f : FuncId) (g : GrantTable) (data : PrivData) (h : Header),
    Due (.execute f (.answer 0 data) g) f s → (s.chan f).dstate = .executing → 0 ≤ h.tag → h.tag ≤ 255 →
    (∀ b : ICtxt, Permitted s.cfg.pfFuncId f (s.chan f).grant (.intrCtxtWrtReq h b) →
      ∃ t, exec (.intrCtxtWrtReq h b) s = .next t ∧
        Answered f (statusFrame (Op.intrCtxtWrt.code s.cfg.ops) h.tag s.cfg.pfFuncId f 0) g (some ⟨f, .intrCtxtWrtReq h b⟩) s t) ∧
    (∀ b : IRings, Permitted s.cfg.pfFuncId f (s.chan f).grant (.intrCtxtInvReq h b) →
      ∃ t, exec (.intrCtxtInvReq h b) s = .next t ∧
        Answered f (statusFrame (Op.intrCtxtInv.code s.cfg.ops) h.tag s.cfg.pfFuncId f 0) g (some ⟨f, .intrCtxtInvReq h b⟩) s t) ∧
    ∀ b : IRings, Permitted s.cfg.pfFuncId f (s.chan f).grant (.intrCtxtClrReq h b) →
      ∃ t, exec (.intrCtxtClrReq h b) s = .next t ∧
        Answered f (statusFrame (Op.intrCtxtClr.code s.cfg.ops) h.tag s.cfg.pfFuncId f 0) g (some ⟨f, .intrCtxtClrReq h b⟩) s t

/-- R249, R246, R245: every request that is not authorised, of any of the 15 opcodes, is answered with `STATUS_UNAUTHORIZED`; `PRIV`
is not called and no grant changes. -/
def Obligations.UnauthorisedRequestsRefused : Prop :=
  ∀ (s : State) (f : FuncId) (a : PrivAnswer) (g : GrantTable) (i : Instr),
    i.dir = .req → Due (.execute f a g) f s → (s.chan f).dstate = .executing →
    0 ≤ i.header.tag → i.header.tag ≤ 255 → ¬Permitted s.cfg.pfFuncId f (s.chan f).grant i →
    ∃ t, exec i s = .next t ∧
      Answered f (statusFrame (i.op.code s.cfg.ops) i.header.tag s.cfg.pfFuncId f (-5)) [] none s t

/-- R252: an authorised request of any opcode for which `PRIV` throws, answers out of contract, or answers data the wire cannot carry
is answered with `STATUS_FAILURE`; a negative status in contract is answered as it is. The new value of the grant tables comes with
every answer (R250); that it takes effect also when `PRIV` throws, fails or answers out of contract is the model's reading (log 23),
and data of another opcode's shape counts as data the wire cannot carry (log 10). -/
def Obligations.PrivOutcomesNormalised : Prop :=
  ∀ (s : State) (f : FuncId) (a : PrivAnswer) (g : GrantTable) (i : Instr),
    i.dir = .req → Due (.execute f a g) f s → (s.chan f).dstate = .executing →
    0 ≤ i.header.tag → i.header.tag ≤ 255 → Permitted s.cfg.pfFuncId f (s.chan f).grant i →
    (a = .throw →
      ∃ t, exec i s = .next t ∧
        Answered f (statusFrame (i.op.code s.cfg.ops) i.header.tag s.cfg.pfFuncId f (-7)) g (some ⟨f, i⟩) s t) ∧
    (∀ st data, a = .answer st data → -4 ≤ st → st ≤ -1 →
      ∃ t, exec i s = .next t ∧
        Answered f (statusFrame (i.op.code s.cfg.ops) i.header.tag s.cfg.pfFuncId f st) g (some ⟨f, i⟩) s t) ∧
    (∀ st data, a = .answer st data → (st < -4 ∨ 0 < st) →
      ∃ t, exec i s = .next t ∧
        Answered f (statusFrame (i.op.code s.cfg.ops) i.header.tag s.cfg.pfFuncId f (-7)) g (some ⟨f, i⟩) s t) ∧
    ∀ data, a = .answer 0 data →
      (∀ r, successReply ⟨i.header.tag, s.cfg.pfFuncId.toNat, f.toNat⟩ i data = some r → ¬WellFormed r) →
      ∃ t, exec i s = .next t ∧
        Answered f (statusFrame (i.op.code s.cfg.ops) i.header.tag s.cfg.pfFuncId f (-7)) g (some ⟨f, i⟩) s t

/-! ## Decoding a request (T2) and reading a response -/

/-- R238, R244: T2 latches a request that parses and goes to `EXECUTING`; a frame that does not parse, or that parses as a response,
is answered with the generic malformed-request response, its opcode and tag echoed, and the machine goes to `RESPONDING`. Nothing
else is written. -/
def Obligations.DecodeLatchesOrAnswersMalformed : Prop :=
  ∀ (s : State) (f : FuncId),
    Due (.decode f) f s → (s.chan f).dstate = .decoding → (s.chan f).rxbuf.length = 32 →
    ∃ t, step s = .next t ∧ Took f s t ∧ SameMem s t ∧ t.result = .ok ∧
      ((∃ m, parse s.cfg.ops (s.chan f).rxbuf = .ok m ∧ m.dir = .req ∧
          t.chan f = { s.chan f with req := m, dstate := .executing }) ∨
        ((∀ m, parse s.cfg.ops (s.chan f).rxbuf = .ok m → m.dir = .rsp) ∧
          t.chan f = { s.chan f with
            resp := statusFrame (opcOf (s.chan f).rxbuf) (tagOf (s.chan f).rxbuf) s.cfg.pfFuncId f (-6)
            dstate := .responding }))

/-- The five responses that carry data, read by the VF's caller: the snapshot on success, the failure kind on a negative status; no
spec state changes (R286, R188 to R195). -/
def Obligations.DataResponsesRead : Prop :=
  ∀ (s : State) (f : FuncId) (h : Header), Due (.readResponse f) f s →
    (∀ b, exec (.vfOnlineRsp h (.ok b)) s = .next (s.retire (.fields (.devInfo b)) none)) ∧
    (∀ b, exec (.qreqRsp h (.ok b)) s = .next (s.retire (.fields (.qinfo b)) none)) ∧
    (∀ b, exec (.csrRsp h (.ok b)) s = .next (s.retire (.fields (.csr b)) none)) ∧
    (∀ b, exec (.qctxtRdRsp h (.ok b)) s = .next (s.retire (.fields (.qctxt b)) none)) ∧
    (∀ b, exec (.intrCtxtRdRsp h (.ok b)) s = .next (s.retire (.fields (.intrCtxt b)) none)) ∧
    ∀ st : Int,
      exec (.vfOnlineRsp h (.fail st)) s = .next (s.retire (.status (.failed (kindOf st))) none) ∧
      exec (.qreqRsp h (.fail st)) s = .next (s.retire (.status (.failed (kindOf st))) none) ∧
      exec (.csrRsp h (.fail st)) s = .next (s.retire (.status (.failed (kindOf st))) none) ∧
      exec (.qctxtRdRsp h (.fail st)) s = .next (s.retire (.status (.failed (kindOf st))) none) ∧
      exec (.intrCtxtRdRsp h (.fail st)) s = .next (s.retire (.status (.failed (kindOf st))) none)

/-- The ten status-only responses, read by the VF's caller: `Success`, or the failure kind; no spec state changes (R286, R188,
R189, R124). A frame that does not parse is read by `status`: that is the model's reading (log 12), and so is the answer of `parse`'s
error where the status is 0. In particular the generic malformed-request response (R244), whatever opcode it echoes, is read as
`Failed(Malformed)`. -/
def Obligations.StatusResponsesRead : Prop :=
  ∀ (s : State) (f : FuncId) (h : Header), Due (.readResponse f) f s →
    let x := (s.chan f).vfRxbuf
    (exec (.vfOfflineRsp h (.ok .none)) s = .next (s.retire (.status .success) none) ∧
      exec (.qnotifyAddRsp h (.ok .none)) s = .next (s.retire (.status .success) none) ∧
      exec (.qnotifyDelRsp h (.ok .none)) s = .next (s.retire (.status .success) none) ∧
      exec (.fmapRsp h (.ok .none)) s = .next (s.retire (.status .success) none) ∧
      exec (.qctxtWrtRsp h (.ok .none)) s = .next (s.retire (.status .success) none) ∧
      exec (.qctxtInvRsp h (.ok .none)) s = .next (s.retire (.status .success) none) ∧
      exec (.qctxtClrRsp h (.ok .none)) s = .next (s.retire (.status .success) none) ∧
      exec (.intrCtxtWrtRsp h (.ok .none)) s = .next (s.retire (.status .success) none) ∧
      exec (.intrCtxtInvRsp h (.ok .none)) s = .next (s.retire (.status .success) none) ∧
      exec (.intrCtxtClrRsp h (.ok .none)) s = .next (s.retire (.status .success) none)) ∧
    (∀ st : Int,
      exec (.vfOfflineRsp h (.fail st)) s = .next (s.retire (.status (.failed (kindOf st))) none) ∧
      exec (.qnotifyAddRsp h (.fail st)) s = .next (s.retire (.status (.failed (kindOf st))) none) ∧
      exec (.qnotifyDelRsp h (.fail st)) s = .next (s.retire (.status (.failed (kindOf st))) none) ∧
      exec (.fmapRsp h (.fail st)) s = .next (s.retire (.status (.failed (kindOf st))) none) ∧
      exec (.qctxtWrtRsp h (.fail st)) s = .next (s.retire (.status (.failed (kindOf st))) none) ∧
      exec (.qctxtInvRsp h (.fail st)) s = .next (s.retire (.status (.failed (kindOf st))) none) ∧
      exec (.qctxtClrRsp h (.fail st)) s = .next (s.retire (.status (.failed (kindOf st))) none) ∧
      exec (.intrCtxtWrtRsp h (.fail st)) s = .next (s.retire (.status (.failed (kindOf st))) none) ∧
      exec (.intrCtxtInvRsp h (.fail st)) s = .next (s.retire (.status (.failed (kindOf st))) none) ∧
      exec (.intrCtxtClrRsp h (.fail st)) s = .next (s.retire (.status (.failed (kindOf st))) none)) ∧
    (∀ e, parse s.cfg.ops x = .error e →
      (x.length ≠ 32 → step s = .next (s.retire (.error (.malformedMessage .length)) none)) ∧
      (x.length = 32 → dirOf x = 0 → step s = .next (s.retire (.error (.malformedMessage .notAResponse)) none)) ∧
      (x.length = 32 → dirOf x = 1 → 0 < s32 (word x 1) →
        step s = .next (s.retire (.error (.malformedMessage .positiveStatus)) none)) ∧
      (x.length = 32 → dirOf x = 1 → s32 (word x 1) < 0 →
        step s = .next (s.retire (.status (.failed (kindOf (s32 (word x 1))))) none)) ∧
      (x.length = 32 → dirOf x = 1 → s32 (word x 1) = 0 → step s = .next (s.retire (.error e) none))) ∧
    ∀ (o : Nat) (tag : Int), o ≤ 127 → 0 ≤ tag → tag ≤ 255 → x = statusFrame o tag s.cfg.pfFuncId f (-6) →
      step s = .next (s.retire (.status (.failed .malformed)) none)

/-- A message that reaches the wrong side: T2 answers a response with the generic malformed-request response (R238, R105); a request
read as a response raises `MalformedMessage` (R188). Every one of the 30 kinds. -/
def Obligations.MisdirectedMessagesRejected : Prop :=
  ∀ (s : State) (f : FuncId) (i : Instr),
    (i.dir = .rsp → Due (.decode f) f s → (s.chan f).dstate = .decoding →
      0 ≤ i.header.tag → i.header.tag ≤ 255 →
      ∃ t, exec i s = .next t ∧ Took f s t ∧ SameMem s t ∧
        t.chan f = { s.chan f with
          resp := statusFrame (i.op.code s.cfg.ops) i.header.tag s.cfg.pfFuncId f (-6), dstate := .responding }) ∧
    (i.dir = .req → Due (.readResponse f) f s →
      exec i s = .next (s.retire (.error (.malformedMessage .notAResponse)) none))

/-! ## The dispatcher's transitions -/

/-- R237: T1, with both outcomes of the handshake. -/
def Obligations.AcceptTakesTheFrame : Prop :=
  ∀ (s : State) (f : FuncId) (hs : Bool),
    Due (.accept f hs) f s → (s.chan f).dstate = .idle → (s.chan f).pend = true →
    ∃ t, step s = .next t ∧ Took f s t ∧ SameMem s t ∧
      if hs then
        t.result = .error .hardwareFault ∧ t.chan f = { s.chan f with ackShadow := false, dstate := .faulted }
      else
        t.result = .ok ∧
          t.chan f = { s.chan f with
            ackShadow := false, pend := false, ack := false, rxbuf := readSlot s.mem f, dstate := .decoding }

/-- R241: T4, with its three outcomes: the response is in the slot, the machine holds on a slot that is not free, or it faults. -/
def Obligations.RespondSendsHoldsOrFaults : Prop :=
  ∀ (s : State) (f : FuncId) (hs : Bool),
    Due (.respond f hs) f s → (s.chan f).dstate = .responding → Memory.wf s.mem = true →
    (s.chan f).resp.length = 32 → dstOf (s.chan f).resp = f.toNat →
    ∃ t, step s = .next t ∧ Took f s t ∧
      if (s.chan f).pend = true ∨ (s.chan f).ack = true then
        t.result = .error .channelBusy ∧ SameMem s t ∧ t.chan f = s.chan f
      else
        readSlot t.mem f = (s.chan f).resp ∧ SameMemBut f s t ∧
          if hs then
            t.result = .error .hardwareFault ∧ t.chan f = { s.chan f with ackShadow := true, dstate := .faulted }
          else
            t.result = .ok ∧ t.chan f = { s.chan f with ackShadow := true, ack := true, dstate := .idle }

/-- R242: T5 takes the second request out of the slot and puts the busy response there, undecoded; the first request keeps its
place. -/
def Obligations.BusyRejectKeepsTheFirstRequest : Prop :=
  ∀ (s : State) (f : FuncId) (hsReceive hsSend : Bool),
    Due (.busyReject f hsReceive hsSend) f s →
    ((s.chan f).dstate = .decoding ∨ (s.chan f).dstate = .executing ∨ (s.chan f).dstate = .responding) →
    (s.chan f).pend = true → Memory.wf s.mem = true →
    ∃ t, step s = .next t ∧ Took f s t ∧
      if hsReceive then
        t.result = .error .hardwareFault ∧ SameMem s t ∧
          t.chan f = { s.chan f with ackShadow := false, dstate := .faulted }
      else
        readSlot t.mem f =
            statusFrame (opcOf (readSlot s.mem f)) (tagOf (readSlot s.mem f)) s.cfg.pfFuncId f (-4) ∧
          SameMemBut f s t ∧
          if hsSend then
            t.result = .error .hardwareFault ∧
              t.chan f = { s.chan f with pend := false, ack := false, ackShadow := true, dstate := .faulted }
          else t.result = .ok ∧ t.chan f = { s.chan f with pend := false, ack := true, ackShadow := true }

/-- R257: only a `HardwareFault` of T1, T4 or T5 enters `FAULTED`; the three buffers keep their values and no other channel is
touched (under the invariant, `RESP[f]` is a frame for `f`, so T4 touches no other channel either). -/
def Obligations.OnlyAHardwareFaultEntersFaulted : Prop :=
  ∀ (s t : State) (f : FuncId),
    Inv s → step s = .next t → (s.chan f).dstate ≠ .faulted → (t.chan f).dstate = .faulted →
    t.result = .error .hardwareFault ∧
    (∃ hs hs', s.sched.head? = some (.accept f hs) ∨ s.sched.head? = some (.respond f hs) ∨
      s.sched.head? = some (.busyReject f hs hs')) ∧
    (t.chan f).rxbuf = (s.chan f).rxbuf ∧ (t.chan f).req = (s.chan f).req ∧ (t.chan f).resp = (s.chan f).resp ∧
    ∀ k, k ≠ f → t.chan k = s.chan k

/-- R258: no step but `hw_init(false)` and power-on reset leaves `FAULTED`; in it T1 to T5 change no channel and no memory; and
`hw_init(false)` leaves it for `IDLE`. That a transition that is not enabled changes nothing is the model's reading (log 2). -/
def Obligations.FaultedIsTerminal : Prop :=
  ∀ (s t : State) (f : FuncId) (a : Action),
    Due a f s → step s = .next t → (s.chan f).dstate = .faulted →
    (keepsService a = true → (t.chan f).dstate = .faulted) ∧
    ((∃ hs hs' x g, a = .accept f hs ∨ a = .decode f ∨ a = .execute f x g ∨ a = .respond f hs ∨
        a = .busyReject f hs hs') → t.chans = s.chans ∧ t.mem = s.mem) ∧
    (a = .hwInit .pf → (t.chan f).dstate = .idle)

/-! ## The handshake -/

/-- R207: `send(VF(f), x)`. The frame's content is not examined. -/
def Obligations.VfSend : Prop :=
  ∀ (s : State) (f : FuncId) (x : Frame) (hs : Bool),
    Due (.sendVf f x hs) f s → x.length = 32 → Memory.wf s.mem = true →
    ∃ t, step s = .next t ∧ Took f s t ∧
      if (s.chan f).outstanding = true ∨ (s.chan f).pend = true ∨ (s.chan f).ack = true then
        t.result = .error .channelBusy ∧ SameMem s t ∧ t.chan f = s.chan f
      else
        readSlot t.mem f = x ∧ SameMemBut f s t ∧
          if hs then t.result = .error .hardwareFault ∧ t.chan f = s.chan f
          else t.result = .ok ∧ t.chan f = { s.chan f with pend := true, outstanding := true }

/-- R208, R227: `send(PF, x)` goes to the channel the frame's `DST` names, and to none where there is no such channel. -/
def Obligations.PfSend : Prop :=
  ∀ (s : State) (x : Frame) (f : FuncId) (hs : Bool),
    s.sched.head? = some (.sendPf x hs) → x.length = 32 → dstOf x = f.toNat → Memory.wf s.mem = true →
    ∃ t, step s = .next t ∧ Took f s t ∧
      if s.hasChan f = false then
        t.result = .error (.invalidArgument .noSuchChannel) ∧ SameMem s t ∧ t.chans = s.chans
      else if (s.chan f).pend = true ∨ (s.chan f).ack = true then
        t.result = .error .channelBusy ∧ SameMem s t ∧ t.chan f = s.chan f
      else
        readSlot t.mem f = x ∧ SameMemBut f s t ∧
          if hs then t.result = .error .hardwareFault ∧ t.chan f = { s.chan f with ackShadow := true }
          else t.result = .ok ∧ t.chan f = { s.chan f with ackShadow := true, ack := true }

/-- R209, R211: `receive(PF, f)`; the result carries the channel. -/
def Obligations.PfReceive : Prop :=
  ∀ (s : State) (f : FuncId) (hs : Bool), Due (.receivePf f hs) f s →
    ∃ t, step s = .next t ∧ Took f s t ∧ SameMem s t ∧
      if (s.chan f).pend = false then t.result = .error .noMessage ∧ t.chan f = s.chan f
      else if hs then t.result = .error .hardwareFault ∧ t.chan f = { s.chan f with ackShadow := false }
      else
        t.result = .frame (some f) (readSlot s.mem f) ∧
          t.chan f = { s.chan f with ackShadow := false, pend := false, ack := false }

/-- R210, R211: `receive(VF(f))`. -/
def Obligations.VfReceive : Prop :=
  ∀ (s : State) (f : FuncId) (hs : Bool), Due (.receiveVf f hs) f s →
    ∃ t, step s = .next t ∧ Took f s t ∧ SameMem s t ∧
      if (s.chan f).ack = false then t.result = .error .noMessage ∧ t.chan f = s.chan f
      else if hs then t.result = .error .hardwareFault ∧ t.chan f = s.chan f
      else
        t.result = .frame none (readSlot s.mem f) ∧
          t.chan f = { s.chan f with ack := false, outstanding := false, vfRxbuf := readSlot s.mem f }

/-- R212: `clear_ack` in both roles; the shadow is cleared in the PF role only. -/
def Obligations.ClearAckFreesTheSlot : Prop :=
  ∀ (s : State) (f : FuncId) (hs : Bool),
    (Due (.clearAckPf f hs) f s →
      ∃ t, step s = .next t ∧ Took f s t ∧ SameMem s t ∧
        if hs then
          t.result = .error .hardwareFault ∧ t.chan f = { s.chan f with outstanding := false, ackShadow := false }
        else
          t.result = .ok ∧
            t.chan f = { s.chan f with outstanding := false, ackShadow := false, pend := false, ack := false }) ∧
    (Due (.clearAckVf f hs) f s →
      ∃ t, step s = .next t ∧ Took f s t ∧ SameMem s t ∧
        if hs then t.result = .error .hardwareFault ∧ t.chan f = { s.chan f with outstanding := false }
        else t.result = .ok ∧ t.chan f = { s.chan f with outstanding := false, pend := false, ack := false })

/-- R213, R214: the interrupt enables of both roles, which change nothing else. -/
def Obligations.InterruptEnablesAreSetAndCleared : Prop :=
  ∀ (s : State) (f : FuncId), s.hasChan f = true →
    (s.sched.head? = some (.enableInterrupts .pf) →
      ∃ t, step s = .next t ∧ SameRest s t ∧ SameMem s t ∧ t.result = .ok ∧
        t.chan f = { s.chan f with intrEnPf := true }) ∧
    (s.sched.head? = some (.disableInterrupts .pf) →
      ∃ t, step s = .next t ∧ SameRest s t ∧ SameMem s t ∧ t.result = .ok ∧
        t.chan f = { s.chan f with intrEnPf := false }) ∧
    (s.sched.head? = some (.enableInterrupts (.vf f)) →
      ∃ t, step s = .next t ∧ Took f s t ∧ SameMem s t ∧ t.result = .ok ∧
        t.chan f = { s.chan f with intrEnVf := true }) ∧
    (s.sched.head? = some (.disableInterrupts (.vf f)) →
      ∃ t, step s = .next t ∧ Took f s t ∧ SameMem s t ∧ t.result = .ok ∧
        t.chan f = { s.chan f with intrEnVf := false })

/-- R300: the interrupt lines are these functions of the state. -/
def Obligations.InterruptLinesFollowTheFlags : Prop :=
  ∀ s : State, Inv s →
    (irqPf s = true ↔ ∃ f, s.hasChan f = true ∧ (s.chan f).pend = true ∧ (s.chan f).intrEnPf = true) ∧
    ∀ f, (irqVf f s = true ↔ (s.chan f).ack = true ∧ (s.chan f).intrEnVf = true)

/-- R322: `hw_init(false)` resets the shared and the PF-side rows of every channel, records its base, and leaves the VF-private state,
the grants and the slots alone. `RXBUF`, `REQ` and `RESP` become unspecified: nothing is said of them. -/
def Obligations.PfInitialisation : Prop :=
  ∀ s : State, s.sched.head? = some (.hwInit .pf) →
    ∃ t, step s = .next t ∧ t.result = .ok ∧ t.cfg = s.cfg ∧ (∀ g, t.hasChan g = s.hasChan g) ∧ SameMem s t ∧
      t.pfBase = Config.mboxBase .pf ∧
      ∀ f, s.hasChan f = true →
        (t.chan f).pend = false ∧ (t.chan f).ack = false ∧ (t.chan f).ackShadow = false ∧
        (t.chan f).intrEnPf = false ∧ (t.chan f).dstate = .idle ∧ (t.chan f).outstanding = false ∧
        (t.chan f).grant = (s.chan f).grant ∧ SameVfSide (s.chan f) (t.chan f)

/-- R323: `hw_init(true)` by VF `f` resets the shared and the VF-side rows of its channel, records its base, and leaves the PF side,
the grants, the slots and every other channel alone. `SENT`, `VF_RXBUF` and `VF_REQ` become unspecified: nothing is said of
them. -/
def Obligations.VfInitialisation : Prop :=
  ∀ (s : State) (f : FuncId), Due (.hwInit (.vf f)) f s →
    ∃ t, step s = .next t ∧ t.result = .ok ∧ t.cfg = s.cfg ∧ t.pfBase = s.pfBase ∧
      (∀ g, t.hasChan g = s.hasChan g) ∧ (∀ g, g ≠ f → t.chan g = s.chan g) ∧ SameMem s t ∧
      (t.chan f).vfBase = Config.mboxBase (.vf f) ∧
      (t.chan f).pend = false ∧ (t.chan f).ack = false ∧ (t.chan f).outstanding = false ∧
      (t.chan f).intrEnVf = false ∧ (t.chan f).tagNext = 0 ∧ (t.chan f).vstate = .idle ∧
      (t.chan f).vfPolls = 0 ∧ (t.chan f).vfRetry = 0 ∧ (t.chan f).vfHf = false ∧
      (t.chan f).vfFaulted = false ∧ SamePfSide (s.chan f) (t.chan f)

/-! ## The VF requester -/

/-- R278, R277: V1. A faulted channel and a request that cannot be encoded are refused at once; a stale frame is drained; the tag is
spent whether or not the `send` succeeds; a failed handshake of the `send` ends the wait at once. -/
def Obligations.RequesterStarts : Prop :=
  ∀ (s : State) (f : FuncId) (req : Request) (hsR hsS : Bool),
    Due (.start f req hsR hsS) f s → (s.chan f).vstate = .idle → Memory.wf s.mem = true →
    let c := s.chan f
    let m := req.withHeader ⟨c.tagNext.toNat, f.toNat, s.cfg.pfFuncId.toNat⟩
    let stale : Prop := c.ack = true ∧ c.outstanding = false
    ∃ t, step s = .next t ∧ Took f s t ∧
      (c.vfFaulted = true → t.result = .error .hardwareFault ∧ SameMem s t ∧ t.chan f = c) ∧
      (c.vfFaulted = false → ¬WellFormed m →
        (∃ i, t.result = .error (.invalidArgument i)) ∧ SameMem s t ∧ t.chan f = c) ∧
      (c.vfFaulted = false → WellFormed m → stale → hsR = true →
        t.result = .error .hardwareFault ∧ SameMem s t ∧ t.chan f = c) ∧
      (c.vfFaulted = false → WellFormed m → (stale → hsR = false) →
        ∃ c1 : Chan,
          (stale → c1 = { c with
            ack := false, outstanding := false, vfRxbuf := readSlot s.mem f, tagNext := c.tagNext + 1 }) ∧
          (¬stale → c1 = { c with tagNext := c.tagNext + 1 }) ∧
          if c1.outstanding = true ∨ c1.pend = true ∨ c1.ack = true then
            t.result = .error .channelBusy ∧ SameMem s t ∧ t.chan f = c1
          else
            readSlot t.mem f = encode s.cfg.ops m ∧ SameMemBut f s t ∧ t.result = .pending ∧
              if hsS then
                t.chan f = { c1 with
                  sent := encode s.cfg.ops m, vfReq := req, vfRetry := 0, vfPolls := s.cfg.pollMax, vfHf := true
                  vstate := .wait }
              else
                t.chan f = { c1 with
                  sent := encode s.cfg.ops m, vfReq := req, vfRetry := 0, vfPolls := 0, vfHf := false, vstate := .wait
                  pend := true, outstanding := true })

/-- R279, R280: one poll. A correlated frame ends the transaction and is returned; any other frame is dropped and counted. -/
def Obligations.RequesterPolls : Prop :=
  ∀ (s : State) (f : FuncId) (hs : Bool),
    Due (.poll f hs) f s → (s.chan f).vstate = .wait → (s.chan f).vfPolls < s.cfg.pollMax →
    (s.chan f).sent.length = 32 →
    let c := s.chan f
    let y := readSlot s.mem f
    let c1 : Chan := { c with ack := false, outstanding := false, vfRxbuf := y }
    ∃ t, step s = .next t ∧ Took f s t ∧ SameMem s t ∧
      if c.ack = false then t.result = .pending ∧ t.chan f = { c with vfPolls := c.vfPolls + 1 }
      else if hs then t.result = .pending ∧ t.chan f = { c with vfHf := true, vfPolls := s.cfg.pollMax }
      else if isResponse c.sent y = .ok true then t.result = .frame none y ∧ t.chan f = { c1 with vstate := .idle }
      else t.result = .pending ∧ t.chan f = { c1 with vfPolls := c.vfPolls + 1 }

/-- R281, R282, R277: one retry. `clear_ack`, then the same opcode and body with a fresh tag. The `send` fails only after a failed
handshake. -/
def Obligations.RequesterRetries : Prop :=
  ∀ (s : State) (f : FuncId) (hsC hsS : Bool), Inv s →
    Due (.retry f hsC hsS) f s → (s.chan f).vstate = .wait → s.cfg.pollMax ≤ (s.chan f).vfPolls →
    (s.chan f).vfRetry < s.cfg.retryMax →
    let c := s.chan f
    let x := encode s.cfg.ops (c.vfReq.withHeader ⟨c.tagNext.toNat, f.toNat, s.cfg.pfFuncId.toNat⟩)
    let c1 : Chan := { c with
      outstanding := false, vfRetry := c.vfRetry + 1, tagNext := c.tagNext + 1, sent := x }
    ∃ t, step s = .next t ∧ Took f s t ∧ t.result = .pending ∧
      if hsC = true ∧ (c.pend = true ∨ c.ack = true) then
        SameMem s t ∧ t.chan f = { c1 with vfPolls := s.cfg.pollMax, vfHf := true }
      else
        readSlot t.mem f = x ∧ SameMemBut f s t ∧
          if hsS then
            t.chan f = { c1 with pend := false, ack := false, vfPolls := s.cfg.pollMax, vfHf := true }
          else
            t.chan f = { c1 with pend := true, ack := false, outstanding := true, vfPolls := 0, vfHf := false }

/-- R281, R283, R284: giving up. The channel is cleared, the error is `HardwareFault` and the channel faulted when the latest failure
was one, else `Timeout`. -/
def Obligations.RequesterGivesUp : Prop :=
  ∀ (s : State) (f : FuncId) (hsC : Bool),
    Due (.giveUp f hsC) f s → (s.chan f).vstate = .wait → s.cfg.pollMax ≤ (s.chan f).vfPolls →
    (s.chan f).vfRetry = s.cfg.retryMax →
    let c := s.chan f
    ∃ t, step s = .next t ∧ Took f s t ∧ SameMem s t ∧
      if hsC then
        t.result = .error .hardwareFault ∧
          t.chan f = { c with outstanding := false, vfHf := true, vstate := .idle, vfFaulted := true }
      else if c.vfHf then
        t.result = .error .hardwareFault ∧
          t.chan f = { c with
            outstanding := false, pend := false, ack := false, vstate := .idle, vfFaulted := true }
      else
        t.result = .error .timeout ∧
          t.chan f = { c with outstanding := false, pend := false, ack := false, vstate := .idle }

/-- R341: the wait of VF `f` is bounded by its own counters. A transaction starts with at most `(1 + VF_RETRY_MAX) * VF_POLL_MAX`
polls to go; each poll uses one up or ends the transaction; a retry adds none and lowers the measure; giving up ends it; and no
step of another agent touches the counters. -/
def Obligations.WaitIsBoundedByTheCounters : Prop :=
  ∀ (s t : State) (f : FuncId) (a : Action), Inv s → s.hasChan f = true →
    s.sched.head? = some a → step s = .next t →
    (sideOf a ≠ .vf f → a ≠ .powerOn →
      (t.chan f).vstate = (s.chan f).vstate ∧ pollsLeft t.cfg (t.chan f) = pollsLeft s.cfg (s.chan f) ∧
      waitMeasure t.cfg (t.chan f) = waitMeasure s.cfg (s.chan f)) ∧
    ((∃ req h h', a = .start f req h h') → (s.chan f).vstate = .idle → (t.chan f).vstate = .wait →
      pollsLeft t.cfg (t.chan f) ≤ (1 + s.cfg.retryMax) * s.cfg.pollMax) ∧
    ((s.chan f).vstate = .wait →
      ((∃ h, a = .poll f h) → (s.chan f).vfPolls < s.cfg.pollMax →
        (t.chan f).vstate = .idle ∨
          (pollsLeft t.cfg (t.chan f) < pollsLeft s.cfg (s.chan f) ∧
            waitMeasure t.cfg (t.chan f) < waitMeasure s.cfg (s.chan f))) ∧
      ((∃ h h', a = .retry f h h') → s.cfg.pollMax ≤ (s.chan f).vfPolls → (s.chan f).vfRetry < s.cfg.retryMax →
        pollsLeft t.cfg (t.chan f) ≤ pollsLeft s.cfg (s.chan f) ∧
          waitMeasure t.cfg (t.chan f) < waitMeasure s.cfg (s.chan f)) ∧
      ((∃ h, a = .giveUp f h) → s.cfg.pollMax ≤ (s.chan f).vfPolls → (s.chan f).vfRetry = s.cfg.retryMax →
        (t.chan f).vstate = .idle) ∧
      ((s.chan f).vfPolls < s.cfg.pollMax ∨
        (s.cfg.pollMax ≤ (s.chan f).vfPolls ∧
          ((s.chan f).vfRetry < s.cfg.retryMax ∨ (s.chan f).vfRetry = s.cfg.retryMax))))

/-! ## The machine as a whole -/

/-- R255, R243: `handle_request` is total: every 32-word frame gets one 32-word response with the header of R243 and a status that is
zero or one of −1 to −7; it calls `PRIV` exactly on an authorised request. Called by the PF host (R305) as a step of its own, it returns
that response, and it writes nothing but the grant rows a called `PRIV` gave new values; that it is such a step and leaves the dispatch
machine alone is the model's reading (log 24), that the rows change whatever `PRIV` answered is too (log 23). -/
def Obligations.HandleRequestAlwaysAnswers : Prop :=
  (∀ (cfg : Config.Params) (f : FuncId) (g : Grant) (y : Frame) (a : PrivAnswer), y.length = 32 →
    let r := handleRequest cfg f g y a
    r.1.length = 32 ∧ word r.1 0 = rspHeader (opcOf y) (tagOf y) cfg.pfFuncId f ∧ -7 ≤ s32 (word r.1 1) ∧
      s32 (word r.1 1) ≤ 0 ∧
      ∀ c, r.2 = some c ↔
        c.f = f ∧ parse cfg.ops y = .ok c.m ∧ c.m.dir = .req ∧ Permitted cfg.pfFuncId f g c.m) ∧
  ∀ (s : State) (f : FuncId) (y : Frame) (a : PrivAnswer) (g : GrantTable),
    Due (.handleRequest f y a g) f s → y.length = 32 →
    let r := handleRequest s.cfg f (s.chan f).grant y a
    ∃ t, step s = .next t ∧ Regranted (if r.2.isSome then g else []) (.frame none r.1) r.2 s t

/-- R255: over T2 and T3 the machine computes `RESP[f] = handle_request(f, RXBUF[f])`, and calls `PRIV` exactly when
`handle_request` does. A malformed frame has its response after T2: T3 is then not enabled, and that the scheduled T3 changes nothing
is the model's choice (log 2). -/
def Obligations.MachineComputesHandleRequest : Prop :=
  ∀ (s : State) (f : FuncId) (a : PrivAnswer) (g : GrantTable) (rest : List Action),
    s.sched = .decode f :: .execute f a g :: rest → s.hasChan f = true → (s.chan f).dstate = .decoding →
    (s.chan f).rxbuf.length = 32 →
    ∃ u t, step s = .next u ∧ step u = .next t ∧ t.sched = rest ∧ (t.chan f).dstate = .responding ∧
      (t.chan f).resp = (handleRequest s.cfg f (s.chan f).grant (s.chan f).rxbuf a).1 ∧
      t.priv = (handleRequest s.cfg f (s.chan f).grant (s.chan f).rxbuf a).2 ∧ SameMem s t

/-- R340, R256: a request that is pending while its function is idle is answered by T1 to T4: the slot then holds the response of
`handle_request` to the frame that was there, `ACK[f]` is set, the machine is idle again, and every other channel keeps all but
its grant row. For a malformed frame T3 is not enabled, and that the scheduled T3 changes nothing is the model's choice (log 2). -/
def Obligations.PendingRequestAnsweredInFourSteps : Prop :=
  ∀ (s : State) (f : FuncId) (a : PrivAnswer) (g : GrantTable) (rest : List Action),
    s.sched = .accept f false :: .decode f :: .execute f a g :: .respond f false :: rest →
    s.hasChan f = true → (s.chan f).dstate = .idle → (s.chan f).pend = true → Memory.wf s.mem = true →
    ∃ s1 s2 s3 t, step s = .next s1 ∧ step s1 = .next s2 ∧ step s2 = .next s3 ∧ step s3 = .next t ∧
      t.sched = rest ∧ t.result = .ok ∧
      (t.chan f).dstate = .idle ∧ (t.chan f).pend = false ∧ (t.chan f).ack = true ∧ (t.chan f).ackShadow = true ∧
      readSlot t.mem f = (handleRequest s.cfg f (s.chan f).grant (readSlot s.mem f) a).1 ∧
      SameMemBut f s t ∧
      ∀ k, k ≠ f → s.hasChan k = true → ∃ gr, t.chan k = { s.chan k with grant := gr }

/-- R309: whenever a step calls `PRIV`, the request is authorised for the function whose channel it arrived on, under the grant in
force at that moment; every queue and every checked vector it names is granted to that function. -/
def Obligations.PrivIsCalledOnlyWithinTheGrant : Prop :=
  ∀ (s t : State) (c : PrivCall), step s = .next t → t.priv = some c →
    s.hasChan c.f = true ∧ Permitted s.cfg.pfFuncId c.f (s.chan c.f).grant c.m ∧
    (∀ q ∈ queueIds c.m, GrantsQueue (s.chan c.f).grant q) ∧
    (∀ v ∈ vectorIds c.m, GrantsVector (s.chan c.f).grant v) ∧
    ((∃ a g, s.sched.head? = some (.execute c.f a g) ∧ c.m = (s.chan c.f).req) ∨
      ∃ y a g, s.sched.head? = some (.handleRequest c.f y a g) ∧ parse s.cfg.ops y = .ok c.m)

/-- The invariant: the two flags are never both set (R43), at most one accepted request and one unsent response stand, each well
formed while its state says it is meaningful (R28, R29, R45), the counters stay in their bounds (R38), the memory keeps its
canonical form inside the slots of `VFSET` (R64), and `VFSET` holds each function once and never the PF (R9). Every step keeps
it. -/
def Obligations.EveryStepKeepsTheInvariant : Prop :=
  ∀ s t : State, Inv s → step s = .next t → Inv t

/-- The state after reset satisfies the invariant. -/
def Obligations.ResetSatisfiesTheInvariant : Prop := Inv State.reset

/-- R46, R321: the reset table, of the state after reset and of every state that power-on reset leaves. Nothing is said of what the
table leaves unspecified. -/
def Obligations.ResetTableHolds : Prop :=
  (∀ f, State.reset.hasChan f = true → ResetRow (State.reset.chan f)) ∧
  ∀ s : State, s.sched.head? = some .powerOn →
    ∃ t, step s = .next t ∧ t.cfg = s.cfg ∧ (∀ f, t.hasChan f = s.hasChan f) ∧
      ∀ f, s.hasChan f = true → ResetRow (t.chan f)

/-- R44: `PEND[f] = 1` implies `OUTSTANDING[f] = 1`, kept by every step in which no handshake fails. -/
def Obligations.PendingImpliesOutstanding : Prop :=
  ∀ (s t : State) (a : Action), Inv s → s.sched.head? = some a → noHsFail a = true → step s = .next t →
    (∀ f, s.hasChan f = true → (s.chan f).pend = true → (s.chan f).outstanding = true) →
    ∀ f, t.hasChan f = true → (t.chan f).pend = true → (t.chan f).outstanding = true

/-- R307, R64: what each side can write. The PF never touches the VF-private state, sets no `PEND` and no `OUTSTANDING`; VF `f` touches
no other channel, no PF-private state, no grant, no byte outside its slot, and sets no `ACK`; a pure operation writes nothing. The
resource manager's change of the grant tables is one step (R41, R338): it replaces the rows it names and writes nothing else. -/
def Obligations.RolesWriteOnlyTheirState : Prop :=
  ∀ (s t : State) (a : Action), s.sched.head? = some a → step s = .next t →
    (sideOf a = .pf → ∀ f, s.hasChan f = true →
      SameVfSide (s.chan f) (t.chan f) ∧ ((t.chan f).pend = true → (s.chan f).pend = true) ∧
      ((t.chan f).outstanding = true → (s.chan f).outstanding = true)) ∧
    (∀ f, sideOf a = .vf f →
      (∀ k, k ≠ f → t.chan k = s.chan k) ∧ SamePfSide (s.chan f) (t.chan f) ∧
      ((t.chan f).ack = true → (s.chan f).ack = true) ∧ SameMemBut f s t) ∧
    (sideOf a = .neither → a ≠ .powerOn → t.chans = s.chans ∧ t.mem = s.mem ∧ t.pfBase = s.pfBase) ∧
    ∀ g, a = .setGrants g → Regranted g .ok none s t

/-- R307, R64: what a VF can learn. Two states that agree on what VF `f` sees (the parameters, VF `f`'s private state, the flags and
`OUTSTANDING` of its channel, its slot) and on the index of the next free values, which the hypothesis `s.inits = s'.inits` inside
`SameVfView` says (log 5), answer the same step of VF `f` with the same result, and the two states it leaves agree on all that again,
whatever the PF's private state, the grants and the other channels hold. The free values that `hw_init(true)` leaves are the same in
both because their index is: that is the model's choice (log 5). -/
def Obligations.VfStepDependsOnItsChannelOnly : Prop :=
  ∀ (s s' : State) (f : FuncId) (a : Action),
    sideOf a = .vf f → s.sched.head? = some a → s'.sched.head? = some a → SameVfView f s s' →
    ∃ t t', step s = .next t ∧ step s' = .next t' ∧ t.result = t'.result ∧ SameVfView f t t'
end

