-- ==== Sys2Proof/Laws/Memory.lean ====
section
/-! SUPPORT. The slot memory: every operation keeps the canonical form; a read after a write gives the value written at the
address written and the old value everywhere else; a word, and a frame, read back as they were written. -/

namespace Sys2Proof.Machine

/-- Every listed address is above `a`. -/
def Memory.above (a : Nat) (m : Memory) : Prop := ∀ p ∈ m, a < p.1

theorem Memory.wf_cons {a : Nat} {b : BitVec 8} {m : Memory} :
    Memory.wf ((a, b) :: m) = true ↔ b ≠ Memory.unlisted ∧ Memory.above a m ∧ Memory.wf m = true := by
  induction m generalizing a b with
  | nil => simp [Memory.wf, Memory.above]
  | cons p rest ih =>
    obtain ⟨a', b'⟩ := p
    simp only [Memory.wf, Bool.and_eq_true, bne_iff_ne, decide_eq_true_eq]
    constructor
    · rintro ⟨⟨hb, hlt⟩, hrest⟩
      refine ⟨hb, ?_, hrest⟩
      intro q hq
      simp only [List.mem_cons] at hq
      rcases hq with rfl | hq
      · exact hlt
      · have := (ih.mp hrest).2.1 q hq
        omega
    · rintro ⟨hb, habove, hrest⟩
      exact ⟨⟨hb, habove (a', b') (by simp)⟩, hrest⟩

theorem Memory.write_above {m : Memory} {a k : Nat} {v : BitVec 8} (h : Memory.above a m) (hk : a < k) :
    Memory.above a (m.write k v) := by
  induction m with
  | nil =>
    intro p hp
    simp only [Memory.write] at hp
    split at hp <;> simp_all
  | cons q rest ih =>
    obtain ⟨a', b'⟩ := q
    have hrest : Memory.above a rest := fun p hp => h p (by simp [hp])
    have hq : a < a' := h (a', b') (by simp)
    intro p hp
    simp only [Memory.write] at hp
    split at hp
    · split at hp
      · exact h p hp
      · simp only [List.mem_cons] at hp
        rcases hp with rfl | rfl | hp
        · exact hk
        · exact hq
        · exact hrest p hp
    · split at hp
      · split at hp
        · exact hrest p hp
        · simp only [List.mem_cons] at hp
          rcases hp with rfl | hp
          · exact hk
          · exact hrest p hp
      · simp only [List.mem_cons] at hp
        rcases hp with rfl | hp
        · exact hq
        · exact ih hrest p hp

/-- A byte write keeps the canonical form. -/
theorem Memory.write_wf {m : Memory} (k : Nat) (v : BitVec 8) (h : m.wf = true) : (m.write k v).wf = true := by
  induction m with
  | nil =>
    simp only [Memory.write]
    split
    · rfl
    · simp [Memory.wf, *]
  | cons q rest ih =>
    obtain ⟨a, b⟩ := q
    have hc := Memory.wf_cons.mp h
    simp only [Memory.write]
    split
    · rename_i hlt
      split
      · exact h
      · rename_i hv
        refine Memory.wf_cons.mpr ⟨hv, ?_, h⟩
        intro p hp
        simp only [List.mem_cons] at hp
        rcases hp with rfl | hp
        · exact hlt
        · have := hc.2.1 p hp
          omega
    · split
      · rename_i hle heq
        subst heq
        split
        · exact hc.2.2
        · rename_i hv
          exact Memory.wf_cons.mpr ⟨hv, hc.2.1, hc.2.2⟩
      · rename_i hle hne
        exact Memory.wf_cons.mpr ⟨hc.1, Memory.write_above hc.2.1 (by omega), ih hc.2.2⟩

theorem Memory.read_above {m : Memory} {k : Nat} (h : Memory.above k m) : m.read k = Memory.unlisted := by
  induction m with
  | nil => rfl
  | cons q rest ih =>
    obtain ⟨a, b⟩ := q
    have hk : k < a := h (a, b) (by simp)
    have : a ≠ k := by omega
    simp only [Memory.read, this, if_false]
    exact ih fun p hp => h p (by simp [hp])

/-- Reading the address just written gives the value written. -/
theorem Memory.read_write_same {m : Memory} (k : Nat) (v : BitVec 8) (h : m.wf = true) : (m.write k v).read k = v := by
  induction m with
  | nil =>
    simp only [Memory.write]
    split
    · simp_all [Memory.read]
    · simp [Memory.read]
  | cons q rest ih =>
    obtain ⟨a, b⟩ := q
    have hc := Memory.wf_cons.mp h
    simp only [Memory.write]
    split
    · rename_i hlt
      split
      · rename_i hv
        rw [hv]
        refine Memory.read_above ?_
        intro p hp
        simp only [List.mem_cons] at hp
        rcases hp with rfl | hp
        · exact hlt
        · have := hc.2.1 p hp
          omega
      · simp [Memory.read]
    · split
      · rename_i hle heq
        subst heq
        split
        · rename_i hv
          rw [hv]
          exact Memory.read_above hc.2.1
        · simp [Memory.read]
      · rename_i hle hne
        simp only [Memory.read, hne, if_false]
        exact ih hc.2.2

/-- Reading any other address gives what it gave before. -/
theorem Memory.read_write_other {m : Memory} (k j : Nat) (v : BitVec 8) (hj : j ≠ k) :
    (m.write k v).read j = m.read j := by
  induction m with
  | nil =>
    simp only [Memory.write]
    split <;> simp [Memory.read, Ne.symm hj]
  | cons q rest ih =>
    obtain ⟨a, b⟩ := q
    simp only [Memory.write]
    split
    · split
      · rfl
      · simp [Memory.read, Ne.symm hj]
    · split
      · rename_i hle heq
        subst heq
        split <;> simp [Memory.read, Ne.symm hj]
      · simp only [Memory.read]
        split
        · rfl
        · exact ih

/-- A word write keeps the canonical form. -/
theorem Memory.writeWord_wf {m : Memory} (a : Nat) (w : Word) (h : m.wf = true) : (m.writeWord a w).wf = true :=
  Memory.write_wf _ _ (Memory.write_wf _ _ (Memory.write_wf _ _ (Memory.write_wf _ _ h)))

/-- Writing words keeps the canonical form. -/
theorem Memory.writeWords_wf {m : Memory} (a : Nat) (ws : List Word) (h : m.wf = true) :
    (m.writeWords a ws).wf = true := by
  induction ws generalizing m a with
  | nil => exact h
  | cons w rest ih => exact ih _ (Memory.writeWord_wf a w h)

/-- Writing a frame into a slot keeps the canonical form. -/
theorem writeSlot_wf {m : Memory} (f : FuncId) (x : Frame) (h : m.wf = true) : (writeSlot m f x).wf = true :=
  Memory.writeWords_wf _ _ h

/-- The memory after reset is in canonical form. -/
theorem reset_mem_wf : Memory.wf State.reset.mem = true := rfl

/-- A word write leaves every byte outside the word alone. -/
theorem Memory.read_writeWord_other {m : Memory} (a j : Nat) (w : Word) (h : j < a ∨ a + 4 ≤ j) :
    (m.writeWord a w).read j = m.read j := by
  simp only [Memory.writeWord]
  rw [Memory.read_write_other _ _ _ (by omega), Memory.read_write_other _ _ _ (by omega),
    Memory.read_write_other _ _ _ (by omega), Memory.read_write_other _ _ _ (by omega)]

theorem Memory.read_writeWord_byte {m : Memory} (a : Nat) (w : Word) (h : m.wf = true) :
    (m.writeWord a w).read a = byteOf w 0 ∧ (m.writeWord a w).read (a + 1) = byteOf w 1 ∧
      (m.writeWord a w).read (a + 2) = byteOf w 2 ∧ (m.writeWord a w).read (a + 3) = byteOf w 3 := by
  have h0 := Memory.write_wf a (byteOf w 0) h
  have h1 := Memory.write_wf (a + 1) (byteOf w 1) h0
  have h2 := Memory.write_wf (a + 2) (byteOf w 2) h1
  simp only [Memory.writeWord]
  refine ⟨?_, ?_, ?_, ?_⟩
  · rw [Memory.read_write_other _ _ _ (by omega), Memory.read_write_other _ _ _ (by omega),
      Memory.read_write_other _ _ _ (by omega), Memory.read_write_same _ _ h]
  · rw [Memory.read_write_other _ _ _ (by omega), Memory.read_write_other _ _ _ (by omega),
      Memory.read_write_same _ _ h0]
  · rw [Memory.read_write_other _ _ _ (by omega), Memory.read_write_same _ _ h1]
  · exact Memory.read_write_same _ _ h2

/-- The four bytes of a word make the word again (R65). -/
theorem wordOfBytes_byteOf (w : Word) : wordOfBytes (byteOf w 0) (byteOf w 1) (byteOf w 2) (byteOf w 3) = w := by
  apply BitVec.eq_of_toNat_eq
  have := w.isLt
  simp only [wordOfBytes, packed, byteOf, field, BitVec.toNat_ofNat]
  omega

/-- Reading a word just written gives the word. -/
theorem Memory.readWord_writeWord_same {m : Memory} (a : Nat) (w : Word) (h : m.wf = true) :
    (m.writeWord a w).readWord a = w := by
  obtain ⟨h0, h1, h2, h3⟩ := Memory.read_writeWord_byte a w h
  simp only [Memory.readWord, h0, h1, h2, h3, wordOfBytes_byteOf]

/-- Writing words leaves every byte outside them alone. -/
theorem Memory.read_writeWords_other {m : Memory} (a j : Nat) (ws : List Word) (h : j < a ∨ a + 4 * ws.length ≤ j) :
    (m.writeWords a ws).read j = m.read j := by
  induction ws generalizing m a with
  | nil => rfl
  | cons w rest ih =>
    simp only [List.length_cons] at h
    simp only [Memory.writeWords]
    rw [ih (a + 4) (by omega), Memory.read_writeWord_other _ _ _ (by omega)]

/-- Word `i` of the words just written reads as it was written. -/
theorem Memory.readWord_writeWords {m : Memory} (a : Nat) (ws : List Word) (h : m.wf = true) (i : Nat)
    (hi : i < ws.length) : (m.writeWords a ws).readWord (a + 4 * i) = ws.getD i 0 := by
  induction ws generalizing m a i with
  | nil => simp at hi
  | cons w rest ih =>
    simp only [Memory.writeWords]
    cases i with
    | zero =>
      have hother : ∀ j, j < a + 4 → ((m.writeWord a w).writeWords (a + 4) rest).read j = (m.writeWord a w).read j :=
        fun j hj => Memory.read_writeWords_other _ _ _ (by omega)
      have := Memory.readWord_writeWord_same a w h
      simp only [Nat.mul_zero, Nat.add_zero]
      simp only [Memory.readWord] at this ⊢
      rw [hother _ (by omega), hother _ (by omega), hother _ (by omega),
        hother _ (by omega), this]
      rfl
    | succ i =>
      have := ih (m := m.writeWord a w) (a + 4) (Memory.writeWord_wf a w h) i (by simpa using hi)
      rw [show a + 4 * (i + 1) = a + 4 + 4 * i by omega, this]
      rfl

theorem frameOf_length (g : Nat → Word) : (frameOf g).length = 32 := by simp [frameOf]

theorem word_frameOf (g : Nat → Word) (i : Nat) (hi : i < 32) : word (frameOf g) i = g i := by
  simp [word, frameOf, List.getD_eq_getElem?_getD, hi]

/-- A buffer of 32 words is the one its words make. -/
theorem frameOf_word {x : Frame} (h : x.length = 32) : frameOf (word x) = x := by
  apply List.ext_getElem
  · simp [frameOf, h]
  · intro i h1 h2
    simp only [frameOf, List.length_map, List.length_range] at h1
    simp [frameOf, word, List.getD_eq_getElem?_getD, h, h1]

/-- `receive` reads the frame a `send` wrote (R72 (a)). -/
theorem readSlot_writeSlot {m : Memory} (f : FuncId) {x : Frame} (h : m.wf = true) (hx : x.length = 32) :
    readSlot (writeSlot m f x) f = x := by
  rw [← frameOf_word hx]
  simp only [readSlot, writeSlot]
  apply List.map_congr_left
  intro i hi
  rw [List.mem_range] at hi
  rw [frameOf_word hx]
  exact Memory.readWord_writeWords (slotBase f) x h i (by omega)

/-- Slots do not overlap: a byte outside `SLOT[f]` is untouched by a write of `SLOT[f]`. -/
theorem read_writeSlot_other {m : Memory} (f : FuncId) {x : Frame} (hx : x.length = 32) (a : Nat)
    (ha : a < slotBase f ∨ slotBase f + 128 ≤ a) : (writeSlot m f x).read a = m.read a :=
  Memory.read_writeWords_other _ _ _ (by omega)

/-- The slot of another channel is untouched. -/
theorem readSlot_writeSlot_other {m : Memory} {f g : FuncId} (hg : g ≠ f) {x : Frame} (hx : x.length = 32) :
    readSlot (writeSlot m f x) g = readSlot m g := by
  have hne : g.toNat ≠ f.toNat := fun h => hg (BitVec.eq_of_toNat_eq h)
  apply List.map_congr_left
  intro i hi
  rw [List.mem_range] at hi
  have key : ∀ k, k < 4 → (writeSlot m f x).read (slotBase g + 4 * i + k) = m.read (slotBase g + 4 * i + k) := by
    intro k hk
    refine read_writeSlot_other f hx _ ?_
    simp only [slotBase]
    omega
  have k0 := key 0 (by omega)
  have k1 := key 1 (by omega)
  have k2 := key 2 (by omega)
  have k3 := key 3 (by omega)
  simp only [memRead, Memory.readWord, Nat.add_zero] at *
  rw [k0, k1, k2, k3]

end Sys2Proof.Machine
end

