-- ==== Sys2Proof/Laws/Codec.lean ====
section
/-! SUPPORT. The codec's lemmas: a field reads back what was put into its word, signed and whole words read back, the header of
an encoded message, and what a successful `parse` says of the frame it read. -/

namespace Sys2Proof

open Sys2Proof.Machine (frameOf_length word_frameOf frameOf_word)

/-! ## Legal sets -/

theorem fits_iff {w : Nat} {v : Int} : fits w v = true ↔ 0 ≤ v ∧ v < 2 ^ w := by simp [fits]

theorem legalBase_iff {v : Int} : legalBase v = true ↔ 0 ≤ v ∧ v ≤ 65535 := by simp [legalBase]

theorem legalBaseOrNone_iff {v : Int} : legalBaseOrNone v = true ↔ v = -1 ∨ (0 ≤ v ∧ v ≤ 65535) := by
  simp [legalBaseOrNone, legalBase]

/-- A natural number fits the field it was read from. -/
theorem fits_field (w : Word) (hi lo : Nat) : fits (hi + 1 - lo) (field w hi lo : Int) = true := by
  rw [fits_iff]
  refine ⟨Int.natCast_nonneg _, ?_⟩
  have : field w hi lo < 2 ^ (hi + 1 - lo) := Nat.mod_lt _ (Nat.two_pow_pos _)
  exact_mod_cast this

theorem fits_uword (w : Word) : fits 32 (uword w) = true := by
  rw [fits_iff]
  refine ⟨Int.natCast_nonneg _, ?_⟩
  have := w.isLt
  simp only [uword]
  exact_mod_cast this

/-! ## Whole words -/

/-- `s32(u32(v)) = v` (R109). -/
theorem s32_u32 {v : Int} (hlo : -2 ^ 31 ≤ v) (hhi : v < 2 ^ 31) : s32 (u32 v) = v := by
  simp only [s32, u32, BitVec.toInt_ofInt, Int.bmod]
  omega

/-- `u32(s32(w)) = w` (R109). -/
theorem u32_s32 (w : Word) : u32 (s32 w) = w := by simp [u32, s32]

/-- A whole unsigned word reads back. -/
theorem uword_u32 {v : Int} (h : fits 32 v = true) : uword (u32 v) = v := by
  obtain ⟨h0, h1⟩ := fits_iff.mp h
  simp only [uword, u32, BitVec.toNat_ofInt]
  omega

theorem u32_uword (w : Word) : u32 (uword w) = w := by simp [u32, uword]

@[simp] theorem s32_zero : s32 0 = 0 := rfl

/-! ## Fields -/

theorem field_packed (n hi lo : Nat) : field (packed n) hi lo = n % 2 ^ 32 / 2 ^ lo % 2 ^ (hi + 1 - lo) := by
  simp [field, packed]

/-- A field reads back what stands between the bits below it and the bits above it. -/
theorem field_packed_mid {a b c hi lo : Nat} (hlo : lo ≤ hi) (hhi : hi < 32) (ha : a < 2 ^ lo)
    (hb : b < 2 ^ (hi + 1 - lo)) : field (packed (a + b * 2 ^ lo + c * 2 ^ (hi + 1))) hi lo = b := by
  rw [field_packed]
  have e1 : (2 : Nat) ^ 32 = 2 ^ (hi + 1) * 2 ^ (31 - hi) := by rw [← Nat.pow_add]; congr 1; omega
  have e2 : (2 : Nat) ^ (hi + 1) = 2 ^ lo * 2 ^ (hi + 1 - lo) := by rw [← Nat.pow_add]; congr 1; omega
  generalize hN : a + b * 2 ^ lo + c * 2 ^ (hi + 1) = N
  have hmod : N % 2 ^ 32 % 2 ^ (hi + 1) = a + b * 2 ^ lo := by
    rw [e1, Nat.mod_mul_right_mod, ← hN, Nat.add_mul_mod_self_right]
    apply Nat.mod_eq_of_lt
    rw [e2]
    calc a + b * 2 ^ lo < 2 ^ lo + b * 2 ^ lo := by omega
      _ = (b + 1) * 2 ^ lo := by ring
      _ ≤ 2 ^ (hi + 1 - lo) * 2 ^ lo := Nat.mul_le_mul_right _ hb
      _ = 2 ^ lo * 2 ^ (hi + 1 - lo) := Nat.mul_comm _ _
  rw [← Nat.mod_mul_right_div_self, ← e2, hmod, Nat.add_mul_div_right _ _ (Nat.two_pow_pos lo),
    Nat.div_eq_of_lt ha, Nat.zero_add]

/-! ## The opcode map -/

/-- The map's values are the codes of the 15 opcodes, in the source's order (R86). -/
theorem Op.codes_eq (ops : Config.OpMap) : Op.all.map (Op.code ops) = ops.table.values := rfl

theorem Op.mem_all (op : Op) : op ∈ Op.all := by cases op <;> decide

/-- The values of a map are pairwise distinct (R86). -/
theorem Op.codes_nodup (ops : Config.OpMap) : (Op.all.map (Op.code ops)).Nodup := by
  have h := ops.legal
  simp only [Config.OpTable.legal, Bool.and_eq_true, decide_eq_true_eq] at h
  rw [Op.codes_eq]; exact h.1

/-- The values of a map are at most 127 (R86). -/
theorem Op.code_lt (ops : Config.OpMap) (op : Op) : op.code ops < 128 := by
  have h := ops.legal
  simp only [Config.OpTable.legal, Bool.and_eq_true, List.all_eq_true, decide_eq_true_eq, ← Op.codes_eq] at h
  exact Nat.lt_succ_of_le (h.2 _ (List.mem_map_of_mem (Op.mem_all op)))

theorem Op.code_inj {ops : Config.OpMap} {a b : Op} (h : a.code ops = b.code ops) : a = b :=
  List.inj_on_of_nodup_map (Op.codes_nodup ops) (Op.mem_all a) (Op.mem_all b) h

theorem Op.code_of_ofCode {ops : Config.OpMap} {n : Nat} {op : Op} (h : Op.ofCode ops n = some op) : op.code ops = n := by
  have := List.find?_some h
  simpa using this

@[simp] theorem Op.ofCode_code (ops : Config.OpMap) (op : Op) : Op.ofCode ops (op.code ops) = some op := by
  cases h : Op.ofCode ops (op.code ops) with
  | none => simpa using List.find?_eq_none.mp h op (Op.mem_all op)
  | some b => rw [Op.code_inj (Op.code_of_ofCode h)]

/-- `OPC` is outside the closed set exactly when no opcode has that value (R86, R102). -/
theorem Op.ofCode_none {ops : Config.OpMap} {n : Nat} : Op.ofCode ops n = none ↔ ∀ op : Op, op.code ops ≠ n := by
  constructor
  · rintro h op rfl
    simp at h
  · intro h
    cases hc : Op.ofCode ops n with
    | none => rfl
    | some op => exact absurd (Op.code_of_ofCode hc) (h op)

/-! ## The header -/

/-- The header fields of a word the encoder wrote. -/
theorem header_fields {o d : Nat} {h : Header} (ho : o < 128) (hd : d < 2) (hh : h.legal = true) :
    field (headerWord o d h) 6 0 = o ∧ field (headerWord o d h) 7 7 = d ∧
      (field (headerWord o d h) 15 8 : Int) = h.tag ∧ (field (headerWord o d h) 23 16 : Int) = h.src ∧
      (field (headerWord o d h) 31 24 : Int) = h.dst := by
  simp only [Header.legal, Bool.and_eq_true, fits_iff] at hh
  obtain ⟨⟨⟨t0, t1⟩, s0, s1⟩, d0, d1⟩ := hh
  simp only [headerWord, field_packed, put]
  refine ⟨?_, ?_, ?_, ?_, ?_⟩ <;> omega

/-- The opcode and direction fields are written whatever the header inputs are. -/
theorem header_op_dir {o d : Nat} (h : Header) (ho : o < 128) (hd : d < 2) :
    field (headerWord o d h) 6 0 = o ∧ field (headerWord o d h) 7 7 = d := by
  simp only [headerWord, field_packed, put]
  constructor <;> omega

@[simp] theorem encode_length (ops : Config.OpMap) (i : Instr) : (encode ops i).length = 32 := frameOf_length _

theorem word_encode (ops : Config.OpMap) (i : Instr) {k : Nat} (hk : k < 32) :
    word (encode ops i) k = if k = 0 then headerWord (i.op.code ops) i.dir.bit i.header else i.bodyWords k :=
  word_frameOf _ _ hk

@[simp] theorem word_encode_zero (ops : Config.OpMap) (i : Instr) :
    word (encode ops i) 0 = headerWord (i.op.code ops) i.dir.bit i.header :=
  word_encode ops i (by omega)

theorem word_encode_body (ops : Config.OpMap) (i : Instr) {k : Nat} (hk : k < 32) (h0 : k ≠ 0) :
    word (encode ops i) k = i.bodyWords k := by
  rw [word_encode ops i hk, if_neg h0]

theorem Dir.bit_lt (d : Dir) : d.bit < 2 := by cases d <;> decide

theorem opcOf_encode (ops : Config.OpMap) (i : Instr) : opcOf (encode ops i) = i.op.code ops := by
  rw [opcOf, word_encode_zero]
  exact (header_op_dir _ (Op.code_lt _ _) (Dir.bit_lt _)).1

theorem dirOf_encode (ops : Config.OpMap) (i : Instr) : dirOf (encode ops i) = i.dir.bit := by
  rw [dirOf, word_encode_zero]
  exact (header_op_dir _ (Op.code_lt _ _) (Dir.bit_lt _)).2

theorem headerOf_encode (ops : Config.OpMap) {i : Instr} (h : i.header.legal = true) : headerOf (encode ops i) = i.header := by
  obtain ⟨_, _, ht, hs, hd⟩ := header_fields (Op.code_lt ops i.op) (Dir.bit_lt i.dir) h
  simp only [headerOf, tagOf, srcOf, dstOf, word_encode_zero, ht, hs, hd]

/-- The header of a frame is legal: every field fits its width. -/
theorem headerOf_legal (x : Frame) : (headerOf x).legal = true := by
  simp only [Header.legal, headerOf, Bool.and_eq_true]
  exact ⟨⟨fits_field _ 15 8, fits_field _ 23 16⟩, fits_field _ 31 24⟩

theorem dirOf_lt (x : Frame) : dirOf x < 2 := Nat.mod_lt _ (by decide)

/-! ## What a successful `parse` says -/

theorem parseRequest_ok {op : Op} {h : Header} {x : Frame} {m : Instr} (e : parseRequest op h x = .ok m) :
    m.op = op ∧ m.dir = .req ∧ m.header = h := by
  cases op <;> simp only [parseRequest] at e <;> first
    | (injection e with e; subst e; exact ⟨rfl, rfl, rfl⟩)
    | (simp only [Except.map] at e; split at e
       · cases e
       · injection e with e; subst e; exact ⟨rfl, rfl, rfl⟩)

theorem parseResponse_ok {op : Op} {h : Header} {x : Frame} {m : Instr} (e : parseResponse op h x = .ok m) :
    m.op = op ∧ m.dir = .rsp ∧ m.header = h := by
  cases op <;> simp only [parseResponse, Except.map] at e <;> split at e <;>
    first
    | cases e; done
    | (injection e with e; subst e; exact ⟨rfl, rfl, rfl⟩)

/-- What `parse` gives when it succeeds: the frame has 32 words, the opcode is in the closed set, and the header of the message is
the frame's (R99). -/
theorem parse_ok {ops : Config.OpMap} {x : Frame} {m : Instr} (e : parse ops x = .ok m) :
    x.length = 32 ∧ opcOf x = m.op.code ops ∧ dirOf x = m.dir.bit ∧ m.header = headerOf x := by
  simp only [parse] at e
  split at e
  · cases e
  rename_i hl
  split at e
  · cases e
  rename_i op hop
  have hc := Op.code_of_ofCode hop
  have hd := dirOf_lt x
  split at e
  · rename_i h0
    obtain ⟨h1, h2, h3⟩ := parseRequest_ok e
    refine ⟨by simpa using hl, ?_, ?_, h3⟩
    · rw [h1, hc]
    · rw [h2, h0]; rfl
  · rename_i h0
    obtain ⟨h1, h2, h3⟩ := parseResponse_ok e
    refine ⟨by simpa using hl, ?_, ?_, h3⟩
    · rw [h1, hc]
    · rw [h2]
      simp only [Dir.bit]
      omega

/-- `parse` of a 32-word frame whose opcode is `op`. -/
theorem parse_eq {ops : Config.OpMap} {x : Frame} {op : Op} (hl : x.length = 32) (ho : opcOf x = op.code ops) :
    parse ops x = if dirOf x = 0 then parseRequest op (headerOf x) x else parseResponse op (headerOf x) x := by
  simp [parse, hl, ho]

/-- Every error of this result is `MalformedMessage`. -/
def Malforms {α : Type} (r : Except Err α) : Prop := ∀ e, r = .error e → ∃ i, e = .malformedMessage i

theorem Malforms.ok {α : Type} (a : α) : Malforms (.ok a : Except Err α) := fun _ h => by cases h

theorem Malforms.error {α : Type} (i : Info) : Malforms (.error (.malformedMessage i) : Except Err α) :=
  fun _ h => by cases h; exact ⟨i, rfl⟩

theorem Malforms.map {α β : Type} {r : Except Err α} (f : α → β) (h : Malforms r) : Malforms (r.map f) := by
  intro e he
  cases r with
  | error e' => exact h e (by simpa [Except.map] using he)
  | ok a => cases he

theorem parseQRangeReq_malforms (x : Frame) : Malforms (parseQRangeReq x) := by
  simp only [parseQRangeReq]; split
  · exact .ok _
  · exact .error _

theorem parseQRangeRsp_malforms (x : Frame) : Malforms (parseQRangeRsp x) := by
  simp only [parseQRangeRsp]; split
  · exact .ok _
  · exact .error _

theorem parseFmap_malforms (x : Frame) : Malforms (parseFmap x) := by
  simp only [parseFmap]; split
  · exact .ok _
  · exact .error _

theorem parseQSelT_malforms (x : Frame) : Malforms (parseQSelT x) := by
  simp only [parseQSelT]; split
  · exact .error _
  · exact .ok _

theorem parseNumRings_malforms (x : Frame) : Malforms (parseNumRings x) := by
  simp only [parseNumRings]; split
  · exact .ok _
  · exact .error _

theorem parseQCtxt_malforms (x : Frame) : Malforms (parseQCtxt x) := by
  have h := parseQSelT_malforms x
  simp only [parseQCtxt]; split
  · rename_i e he; intro e' h'; cases h'; exact h e he
  · exact .ok _

theorem parseIRings_malforms (x : Frame) : Malforms (parseIRings x) := by
  have h := parseNumRings_malforms x
  simp only [parseIRings]; split
  · rename_i e he; intro e' h'; cases h'; exact h e he
  · exact .ok _

theorem parseICtxt_malforms (x : Frame) : Malforms (parseICtxt x) := by
  have h := parseNumRings_malforms x
  simp only [parseICtxt]; split
  · rename_i e he; intro e' h'; cases h'; exact h e he
  · exact .ok _

theorem parseRsp_malforms {β : Type} {body : Frame → Except Err β} {x : Frame} (h : Malforms (body x)) :
    Malforms (parseRsp body x) := by
  simp only [parseRsp]; split
  · exact .error _
  · split
    · exact .ok _
    · exact h.map _

theorem parseRequest_malforms (op : Op) (h : Header) (x : Frame) : Malforms (parseRequest op h x) := by
  cases op <;> simp only [parseRequest]
  case qreq => exact (parseQRangeReq_malforms x).map _
  case fmap => exact (parseFmap_malforms x).map _
  case qctxtWrt => exact (parseQCtxt_malforms x).map _
  case intrCtxtWrt => exact (parseICtxt_malforms x).map _
  all_goals first
    | exact .ok _
    | exact (parseQSelT_malforms x).map _
    | exact (parseIRings_malforms x).map _

theorem parseResponse_malforms (op : Op) (h : Header) (x : Frame) : Malforms (parseResponse op h x) := by
  cases op <;> simp only [parseResponse] <;> refine Malforms.map _ (parseRsp_malforms ?_)
  case qreq => exact parseQRangeRsp_malforms x
  case qctxtRd => exact parseQCtxt_malforms x
  case intrCtxtRd => exact parseICtxt_malforms x
  all_goals exact .ok _

/-- Every error of `parse` is `MalformedMessage` (R120, R290). -/
theorem parse_malforms (ops : Config.OpMap) (x : Frame) : Malforms (parse ops x) := by
  simp only [parse]
  split
  · exact .error _
  split
  · exact .error _
  split
  · exact parseRequest_malforms _ _ _
  · exact parseResponse_malforms _ _ _

/-! ## `compose` -/

theorem firstFailure_none {l : List (Bool × Info)} : firstFailure l = none ↔ ∀ p ∈ l, p.1 = true := by
  induction l with
  | nil => simp [firstFailure]
  | cons p rest ih =>
    obtain ⟨b, i⟩ := p
    cases b <;> simp [firstFailure, ih]

/-- `compose` succeeds exactly when every test of the pseudocode holds, and then gives the encoded words (R98). -/
theorem compose_ok_iff {ops : Config.OpMap} {m : Instr} {x : Frame} :
    compose ops m = .ok x ↔ (∀ p ∈ m.header.tests ++ m.bodyTests, p.1 = true) ∧ x = encode ops m := by
  rw [← firstFailure_none]
  simp only [compose]
  split
  · rename_i i hi; simp [hi]
  · rename_i hn; simp [hn, eq_comm]

/-- Every error of `compose` is `InvalidArgument` (R120, R290). -/
theorem compose_error {ops : Config.OpMap} {m : Instr} {e : Err} (h : compose ops m = .error e) : ∃ i, e = .invalidArgument i := by
  simp only [compose] at h
  split at h
  · cases h; exact ⟨_, rfl⟩
  · cases h

end Sys2Proof
end

