-- ==== Sys2Proof/Laws/State.lean ====
section
/-! SUPPORT. The small lemmas of the state: one per field per update, true by `rfl` and tagged `@[simp]`, and the lookup of a
channel after each update, so that no later proof unfolds a record update or a channel list. -/

namespace Sys2Proof.Machine

/-! ## `updChan` and `updAll` touch the channels only -/

@[simp] theorem updChan_cfg (s : State) (f : FuncId) (u : Chan → Chan) : (s.updChan f u).cfg = s.cfg := rfl
@[simp] theorem updChan_mem (s : State) (f : FuncId) (u : Chan → Chan) : (s.updChan f u).mem = s.mem := rfl
@[simp] theorem updChan_pfBase (s : State) (f : FuncId) (u : Chan → Chan) : (s.updChan f u).pfBase = s.pfBase := rfl
@[simp] theorem updChan_sched (s : State) (f : FuncId) (u : Chan → Chan) : (s.updChan f u).sched = s.sched := rfl
@[simp] theorem updChan_result (s : State) (f : FuncId) (u : Chan → Chan) : (s.updChan f u).result = s.result := rfl
@[simp] theorem updChan_priv (s : State) (f : FuncId) (u : Chan → Chan) : (s.updChan f u).priv = s.priv := rfl
@[simp] theorem updChan_inits (s : State) (f : FuncId) (u : Chan → Chan) : (s.updChan f u).inits = s.inits := rfl

@[simp] theorem updAll_cfg (s : State) (u : FuncId → Chan → Chan) : (s.updAll u).cfg = s.cfg := rfl
@[simp] theorem updAll_mem (s : State) (u : FuncId → Chan → Chan) : (s.updAll u).mem = s.mem := rfl
@[simp] theorem updAll_pfBase (s : State) (u : FuncId → Chan → Chan) : (s.updAll u).pfBase = s.pfBase := rfl
@[simp] theorem updAll_sched (s : State) (u : FuncId → Chan → Chan) : (s.updAll u).sched = s.sched := rfl
@[simp] theorem updAll_result (s : State) (u : FuncId → Chan → Chan) : (s.updAll u).result = s.result := rfl
@[simp] theorem updAll_priv (s : State) (u : FuncId → Chan → Chan) : (s.updAll u).priv = s.priv := rfl
@[simp] theorem updAll_inits (s : State) (u : FuncId → Chan → Chan) : (s.updAll u).inits = s.inits := rfl

/-! ## `retire` touches the model's own fields only -/

@[simp] theorem retire_cfg (s : State) (r : Result) (p : Option PrivCall) : (s.retire r p).cfg = s.cfg := rfl
@[simp] theorem retire_mem (s : State) (r : Result) (p : Option PrivCall) : (s.retire r p).mem = s.mem := rfl
@[simp] theorem retire_chans (s : State) (r : Result) (p : Option PrivCall) : (s.retire r p).chans = s.chans := rfl
@[simp] theorem retire_pfBase (s : State) (r : Result) (p : Option PrivCall) : (s.retire r p).pfBase = s.pfBase := rfl
@[simp] theorem retire_sched (s : State) (r : Result) (p : Option PrivCall) : (s.retire r p).sched = s.sched.tail := rfl
@[simp] theorem retire_result (s : State) (r : Result) (p : Option PrivCall) : (s.retire r p).result = r := rfl
@[simp] theorem retire_priv (s : State) (r : Result) (p : Option PrivCall) : (s.retire r p).priv = p := rfl
@[simp] theorem retire_inits (s : State) (r : Result) (p : Option PrivCall) : (s.retire r p).inits = s.inits := rfl
@[simp] theorem retire_chan (s : State) (r : Result) (p : Option PrivCall) (f : FuncId) :
    (s.retire r p).chan f = s.chan f := rfl
@[simp] theorem retire_hasChan (s : State) (r : Result) (p : Option PrivCall) (f : FuncId) :
    (s.retire r p).hasChan f = s.hasChan f := rfl

/-! ## A write of the memory -/

@[simp] theorem withMem_chan (s : State) (m : Memory) (f : FuncId) : State.chan { s with mem := m } f = s.chan f := rfl
@[simp] theorem withMem_hasChan (s : State) (m : Memory) (f : FuncId) :
    State.hasChan { s with mem := m } f = s.hasChan f := rfl

/-! ## Lookups after an update -/

theorem findChan_map_eq (l : List (FuncId × Chan)) (f g : FuncId) (u : Chan → Chan) :
    findChan (l.map fun p => if p.1 = f then (p.1, u p.2) else p) g =
      if g = f then (findChan l g).map u else findChan l g := by
  induction l with
  | nil => simp [findChan]
  | cons p rest ih =>
    obtain ⟨k, c⟩ := p
    by_cases hk : k = f
    · subst hk
      by_cases hg : k = g
      · subst hg; simp [findChan]
      · have hg' : g ≠ k := fun h => hg h.symm
        simp [findChan, hg, hg'] at ih ⊢
        simpa [hg'] using ih
    · by_cases hg : k = g
      · subst hg; simp [findChan, hk]
      · simp [findChan, hk, hg] at ih ⊢
        exact ih

theorem findChan_mapAll (l : List (FuncId × Chan)) (g : FuncId) (u : FuncId → Chan → Chan) :
    findChan (l.map fun p => (p.1, u p.1 p.2)) g = (findChan l g).map (u g) := by
  induction l with
  | nil => rfl
  | cons p rest ih =>
    obtain ⟨k, c⟩ := p
    by_cases hk : k = g
    · subst hk; simp [findChan]
    · simpa [findChan, hk] using ih

/-- No update changes `VFSET`. -/
@[simp] theorem updChan_hasChan (s : State) (f g : FuncId) (u : Chan → Chan) :
    (s.updChan f u).hasChan g = s.hasChan g := by
  simp only [State.hasChan, State.updChan, findChan_map_eq]
  split <;> simp

@[simp] theorem updAll_hasChan (s : State) (g : FuncId) (u : FuncId → Chan → Chan) :
    (s.updAll u).hasChan g = s.hasChan g := by
  simp [State.hasChan, State.updAll, findChan_mapAll]

@[simp] theorem updChan_keys (s : State) (f : FuncId) (u : Chan → Chan) :
    (s.updChan f u).chans.map Prod.fst = s.chans.map Prod.fst := by
  simp only [State.updChan, List.map_map]
  apply List.map_congr_left
  intro p _
  by_cases h : p.1 = f <;> simp [h]

@[simp] theorem updAll_keys (s : State) (u : FuncId → Chan → Chan) :
    (s.updAll u).chans.map Prod.fst = s.chans.map Prod.fst := by
  simp [State.updAll]

/-- The updated channel. -/
theorem updChan_chan_same (s : State) (f : FuncId) (u : Chan → Chan) (h : s.hasChan f = true) :
    (s.updChan f u).chan f = u (s.chan f) := by
  simp only [State.hasChan, Option.isSome_iff_exists] at h
  obtain ⟨c, hc⟩ := h
  simp [State.chan, State.updChan, findChan_map_eq, hc]

/-- Every other channel is unchanged. -/
@[simp] theorem updChan_chan_other (s : State) (f g : FuncId) (u : Chan → Chan) (h : g ≠ f) :
    (s.updChan f u).chan g = s.chan g := by
  simp [State.chan, State.updChan, findChan_map_eq, h]

/-- Every channel after `updAll`. -/
theorem updAll_chan (s : State) (g : FuncId) (u : FuncId → Chan → Chan) (h : s.hasChan g = true) :
    (s.updAll u).chan g = u g (s.chan g) := by
  simp only [State.hasChan, Option.isSome_iff_exists] at h
  obtain ⟨c, hc⟩ := h
  simp [State.chan, State.updAll, findChan_mapAll, hc]

/-- A channel that was found stands in the list. -/
theorem findChan_mem {l : List (FuncId × Chan)} {f : FuncId} {c : Chan} (h : findChan l f = some c) : (f, c) ∈ l := by
  induction l with
  | nil => simp [findChan] at h
  | cons p rest ih =>
    obtain ⟨k, d⟩ := p
    by_cases hk : k = f
    · subst hk; simp [findChan] at h; simp [h]
    · simp [findChan, hk] at h; simp [ih h]

/-- A channel that exists stands in the list with its state. -/
theorem chan_mem {s : State} {f : FuncId} (h : s.hasChan f = true) : (f, s.chan f) ∈ s.chans := by
  simp only [State.hasChan, Option.isSome_iff_exists] at h
  obtain ⟨c, hc⟩ := h
  have := findChan_mem hc
  simpa [State.chan, hc] using this

/-- The grants after `setGrants` (R250). -/
theorem setGrants_chan (s : State) (t : GrantTable) (g : FuncId) (h : s.hasChan g = true) :
    (s.setGrants t).chan g = { s.chan g with grant := (grantOf t g).getD (s.chan g).grant } :=
  updAll_chan s g _ h

@[simp] theorem setGrants_mem (s : State) (t : GrantTable) : (s.setGrants t).mem = s.mem := rfl
@[simp] theorem setGrants_cfg (s : State) (t : GrantTable) : (s.setGrants t).cfg = s.cfg := rfl
@[simp] theorem setGrants_sched (s : State) (t : GrantTable) : (s.setGrants t).sched = s.sched := rfl
@[simp] theorem setGrants_pfBase (s : State) (t : GrantTable) : (s.setGrants t).pfBase = s.pfBase := rfl
@[simp] theorem setGrants_inits (s : State) (t : GrantTable) : (s.setGrants t).inits = s.inits := rfl
@[simp] theorem setGrants_hasChan (s : State) (t : GrantTable) (g : FuncId) :
    (s.setGrants t).hasChan g = s.hasChan g := by
  simp [State.setGrants]
@[simp] theorem setGrants_keys (s : State) (t : GrantTable) :
    (s.setGrants t).chans.map Prod.fst = s.chans.map Prod.fst := by
  simp [State.setGrants]

end Sys2Proof.Machine
end

