-- ==== Sys2Proof/Laws/Handshake.lean ====
section
/-! SUPPORT. One lemma per handshake operation: everything it can do, as a list of cases with the state each leaves. Cite these
instead of unfolding the operations. -/

namespace Sys2Proof.Machine

theorem updChan_updChan (s : State) (f : FuncId) (u v : Chan → Chan) :
    (s.updChan f u).updChan f v = s.updChan f fun c => v (u c) := by
  simp only [State.updChan, List.map_map]
  congr 1
  apply List.map_congr_left
  intro p _
  by_cases h : p.1 = f <;> simp [h]

/-- A flag read after an update of the channel. -/
theorem flagRead_eq (F : FlagName) (f : FuncId) (s : State) :
    flagRead F f s = (match F with | .pend => (s.chan f).pend | .ack => (s.chan f).ack) := by
  cases F <;> rfl

@[simp] theorem flagRead_pend (f : FuncId) (s : State) : flagRead .pend f s = (s.chan f).pend := rfl
@[simp] theorem flagRead_ack (f : FuncId) (s : State) : flagRead .ack f s = (s.chan f).ack := rfl

/-- What `FlagWrite` does (R63). -/
theorem flagWrite_cases (F : FlagName) (f : FuncId) (b fail : Bool) (s : State) :
    (fail = true ∧ flagWrite F f b fail s = (s, .error .hardwareFault)) ∨
    (fail = false ∧ F = .pend ∧ flagWrite F f b fail s = (s.updChan f (fun c => { c with pend := b }), .ok ())) ∨
    (fail = false ∧ F = .ack ∧ flagWrite F f b fail s = (s.updChan f (fun c => { c with ack := b }), .ok ())) := by
  cases F <;> cases fail <;> simp [flagWrite]

/-- What `send(VF(f), x)` does (R207). -/
theorem sendVf_cases (f : FuncId) (x : Frame) (hs : Bool) (s : State) :
    (x.length ≠ 32 ∧ sendVf f x hs s = (s, .error (.malformedMessage .length))) ∨
    (x.length = 32 ∧ ((s.chan f).outstanding = true ∨ (s.chan f).pend = true ∨ (s.chan f).ack = true) ∧
      sendVf f x hs s = (s, .error .channelBusy)) ∨
    (x.length = 32 ∧ (s.chan f).outstanding = false ∧ (s.chan f).pend = false ∧ (s.chan f).ack = false ∧ hs = true ∧
      sendVf f x hs s = ({ s with mem := writeSlot s.mem f x }, .error .hardwareFault)) ∨
    (x.length = 32 ∧ (s.chan f).outstanding = false ∧ (s.chan f).pend = false ∧ (s.chan f).ack = false ∧ hs = false ∧
      sendVf f x hs s =
        (State.updChan { s with mem := writeSlot s.mem f x } f fun c => { c with pend := true, outstanding := true },
          .ok ())) := by
  by_cases hl : x.length = 32
  · cases ho : (s.chan f).outstanding <;> cases hp : (s.chan f).pend <;> cases ha : (s.chan f).ack <;> cases hs <;>
      simp [sendVf, hl, ho, hp, ha, flagWrite, updChan_updChan]
  · simp [sendVf, hl]

/-- The channel `send(PF, x)` names (R208). -/
abbrev dstChan (x : Frame) : FuncId := BitVec.ofNat 8 (dstOf x)

/-- What `send(PF, x)` does (R208). -/
theorem sendPf_cases (x : Frame) (hs : Bool) (s : State) :
    (x.length ≠ 32 ∧ sendPf x hs s = (s, .error (.malformedMessage .length))) ∨
    (x.length = 32 ∧ s.hasChan (dstChan x) = false ∧ sendPf x hs s = (s, .error (.invalidArgument .noSuchChannel))) ∨
    (x.length = 32 ∧ s.hasChan (dstChan x) = true ∧
      ((s.chan (dstChan x)).pend = true ∨ (s.chan (dstChan x)).ack = true) ∧
      sendPf x hs s = (s, .error .channelBusy)) ∨
    (x.length = 32 ∧ s.hasChan (dstChan x) = true ∧ (s.chan (dstChan x)).pend = false ∧
      (s.chan (dstChan x)).ack = false ∧ hs = true ∧
      sendPf x hs s =
        (State.updChan { s with mem := writeSlot s.mem (dstChan x) x } (dstChan x) fun c => { c with ackShadow := true },
          .error .hardwareFault)) ∨
    (x.length = 32 ∧ s.hasChan (dstChan x) = true ∧ (s.chan (dstChan x)).pend = false ∧
      (s.chan (dstChan x)).ack = false ∧ hs = false ∧
      sendPf x hs s =
        (State.updChan { s with mem := writeSlot s.mem (dstChan x) x } (dstChan x) fun c =>
          { c with ackShadow := true, ack := true }, .ok ())) := by
  by_cases hl : x.length = 32
  · cases hc : s.hasChan (dstChan x) <;> cases hp : (s.chan (dstChan x)).pend <;>
      cases ha : (s.chan (dstChan x)).ack <;> cases hs <;>
      simp [sendPf, hl, hc, hp, ha, flagWrite, updChan_updChan]
  · simp [sendPf, hl]

/-- What `receive(PF, f)` does (R209). -/
theorem receivePf_cases (f : FuncId) (hs : Bool) (s : State) :
    ((s.chan f).pend = false ∧ receivePf f hs s = (s, .error .noMessage)) ∨
    ((s.chan f).pend = true ∧ hs = true ∧
      receivePf f hs s = (s.updChan f (fun c => { c with ackShadow := false }), .error .hardwareFault)) ∨
    ((s.chan f).pend = true ∧ hs = false ∧
      receivePf f hs s =
        (s.updChan f (fun c => { c with ackShadow := false, pend := false, ack := false }),
          .ok (readSlot s.mem f))) := by
  cases hp : (s.chan f).pend <;> cases hs <;> simp [receivePf, hp, flagWrite, updChan_updChan]

/-- What `receive(VF(f))` does (R210). -/
theorem receiveVf_cases (f : FuncId) (hs : Bool) (s : State) :
    ((s.chan f).ack = false ∧ receiveVf f hs s = (s, .error .noMessage)) ∨
    ((s.chan f).ack = true ∧ hs = true ∧ receiveVf f hs s = (s, .error .hardwareFault)) ∨
    ((s.chan f).ack = true ∧ hs = false ∧
      receiveVf f hs s =
        (s.updChan f (fun c => { c with ack := false, outstanding := false, vfRxbuf := readSlot s.mem f }),
          .ok (readSlot s.mem f))) := by
  cases ha : (s.chan f).ack <;> cases hs <;> simp [receiveVf, ha, flagWrite, updChan_updChan]

/-- What `clear_ack(PF, f)` does (R212). -/
theorem clearAckPf_cases (f : FuncId) (hs : Bool) (s : State) :
    (hs = true ∧
      clearAckPf f hs s =
        (s.updChan f (fun c => { c with outstanding := false, ackShadow := false }), .error .hardwareFault)) ∨
    (hs = false ∧
      clearAckPf f hs s =
        (s.updChan f (fun c => { c with outstanding := false, ackShadow := false, pend := false, ack := false }),
          .ok ())) := by
  cases hs <;> simp [clearAckPf, clearFlags, flagWrite, updChan_updChan]

/-- What `clear_ack(VF(f), f)` does (R212). -/
theorem clearAckVf_cases (f : FuncId) (hs : Bool) (s : State) :
    (hs = true ∧
      clearAckVf f hs s = (s.updChan f (fun c => { c with outstanding := false }), .error .hardwareFault)) ∨
    (hs = false ∧
      clearAckVf f hs s =
        (s.updChan f (fun c => { c with outstanding := false, pend := false, ack := false }), .ok ())) := by
  cases hs <;> simp [clearAckVf, clearFlags, flagWrite, updChan_updChan]

end Sys2Proof.Machine
end

