-- ==== Sys2Proof/Laws/Messages.lean ====
section
/-! SUPPORT. What the shared operations of the messages do: the stage a due step puts a message in, the meaning of a request and of
a response at each stage, what T3 makes of an answer of `PRIV`, and the words of the responses the dispatcher builds. -/

namespace Sys2Proof.Machine

open Sys2Proof

/-! ## The stage -/

theorem stageOf_eq {s : State} {a : Action} (h : s.sched.head? = some a) :
    stageOf s =
      match a with
      | .decode f => if s.hasChan f then if (s.chan f).dstate = .decoding then .decode f else .off else .absent
      | .execute f x g =>
        if s.hasChan f then if (s.chan f).dstate = .executing then .execute f x g else .off else .absent
      | .readResponse f => if s.hasChan f then .read f else .absent
      | _ => .off := by
  obtain ⟨rest, hr⟩ : ∃ rest, s.sched = a :: rest := by
    cases hs : s.sched with
    | nil => simp [hs] at h
    | cons b rest => simp [hs] at h; exact ⟨rest, by rw [h]⟩
  cases a <;> simp [stageOf, hr]

theorem stageOf_decode {s : State} {f : FuncId} (h : Due (.decode f) f s) (hd : (s.chan f).dstate = .decoding) :
    stageOf s = .decode f := by
  rw [stageOf_eq h.head]; simp [h.vfset, hd]

theorem stageOf_execute {s : State} {f : FuncId} {a : PrivAnswer} {g : GrantTable} (h : Due (.execute f a g) f s)
    (hd : (s.chan f).dstate = .executing) : stageOf s = .execute f a g := by
  rw [stageOf_eq h.head]; simp [h.vfset, hd]

theorem stageOf_read {s : State} {f : FuncId} (h : Due (.readResponse f) f s) : stageOf s = .read f := by
  rw [stageOf_eq h.head]; simp [h.vfset]

/-! ## Requests and responses at each stage -/

variable {m : Instr} {allowed : FuncId → Grant → Bool} {reply : Header → PrivData → Option Instr} {s : State} {f : FuncId}

theorem runRequest_decode (h : stageOf s = .decode f) : runRequest m allowed reply s =
    .next ((s.updChan f fun c => { c with req := m, dstate := .executing }).retire .ok none) := by
  simp [runRequest, h]

theorem runRequest_execute {a : PrivAnswer} {g : GrantTable} (h : stageOf s = .execute f a g) :
    runRequest m allowed reply s = .next (executeRequest f a g m allowed reply s) := by
  simp [runRequest, h]

theorem runRequest_read (h : stageOf s = .read f) : runRequest m allowed reply s =
    .next (s.retire (.error (.malformedMessage .notAResponse)) none) := by
  simp [runRequest, h]

theorem runResponse_decode {view : Result} (h : stageOf s = .decode f) : runResponse m view s =
    .next ((s.takeStatus f (m.op.code s.cfg.ops) m.header.tag.toNat statusMalformed).retire .ok none) := by
  simp [runResponse, h]

theorem runResponse_read {view : Result} (h : stageOf s = .read f) : runResponse m view s =
    .next (s.retire view none) := by
  simp [runResponse, h]

/-- What T3 does: the refusal, the response `reply` builds, or the negative status that takes its place (R240). -/
theorem executeRequest_cases (a : PrivAnswer) (g : GrantTable) :
    ((claimHolds s.cfg.pfFuncId f m.header && allowed f (s.chan f).grant) = false ∧
      executeRequest f a g m allowed reply s =
        (s.takeStatus f (m.op.code s.cfg.ops) m.header.tag.toNat statusUnauthorized).retire .ok none) ∨
    ((claimHolds s.cfg.pfFuncId f m.header && allowed f (s.chan f).grant) = true ∧
      ((∃ y, normalise s.cfg.ops (reply (replyHeader s.cfg.pfFuncId f m.header)) a = .ok y ∧
        executeRequest f a g m allowed reply s =
          ((s.setGrants g).respondWith f y).retire .ok (some ⟨f, m⟩)) ∨
      (∃ st, normalise s.cfg.ops (reply (replyHeader s.cfg.pfFuncId f m.header)) a = .error st ∧
        executeRequest f a g m allowed reply s =
          ((s.setGrants g).takeStatus f (m.op.code s.cfg.ops) m.header.tag.toNat st).retire .ok (some ⟨f, m⟩)))) := by
  cases hc : claimHolds s.cfg.pfFuncId f m.header && allowed f (s.chan f).grant
  · left; exact ⟨rfl, by simp [executeRequest, hc]⟩
  · right
    refine ⟨rfl, ?_⟩
    cases hn : normalise s.cfg.ops (reply (replyHeader s.cfg.pfFuncId f m.header)) a with
    | ok y => left; exact ⟨y, rfl, by simp [executeRequest, hc, hn]⟩
    | error st => right; exact ⟨st, rfl, by simp [executeRequest, hc, hn]⟩

/-- What `normalise` makes of an answer (R252). -/
theorem normalise_cases (ops : Config.OpMap) (r : PrivData → Option Instr) (a : PrivAnswer) :
    (∃ data m y, a = .answer 0 data ∧ r data = some m ∧ compose ops m = .ok y ∧ normalise ops r a = .ok y) ∨
    (∃ st data, a = .answer st data ∧ st ∈ privStatuses ∧ normalise ops r a = .error st) ∨
    normalise ops r a = .error statusFailure := by
  cases a with
  | throw => right; right; rfl
  | answer st data =>
    by_cases h0 : st = 0
    · subst h0
      cases hr : r data with
      | none => right; right; simp [normalise, hr]
      | some m =>
        cases hc : compose ops m with
        | ok y => left; exact ⟨data, m, y, rfl, hr, hc, by simp [normalise, hr, hc]⟩
        | error e => right; right; simp [normalise, hr, hc]
    · by_cases hp : st ∈ privStatuses
      · right; left; exact ⟨st, data, rfl, hp, by simp [normalise, h0, hp]⟩
      · right; right; simp [normalise, h0, hp]

theorem mem_privStatuses {st : Int} : st ∈ privStatuses ↔ -4 ≤ st ∧ st ≤ -1 := by
  simp only [privStatuses, statusBadArgument, statusQueueNotFound, statusResourceExhausted, statusBusy, List.mem_cons,
    List.not_mem_nil, or_false]
  omega

/-! ## What T3 leaves -/

theorem sameMem_of_eq {s t : State} (h : t.mem = s.mem) : SameMem s t := fun _ => by rw [h]

/-- The state T3 leaves when `PRIV` was called. -/
theorem answered_setGrants {y : Frame} {g : GrantTable} {p : Option PrivCall} (hf : s.hasChan f = true) :
    Answered f y g p s (((s.setGrants g).respondWith f y).retire .ok p) where
  chan := by
    rw [retire_chan, State.respondWith, updChan_chan_same _ _ _ (by simpa using hf), setGrants_chan _ _ _ hf]
  others k hk hc := by
    rw [retire_chan, State.respondWith, updChan_chan_other _ _ _ _ hk, setGrants_chan _ _ _ hc]
  mem := sameMem_of_eq rfl
  rest := ⟨rfl, rfl, rfl, fun k => by simp [State.respondWith]⟩
  sched := rfl
  result := rfl
  priv := rfl

/-- The state T3 leaves when the request was refused. -/
theorem answered_refused {y : Frame} (hf : s.hasChan f = true) :
    Answered f y [] none s ((s.respondWith f y).retire .ok none) where
  chan := by
    rw [retire_chan, State.respondWith, updChan_chan_same _ _ _ hf]
    simp [grantOf]
  others k hk hc := by
    rw [retire_chan, State.respondWith, updChan_chan_other _ _ _ _ hk]
    simp [grantOf]
  mem := sameMem_of_eq rfl
  rest := ⟨rfl, rfl, rfl, fun k => by simp [State.respondWith]⟩
  sched := rfl
  result := rfl
  priv := rfl

/-! ## The words of a response -/

/-- Word 0 as the encoder writes it is the word the rules write out (R81, R98, R243). -/
theorem headerWord_rsp {o : Nat} {t : Int} (pf f : FuncId) (ho : o < 128) (h0 : 0 ≤ t) (h1 : t ≤ 255) :
    headerWord o 1 ⟨t, pf.toNat, f.toNat⟩ = rspHeader o t pf f := by
  apply BitVec.eq_of_toNat_eq
  have := pf.isLt
  have := f.isLt
  simp only [headerWord, rspHeader, packed, put, BitVec.toNat_ofNat, BitVec.toNat_ofInt]
  omega

/-- `status_rsp` is the frame of the rule (R245). -/
theorem statusRsp_eq {o : Nat} {t : Int} (pf f : FuncId) (st : Int) (ho : o < 128) (h0 : 0 ≤ t) (h1 : t ≤ 255) :
    statusRsp pf f o t.toNat st = statusFrame o t pf f st := by
  simp only [statusRsp, statusFrame, rspFrame]
  congr 1
  funext k
  by_cases hk : k = 0
  · rw [if_pos hk, if_pos hk, ← headerWord_rsp pf f ho h0 h1, Int.toNat_of_nonneg h0]
  · rw [if_neg hk, if_neg hk]
    by_cases h1 : k = 1
    · rw [if_pos h1, if_pos h1]; rfl
    · rw [if_neg h1, if_neg h1]; rfl

theorem statusRsp_length (pf f : FuncId) (o t : Nat) (st : Int) : (statusRsp pf f o t st).length = 32 := frameOf_length _

/-- The fields and the status of a `status_rsp` (R245). -/
theorem statusRsp_isReply (pf f : FuncId) {o t : Nat} {st : Int} (hlo : -2 ^ 31 ≤ st) (hst : st ≤ 0) :
    IsReply pf f (statusRsp pf f o t st) where
  len := statusRsp_length _ _ _ _ _
  dir := by
    rw [dirOf, statusRsp, word_frameOf _ _ (by omega)]
    simp only [if_true, headerWord, field_packed, put]
    omega
  src := by
    rw [srcOf, statusRsp, word_frameOf _ _ (by omega)]
    have := pf.isLt
    have := f.isLt
    simp only [if_true, headerWord, field_packed, put]
    omega
  dst := by
    rw [dstOf, statusRsp, word_frameOf _ _ (by omega)]
    have := pf.isLt
    have := f.isLt
    simp only [if_true, headerWord, field_packed, put]
    omega
  status := by
    rw [statusRsp, word_frameOf _ _ (by omega)]
    simp only [if_neg (show ¬(1 : Nat) = 0 by omega), if_true]
    rw [s32_u32 hlo (by omega)]
    exact hst

/-! ## Authorisation -/

theorem claimHolds_iff {pf f : FuncId} {h : Header} :
    claimHolds pf f h = true ↔ h.src = f.toNat ∧ h.dst = pf.toNat := by
  simp [claimHolds]

theorem inGrant_iff {g : Grant} {q : Int} : inGrant g q = true ↔ GrantsQueue g q := by
  simp [inGrant, GrantsQueue]

theorem vecGranted_iff {g : Grant} {v : Int} : vecGranted g v = true ↔ GrantsVector g v := by
  simp [vecGranted, GrantsVector]

/-- The tests of the dispatcher are the table of R249 (R246 to R249). -/
theorem authorised_iff {pf f : FuncId} {g : Grant} {m : Instr} :
    authorised pf f g m = true ↔ Permitted pf f g m := by
  have row : rowAllowed f g m = true ↔ PermittedRow f g m := by
    cases m <;>
      simp [rowAllowed, PermittedRow, inGrant_iff, vecGranted_iff, rangeInGrant, qctxtWrtAllowed, usesVector,
        DescGroup.includedBy, cmptCtxtOnly, cmptNone]
    rename_i h b
    rw [and_assoc]
    refine and_congr Iff.rfl (and_congr Iff.rfl ?_)
    by_cases h1 : b.sel.cmptCtxtType = 0 <;> by_cases h2 : b.sel.cmptCtxtType = 3 <;> by_cases h3 : b.desc.irqEn = 1 <;>
      by_cases h4 : b.desc.cmptIntEn = 1 <;> simp [h1, h2, h3, h4]
  rw [authorised, Bool.and_eq_true, claimHolds_iff, row, Permitted, and_assoc]

end Sys2Proof.Machine
end

