-- ==== Sys2Proof/Laws/Dispatcher.lean ====
section
/-! SUPPORT. One lemma per transition of the dispatcher that moves a frame: everything it can do, as a list of cases with the state
each leaves. -/

namespace Sys2Proof.Machine

open Sys2Proof

/-- What T1 does (R237). -/
theorem accept_cases (f : FuncId) (hs : Bool) (s : State) :
    (¬((s.chan f).dstate = .idle ∧ (s.chan f).pend = true) ∧ accept f hs s = (s, .notEnabled)) ∨
    ((s.chan f).dstate = .idle ∧ (s.chan f).pend = true ∧ hs = true ∧
      accept f hs s =
        (s.updChan f (fun c => { c with ackShadow := false, dstate := .faulted }), .error .hardwareFault)) ∨
    ((s.chan f).dstate = .idle ∧ (s.chan f).pend = true ∧ hs = false ∧
      accept f hs s =
        (s.updChan f (fun c => { c with
          ackShadow := false, pend := false, ack := false, rxbuf := readSlot s.mem f, dstate := .decoding }), .ok)) := by
  by_cases h : (s.chan f).dstate = .idle ∧ (s.chan f).pend = true
  · rcases receivePf_cases f hs s with ⟨hp, _⟩ | ⟨_, hhs, he⟩ | ⟨_, hhs, he⟩
    · simp [hp] at h
    · right; left; refine ⟨h.1, h.2, hhs, ?_⟩
      simp [accept, h.1, h.2, he, State.takeFault, updChan_updChan]
    · right; right; refine ⟨h.1, h.2, hhs, ?_⟩
      simp [accept, h.1, h.2, he, updChan_updChan]
  · left; exact ⟨h, by simp [accept, h]⟩

/-- What T4 does when `RESP[f]` is a frame for `f` (R241). -/
theorem respond_cases (f : FuncId) (hs : Bool) (s : State) (hf : s.hasChan f = true)
    (hl : (s.chan f).resp.length = 32) (hd : dstOf (s.chan f).resp = f.toNat) :
    ((s.chan f).dstate ≠ .responding ∧ respond f hs s = (s, .notEnabled)) ∨
    ((s.chan f).dstate = .responding ∧ ((s.chan f).pend = true ∨ (s.chan f).ack = true) ∧
      respond f hs s = (s, .error .channelBusy)) ∨
    ((s.chan f).dstate = .responding ∧ (s.chan f).pend = false ∧ (s.chan f).ack = false ∧ hs = true ∧
      respond f hs s =
        (State.updChan { s with mem := writeSlot s.mem f (s.chan f).resp } f fun c =>
          { c with ackShadow := true, dstate := .faulted }, .error .hardwareFault)) ∨
    ((s.chan f).dstate = .responding ∧ (s.chan f).pend = false ∧ (s.chan f).ack = false ∧ hs = false ∧
      respond f hs s =
        (State.updChan { s with mem := writeSlot s.mem f (s.chan f).resp } f fun c =>
          { c with ackShadow := true, ack := true, dstate := .idle }, .ok)) := by
  have hk : dstChan (s.chan f).resp = f := by
    apply BitVec.eq_of_toNat_eq
    have := f.isLt
    simp only [dstChan, BitVec.toNat_ofNat, hd]
    omega
  by_cases h : (s.chan f).dstate = .responding
  · rcases sendPf_cases (s.chan f).resp hs s with ⟨h', _⟩ | ⟨_, h', _⟩ | h' | h' | h'
    · exact absurd hl h'
    · rw [hk, hf] at h'; cases h'
    · rw [hk] at h'
      obtain ⟨_, _, hb, he⟩ := h'
      right; left; exact ⟨h, hb, by simp [respond, h, he]⟩
    · rw [hk] at h'
      obtain ⟨_, _, hp, ha, hhs, he⟩ := h'
      right; right; left; refine ⟨h, hp, ha, hhs, ?_⟩
      simp [respond, h, he, State.takeFault, updChan_updChan]
    · rw [hk] at h'
      obtain ⟨_, _, hp, ha, hhs, he⟩ := h'
      right; right; right; refine ⟨h, hp, ha, hhs, ?_⟩
      simp [respond, h, he, State.returnIdle, updChan_updChan]
  · left; exact ⟨h, by simp [respond, h]⟩

theorem busy_iff {f : FuncId} {s : State} :
    busy f s = true ↔ (s.chan f).dstate = .decoding ∨ (s.chan f).dstate = .executing ∨ (s.chan f).dstate = .responding := by
  cases h : (s.chan f).dstate <;> simp [busy, h]

theorem dst_statusRsp (pf f : FuncId) (o t : Nat) (st : Int) : dstChan (statusRsp pf f o t st) = f := by
  have h : dstOf (statusRsp pf f o t st) = f.toNat := by
    rw [dstOf, statusRsp, word_frameOf _ _ (by omega)]
    have := pf.isLt
    have := f.isLt
    simp only [if_true, headerWord, field_packed, put]
    omega
  apply BitVec.eq_of_toNat_eq
  have := f.isLt
  simp only [dstChan, BitVec.toNat_ofNat, h]
  omega

/-- What T5 does (R242): `b` is the busy response to the frame in the slot. -/
theorem busyReject_cases (f : FuncId) (hsR hsS : Bool) (s : State) (hf : s.hasChan f = true) :
    let b := statusRsp s.cfg.pfFuncId f (opcOf (readSlot s.mem f)) (tagOf (readSlot s.mem f)) statusBusy
    (¬(busy f s = true ∧ (s.chan f).pend = true) ∧ busyReject f hsR hsS s = (s, .notEnabled)) ∨
    (busy f s = true ∧ (s.chan f).pend = true ∧ hsR = true ∧
      busyReject f hsR hsS s =
        (s.updChan f (fun c => { c with ackShadow := false, dstate := .faulted }), .error .hardwareFault)) ∨
    (busy f s = true ∧ (s.chan f).pend = true ∧ hsR = false ∧ hsS = true ∧
      busyReject f hsR hsS s =
        (State.updChan { s with mem := writeSlot s.mem f b } f fun c =>
          { c with ackShadow := true, pend := false, ack := false, dstate := .faulted }, .error .hardwareFault)) ∨
    (busy f s = true ∧ (s.chan f).pend = true ∧ hsR = false ∧ hsS = false ∧
      busyReject f hsR hsS s =
        (State.updChan { s with mem := writeSlot s.mem f b } f fun c =>
          { c with ackShadow := true, pend := false, ack := true }, .ok)) := by
  intro b
  by_cases h : busy f s = true ∧ (s.chan f).pend = true
  · rcases receivePf_cases f hsR s with ⟨hp, _⟩ | ⟨_, hhs, he⟩ | ⟨_, hhs, he⟩
    · simp [hp] at h
    · right; left; refine ⟨h.1, h.2, hhs, ?_⟩
      simp [busyReject, h.1, h.2, he, State.takeFault, updChan_updChan]
    · right; right
      have hk : dstChan b = f := dst_statusRsp _ _ _ _ _
      have hchan : ∀ u : Chan → Chan, (s.updChan f u).chan f = u (s.chan f) := fun u => updChan_chan_same s f u hf
      have hswap : ∀ (u v : Chan → Chan) (m : Memory),
          State.updChan { s.updChan f u with mem := m } f v = State.updChan { s with mem := m } f fun c => v (u c) :=
        fun u v m => updChan_updChan { s with mem := m } f u v
      rcases sendPf_cases b hsS (s.updChan f (fun c => { c with ackShadow := false, pend := false, ack := false }))
        with ⟨h', _⟩ | ⟨_, h', _⟩ | h' | h' | h'
      · exact absurd (statusRsp_length _ _ _ _ _) h'
      · rw [hk, updChan_hasChan, hf] at h'; cases h'
      · rw [hk, hchan] at h'; simp at h'
      · rw [hk, hswap] at h'
        obtain ⟨_, _, _, _, hhs', he'⟩ := h'
        left; refine ⟨h.1, h.2, hhs, hhs', ?_⟩
        simp only [b] at he'
        simp [busyReject, h.1, h.2, he, he', State.takeFault, updChan_updChan, b]
      · rw [hk, hswap] at h'
        obtain ⟨_, _, _, _, hhs', he'⟩ := h'
        right; refine ⟨h.1, h.2, hhs, hhs', ?_⟩
        simp only [b] at he'
        simp [busyReject, h.1, h.2, he, he', b]
  · left; exact ⟨h, by simp only [busyReject]; exact if_neg h⟩

end Sys2Proof.Machine
end

