-- ==== Sys2Proof/Laws/PerInstr.lean ====
section
/-! SUPPORT. The family of lemmas stated for every constructor of `Instr`: the header of the encoding (spec/30_encoding.md R80,
R81, R98). -/

namespace Sys2Proof.Laws.HeaderEncoding

/-- Under every opcode map the encoding has 32 words; its opcode and direction fields are the message's; and when the header is legal, the three other
fields of word 0 read back as the header. -/
def Statement (i : Instr) : Prop :=
  ∀ ops : Config.OpMap, (encode ops i).length = 32 ∧ opcOf (encode ops i) = i.op.code ops ∧
    dirOf (encode ops i) = i.dir.bit ∧ (i.header.legal = true → headerOf (encode ops i) = i.header)

theorem holds (i : Instr) : Statement i :=
  fun ops => ⟨encode_length ops i, opcOf_encode ops i, dirOf_encode ops i, headerOf_encode ops⟩

theorem vfOnlineReq (h : Header) : Statement (.vfOnlineReq h) := holds _
theorem vfOnlineRsp (h : Header) (r : Rsp DevInfo) : Statement (.vfOnlineRsp h r) := holds _
theorem vfOfflineReq (h : Header) : Statement (.vfOfflineReq h) := holds _
theorem vfOfflineRsp (h : Header) (r : Rsp NoBody) : Statement (.vfOfflineRsp h r) := holds _
theorem qreqReq (h : Header) (b : QRange) : Statement (.qreqReq h b) := holds _
theorem qreqRsp (h : Header) (r : Rsp QRange) : Statement (.qreqRsp h r) := holds _
theorem qnotifyAddReq (h : Header) (b : QSel) : Statement (.qnotifyAddReq h b) := holds _
theorem qnotifyAddRsp (h : Header) (r : Rsp NoBody) : Statement (.qnotifyAddRsp h r) := holds _
theorem qnotifyDelReq (h : Header) (b : QSel) : Statement (.qnotifyDelReq h b) := holds _
theorem qnotifyDelRsp (h : Header) (r : Rsp NoBody) : Statement (.qnotifyDelRsp h r) := holds _
theorem fmapReq (h : Header) (b : Fmap) : Statement (.fmapReq h b) := holds _
theorem fmapRsp (h : Header) (r : Rsp NoBody) : Statement (.fmapRsp h r) := holds _
theorem qctxtWrtReq (h : Header) (b : QCtxt) : Statement (.qctxtWrtReq h b) := holds _
theorem qctxtWrtRsp (h : Header) (r : Rsp NoBody) : Statement (.qctxtWrtRsp h r) := holds _
theorem qctxtRdReq (h : Header) (b : QSelT) : Statement (.qctxtRdReq h b) := holds _
theorem qctxtRdRsp (h : Header) (r : Rsp QCtxt) : Statement (.qctxtRdRsp h r) := holds _
theorem qctxtInvReq (h : Header) (b : QSelT) : Statement (.qctxtInvReq h b) := holds _
theorem qctxtInvRsp (h : Header) (r : Rsp NoBody) : Statement (.qctxtInvRsp h r) := holds _
theorem qctxtClrReq (h : Header) (b : QSelT) : Statement (.qctxtClrReq h b) := holds _
theorem qctxtClrRsp (h : Header) (r : Rsp NoBody) : Statement (.qctxtClrRsp h r) := holds _
theorem csrReq (h : Header) : Statement (.csrReq h) := holds _
theorem csrRsp (h : Header) (r : Rsp CsrInfo) : Statement (.csrRsp h r) := holds _
theorem intrCtxtWrtReq (h : Header) (b : ICtxt) : Statement (.intrCtxtWrtReq h b) := holds _
theorem intrCtxtWrtRsp (h : Header) (r : Rsp NoBody) : Statement (.intrCtxtWrtRsp h r) := holds _
theorem intrCtxtRdReq (h : Header) (b : IRings) : Statement (.intrCtxtRdReq h b) := holds _
theorem intrCtxtRdRsp (h : Header) (r : Rsp ICtxt) : Statement (.intrCtxtRdRsp h r) := holds _
theorem intrCtxtInvReq (h : Header) (b : IRings) : Statement (.intrCtxtInvReq h b) := holds _
theorem intrCtxtInvRsp (h : Header) (r : Rsp NoBody) : Statement (.intrCtxtInvRsp h r) := holds _
theorem intrCtxtClrReq (h : Header) (b : IRings) : Statement (.intrCtxtClrReq h b) := holds _
theorem intrCtxtClrRsp (h : Header) (r : Rsp NoBody) : Statement (.intrCtxtClrRsp h r) := holds _

end Sys2Proof.Laws.HeaderEncoding
end

