-- ==== Sys2Proof/Laws/Requester.lean ====
section
/-! SUPPORT. One lemma per transition of the VF requester: everything it can do, as a list of cases with the state each leaves. -/

namespace Sys2Proof.Machine

open Sys2Proof

/-- Two updates of the channel with a write of the memory between them. -/
theorem updChan_withMem_updChan (s : State) (f : FuncId) (u v : Chan → Chan) (m : Memory) :
    State.updChan { s.updChan f u with mem := m } f v = State.updChan { s with mem := m } f fun c => v (u c) :=
  updChan_updChan { s with mem := m } f u v

/-- V1's drain (R278). -/
theorem drainStale_cases (f : FuncId) (hs : Bool) (s : State) :
    (¬((s.chan f).ack = true ∧ (s.chan f).outstanding = false) ∧ drainStale f hs s = (s, .ok ())) ∨
    ((s.chan f).ack = true ∧ (s.chan f).outstanding = false ∧ hs = true ∧
      drainStale f hs s = (s, .error .hardwareFault)) ∨
    ((s.chan f).ack = true ∧ (s.chan f).outstanding = false ∧ hs = false ∧
      drainStale f hs s =
        (s.updChan f (fun c => { c with ack := false, outstanding := false, vfRxbuf := readSlot s.mem f }), .ok ())) := by
  by_cases h : (s.chan f).ack = true ∧ (s.chan f).outstanding = false
  · rcases receiveVf_cases f hs s with ⟨ha, _⟩ | ⟨_, hhs, he⟩ | ⟨_, hhs, he⟩
    · simp [ha] at h
    · right; left; exact ⟨h.1, h.2, hhs, by simp [drainStale, h.1, h.2, he]⟩
    · right; right; exact ⟨h.1, h.2, hhs, by simp [drainStale, h.1, h.2, he]⟩
  · left; exact ⟨h, by simp only [drainStale]; exact if_neg h⟩

/-- The channel after V1's drain and the use of a tag. -/
def afterDrain (s : State) (f : FuncId) (c : Chan) : Chan :=
  if (s.chan f).ack = true ∧ (s.chan f).outstanding = false then
    { c with ack := false, outstanding := false, vfRxbuf := readSlot s.mem f, tagNext := c.tagNext + 1 }
  else { c with tagNext := c.tagNext + 1 }

/-- The message V1 composes (R277). -/
def startMessage (s : State) (f : FuncId) (req : Request) : Instr := req.withHeader (requestHeader s f)

/-- What V1 does (R278). -/
theorem start_cases (f : FuncId) (req : Request) (hsR hsS : Bool) (s : State) (hf : s.hasChan f = true) :
    let stale : Prop := (s.chan f).ack = true ∧ (s.chan f).outstanding = false
    let c1 := afterDrain s f (s.chan f)
    ((s.chan f).vstate = .wait ∧ start f req hsR hsS s = (s, .notEnabled)) ∨
    ((s.chan f).vstate = .idle ∧
      (((s.chan f).vfFaulted = true ∧ start f req hsR hsS s = (s, .error .hardwareFault)) ∨
      ((s.chan f).vfFaulted = false ∧
        ((∃ e, compose s.cfg.ops (startMessage s f req) = .error e ∧ start f req hsR hsS s = (s, .error e)) ∨
        (∃ x, compose s.cfg.ops (startMessage s f req) = .ok x ∧
          ((stale ∧ hsR = true ∧ start f req hsR hsS s = (s, .error .hardwareFault)) ∨
          ((stale → hsR = false) ∧
            (((c1.outstanding = true ∨ c1.pend = true ∨ c1.ack = true) ∧
              start f req hsR hsS s = (s.updChan f (afterDrain s f), .error .channelBusy)) ∨
            (c1.outstanding = false ∧ c1.pend = false ∧ c1.ack = false ∧ hsS = true ∧
              start f req hsR hsS s =
                (State.updChan { s with mem := writeSlot s.mem f x } f fun c =>
                  { afterDrain s f c with
                    sent := x, vfReq := req, vfRetry := 0, vfPolls := s.cfg.pollMax, vfHf := true, vstate := .wait },
                  .pending)) ∨
            (c1.outstanding = false ∧ c1.pend = false ∧ c1.ack = false ∧ hsS = false ∧
              start f req hsR hsS s =
                (State.updChan { s with mem := writeSlot s.mem f x } f fun c =>
                  { afterDrain s f c with
                    pend := true, outstanding := true, sent := x, vfReq := req, vfRetry := 0, vfPolls := 0, vfHf := false
                    vstate := .wait },
                  .pending)))))))))) := by
  intro stale c1
  cases hv : (s.chan f).vstate
  case wait => left; exact ⟨rfl, by simp [start, hv]⟩
  right
  refine ⟨rfl, ?_⟩
  cases hfa : (s.chan f).vfFaulted
  case true => left; exact ⟨rfl, by simp [start, hv, hfa]⟩
  right
  refine ⟨rfl, ?_⟩
  cases hc : compose s.cfg.ops (startMessage s f req) with
  | error e =>
    left
    refine ⟨e, rfl, ?_⟩
    simp only [startMessage] at hc
    simp [start, hv, hfa, hc]
  | ok x =>
    right
    refine ⟨x, rfl, ?_⟩
    simp only [startMessage] at hc
    have hx : x.length = 32 := by rw [(compose_ok_iff.mp hc).2]; exact encode_length _ _
    rcases drainStale_cases f hsR s with ⟨hn, he⟩ | ⟨h1, h2, hh, he⟩ | ⟨h1, h2, hh, he⟩
    · right
      refine ⟨fun h => absurd h hn, ?_⟩
      have hu : afterDrain s f = fun c => { c with tagNext := c.tagNext + 1 } := by
        funext c; simp only [afterDrain, if_neg hn]
      have hc1 : (s.updChan f (afterDrain s f)).chan f = c1 := updChan_chan_same s f _ hf
      have hb : bumpTag f s = s.updChan f (afterDrain s f) := by rw [hu]; rfl
      rcases sendVf_cases f x hsS (bumpTag f s) with ⟨h', _⟩ | h' | h' | h'
      · exact absurd hx h'
      · rw [hb, hc1] at h'
        left; exact ⟨h'.2.1, by simp [start, hv, hfa, hc, he, hb, h'.2.2]⟩
      · rw [hb, hc1] at h'
        obtain ⟨_, ho, hp, ha, hh, he'⟩ := h'
        right; left; refine ⟨ho, hp, ha, hh, ?_⟩
        simp [start, hv, hfa, hc, he, hb, he']
        exact updChan_withMem_updChan s f (afterDrain s f) _ _
      · rw [hb, hc1, updChan_withMem_updChan] at h'
        obtain ⟨_, ho, hp, ha, hh, he'⟩ := h'
        right; right; refine ⟨ho, hp, ha, hh, ?_⟩
        simp [start, hv, hfa, hc, he, hb, he', updChan_updChan]
    · left
      exact ⟨⟨h1, h2⟩, hh, by simp [start, hv, hfa, hc, he]⟩
    · right
      refine ⟨fun _ => hh, ?_⟩
      have hs : stale := ⟨h1, h2⟩
      have hu : afterDrain s f = fun c =>
          { c with ack := false, outstanding := false, vfRxbuf := readSlot s.mem f, tagNext := c.tagNext + 1 } := by
        funext c; simp only [afterDrain]; exact if_pos hs
      have hc1 : (s.updChan f (afterDrain s f)).chan f = c1 := updChan_chan_same s f _ hf
      have hb : bumpTag f (s.updChan f (fun c =>
          { c with ack := false, outstanding := false, vfRxbuf := readSlot s.mem f })) = s.updChan f (afterDrain s f) := by
        rw [hu, bumpTag, updChan_updChan]
      rcases sendVf_cases f x hsS (s.updChan f (afterDrain s f)) with ⟨h', _⟩ | h' | h' | h'
      · exact absurd hx h'
      · rw [hc1] at h'
        left; exact ⟨h'.2.1, by simp [start, hv, hfa, hc, he, hb, h'.2.2]⟩
      · rw [hc1] at h'
        obtain ⟨_, ho, hp, ha, hh', he'⟩ := h'
        right; left; refine ⟨ho, hp, ha, hh', ?_⟩
        simp [start, hv, hfa, hc, he, hb, he']
        exact updChan_withMem_updChan s f (afterDrain s f) _ _
      · rw [hc1, updChan_withMem_updChan] at h'
        obtain ⟨_, ho, hp, ha, hh', he'⟩ := h'
        right; right; refine ⟨ho, hp, ha, hh', ?_⟩
        simp [start, hv, hfa, hc, he, hb, he', updChan_updChan]

/-- What a poll does (R279, R280). -/
theorem poll_cases (f : FuncId) (hs : Bool) (s : State) :
    let c := s.chan f
    let y := readSlot s.mem f
    (¬(c.vstate = .wait ∧ c.vfPolls < s.cfg.pollMax) ∧ poll f hs s = (s, .notEnabled)) ∨
    ((c.vstate = .wait ∧ c.vfPolls < s.cfg.pollMax) ∧
      ((c.ack = false ∧ poll f hs s = (s.updChan f (fun c => { c with vfPolls := c.vfPolls + 1 }), .pending)) ∨
      (c.ack = true ∧ hs = true ∧
        poll f hs s = (s.updChan f (fun c => { c with vfHf := true, vfPolls := s.cfg.pollMax }), .pending)) ∨
      (c.ack = true ∧ hs = false ∧ correlates c.sent y = true ∧
        poll f hs s =
          (s.updChan f (fun c => { c with ack := false, outstanding := false, vfRxbuf := y, vstate := .idle }),
            .frame none y)) ∨
      (c.ack = true ∧ hs = false ∧ correlates c.sent y = false ∧
        poll f hs s =
          (s.updChan f (fun c =>
            { c with ack := false, outstanding := false, vfRxbuf := y, vfPolls := c.vfPolls + 1 }), .pending)))) := by
  intro c y
  by_cases h : c.vstate = .wait ∧ c.vfPolls < s.cfg.pollMax
  · right
    refine ⟨h, ?_⟩
    rcases receiveVf_cases f hs s with ⟨ha, he⟩ | ⟨ha, hh, he⟩ | ⟨ha, hh, he⟩
    · left; refine ⟨ha, ?_⟩
      simp only [c] at h
      simp [poll, h.1, h.2, he]
    · right; left; refine ⟨ha, hh, ?_⟩
      simp only [c] at h
      simp [poll, h.1, h.2, he]
    · right; right
      simp only [c] at h
      cases hc : correlates c.sent y
      · right; refine ⟨ha, hh, rfl, ?_⟩
        simp only [c, y] at hc
        simp [poll, h.1, h.2, he, hc, updChan_updChan, y]
      · left; refine ⟨ha, hh, rfl, ?_⟩
        simp only [c, y] at hc
        simp [poll, h.1, h.2, he, hc, updChan_updChan, y]
  · left; exact ⟨h, by simp only [poll]; exact if_neg h⟩

/-- What expiring does (R281). -/
theorem expire_cases (f : FuncId) (hs : Bool) (s : State) :
    (hs = true ∧ expire f hs s = s.updChan f (fun c => { c with outstanding := false, vfHf := true })) ∨
    (hs = false ∧
      expire f hs s = s.updChan f (fun c => { c with outstanding := false, pend := false, ack := false })) := by
  rcases clearAckVf_cases f hs s with ⟨hh, he⟩ | ⟨hh, he⟩
  · left; exact ⟨hh, by simp [expire, he, updChan_updChan]⟩
  · right; exact ⟨hh, by simp [expire, he]⟩

theorem waitOver_iff {f : FuncId} {s : State} :
    waitOver f s = true ↔ (s.chan f).vstate = .wait ∧ s.cfg.pollMax ≤ (s.chan f).vfPolls := by
  simp [waitOver]

/-- A wait that has made no poll is not over: `VF_POLL_MAX` is at least 1 (R9), so V2 and V3 come before V5 and V6. -/
theorem waitOver_of_no_poll {f : FuncId} {s : State} (h : (s.chan f).vfPolls = 0) : waitOver f s = false := by
  have := s.cfg.pollMax_pos
  simp [waitOver, h]; omega

/-- What V6 does (R283, R284). -/
theorem giveUp_cases (f : FuncId) (hs : Bool) (s : State) (hf : s.hasChan f = true) :
    (¬(waitOver f s = true ∧ (s.chan f).vfRetry = s.cfg.retryMax) ∧ giveUp f hs s = (s, .notEnabled)) ∨
    ((waitOver f s = true ∧ (s.chan f).vfRetry = s.cfg.retryMax) ∧
      ((hs = true ∧
        giveUp f hs s =
          (s.updChan f (fun c => { c with outstanding := false, vfHf := true, vstate := .idle, vfFaulted := true }),
            .error .hardwareFault)) ∨
      (hs = false ∧ (s.chan f).vfHf = true ∧
        giveUp f hs s =
          (s.updChan f (fun c =>
            { c with outstanding := false, pend := false, ack := false, vstate := .idle, vfFaulted := true }),
            .error .hardwareFault)) ∨
      (hs = false ∧ (s.chan f).vfHf = false ∧
        giveUp f hs s =
          (s.updChan f (fun c => { c with outstanding := false, pend := false, ack := false, vstate := .idle }),
            .error .timeout)))) := by
  by_cases h : waitOver f s = true ∧ (s.chan f).vfRetry = s.cfg.retryMax
  · right
    refine ⟨h, ?_⟩
    have hchan : ∀ u : Chan → Chan, (s.updChan f u).chan f = u (s.chan f) := fun u => updChan_chan_same s f u hf
    rcases expire_cases f hs s with ⟨hh, he⟩ | ⟨hh, he⟩
    · left; refine ⟨hh, ?_⟩
      simp [giveUp, h.1, h.2, he, updChan_updChan, hchan]
    · right
      cases hv : (s.chan f).vfHf
      · right; refine ⟨hh, rfl, ?_⟩
        simp [giveUp, h.1, h.2, he, updChan_updChan, hchan, hv]
      · left; refine ⟨hh, rfl, ?_⟩
        simp [giveUp, h.1, h.2, he, updChan_updChan, hchan, hv]
  · left; exact ⟨h, by simp only [giveUp, if_neg h]⟩

/-- The channel after V5's `clear_ack`. -/
def afterExpire (hsC : Bool) (c : Chan) : Chan :=
  if hsC then { c with outstanding := false, vfHf := true }
  else { c with outstanding := false, pend := false, ack := false }

/-- What V5 does when the request composes (R282). -/
theorem retry_cases (f : FuncId) (hsC hsS : Bool) (s : State) (hf : s.hasChan f = true) {x : Frame}
    (hx : compose s.cfg.ops ((s.chan f).vfReq.withHeader (requestHeader s f)) = .ok x) :
    let u : Chan → Chan := fun c =>
      { afterExpire hsC c with vfRetry := c.vfRetry + 1, tagNext := c.tagNext + 1, sent := x }
    (¬(waitOver f s = true ∧ (s.chan f).vfRetry < s.cfg.retryMax) ∧ retry f hsC hsS s = (s, .notEnabled)) ∨
    ((waitOver f s = true ∧ (s.chan f).vfRetry < s.cfg.retryMax) ∧
      ((hsC = true ∧ ((s.chan f).pend = true ∨ (s.chan f).ack = true) ∧
        retry f hsC hsS s =
          (s.updChan f (fun c => { u c with vfPolls := s.cfg.pollMax, vfHf := true }), .pending)) ∨
      (¬(hsC = true ∧ ((s.chan f).pend = true ∨ (s.chan f).ack = true)) ∧ hsS = true ∧
        retry f hsC hsS s =
          (State.updChan { s with mem := writeSlot s.mem f x } f
            (fun c => { u c with vfPolls := s.cfg.pollMax, vfHf := true }), .pending)) ∨
      (¬(hsC = true ∧ ((s.chan f).pend = true ∨ (s.chan f).ack = true)) ∧ hsS = false ∧
        retry f hsC hsS s =
          (State.updChan { s with mem := writeSlot s.mem f x } f
            (fun c => { u c with pend := true, outstanding := true, vfPolls := 0, vfHf := false }), .pending)))) := by
  intro u
  by_cases h : waitOver f s = true ∧ (s.chan f).vfRetry < s.cfg.retryMax
  swap
  · left; exact ⟨h, by simp only [retry, if_neg h]⟩
  right
  refine ⟨h, ?_⟩
  have hl : x.length = 32 := by rw [(compose_ok_iff.mp hx).2]; exact encode_length _ _
  have hex : expire f hsC s = s.updChan f (afterExpire hsC) := by
    rcases expire_cases f hsC s with ⟨hh, he⟩ | ⟨hh, he⟩ <;> subst hh <;> exact he
  have hs1 : (expire f hsC s).updChan f (fun c => { c with vfRetry := c.vfRetry + 1 }) =
      s.updChan f (fun c => { afterExpire hsC c with vfRetry := c.vfRetry + 1 }) := by
    rw [hex, updChan_updChan]
    cases hsC <;> rfl
  have hchan : ∀ v : Chan → Chan, (s.updChan f v).chan f = v (s.chan f) := fun v => updChan_chan_same s f v hf
  have hreq : ((s.updChan f (fun c => { afterExpire hsC c with vfRetry := c.vfRetry + 1 })).chan f).vfReq =
      (s.chan f).vfReq := by rw [hchan]; cases hsC <;> rfl
  have hhdr : requestHeader (s.updChan f (fun c => { afterExpire hsC c with vfRetry := c.vfRetry + 1 })) f =
      requestHeader s f := by
    simp only [requestHeader, hchan, updChan_cfg]; cases hsC <;> rfl
  have hb : (bumpTag f (s.updChan f (fun c => { afterExpire hsC c with vfRetry := c.vfRetry + 1 }))).updChan f
      (fun c => { c with sent := x }) = s.updChan f u := by
    rw [bumpTag, updChan_updChan, updChan_updChan]
    cases hsC <;> rfl
  have hmain : retry f hsC hsS s =
      match sendVf f x hsS (s.updChan f u) with
      | (s2, .ok _) => (s2.updChan f fun c => { c with vfPolls := 0, vfHf := false }, .pending)
      | (s2, .error _) => (s2.updChan f fun c => { c with vfPolls := s.cfg.pollMax, vfHf := true }, .pending) := by
    simp only [retry, if_pos h, hs1, hreq, hhdr, hx, hb]
    all_goals rfl
  have hu : (s.updChan f u).chan f = u (s.chan f) := hchan u
  have hout : (u (s.chan f)).outstanding = false := by simp only [u, afterExpire]; cases hsC <;> rfl
  have hpend : (u (s.chan f)).pend = (hsC && (s.chan f).pend) := by simp only [u, afterExpire]; cases hsC <;> rfl
  have hack : (u (s.chan f)).ack = (hsC && (s.chan f).ack) := by simp only [u, afterExpire]; cases hsC <;> rfl
  rcases sendVf_cases f x hsS (s.updChan f u) with ⟨h', _⟩ | h' | h' | h'
  · exact absurd hl h'
  · rw [hu, hout, hpend, hack] at h'
    obtain ⟨_, hb', he⟩ := h'
    left
    simp only [Bool.false_eq_true, false_or, Bool.and_eq_true] at hb'
    refine ⟨by tauto, by tauto, ?_⟩
    rw [hmain, he]
    simp [updChan_updChan]
  · rw [hu, hout, hpend, hack] at h'
    obtain ⟨_, _, hp, ha, hh, he⟩ := h'
    right; left
    refine ⟨?_, hh, ?_⟩
    · rintro ⟨rfl, hc | hc⟩ <;> simp_all
    · rw [hmain, he]
      exact congrArg (fun z => (z, Result.pending)) (updChan_withMem_updChan s f u _ _)
  · rw [hu, hout, hpend, hack, updChan_withMem_updChan] at h'
    obtain ⟨_, _, hp, ha, hh, he⟩ := h'
    right; right
    refine ⟨?_, hh, ?_⟩
    · rintro ⟨rfl, hc | hc⟩ <;> simp_all
    · rw [hmain, he]
      simp [updChan_updChan]

end Sys2Proof.Machine
end

