-- ==== Sys2Proof/Laws/Step.lean ====
section
/-! SUPPORT. One step, by what it fetches: the meaning of a message, the answer to a frame that does not parse, or the step of the
agent at the head of the schedule. -/

namespace Sys2Proof.Machine

open Sys2Proof

variable {s : State} {f : FuncId} {a : Action} {i : Instr}

/-- `step`, when something is scheduled. -/
theorem step_eq (h : s.sched.head? = some a) :
    step s =
      match fetch s with
      | .message i => exec i s
      | .malformed f => finish (decodeFailure f s)
      | .unparsed f e => finish (s, viewUnparsed (s.chan f).vfRxbuf e)
      | .nothing => agentStep a s := by
  cases hs : s.sched with
  | nil => simp [hs] at h
  | cons b rest =>
    simp only [hs, List.head?_cons, Option.some.injEq] at h
    subst h
    simp only [step, hs]
    all_goals rfl

/-- With nothing scheduled no agent acts. -/
theorem step_nil (h : s.sched = []) : step s = .next (s.retire .none none) := by simp [step, h]

/-- T2 on a frame that parses. -/
theorem step_decode (h : Due (.decode f) f s) (hd : (s.chan f).dstate = .decoding)
    (hp : parse s.cfg.ops (s.chan f).rxbuf = .ok i) : step s = exec i s := by
  rw [step_eq h.head, fetch, stageOf_decode h hd]; simp only [hp]

/-- T2 on a frame that does not parse. -/
theorem step_decode_malformed {e : Err} (h : Due (.decode f) f s) (hd : (s.chan f).dstate = .decoding)
    (hp : parse s.cfg.ops (s.chan f).rxbuf = .error e) : step s = finish (decodeFailure f s) := by
  rw [step_eq h.head, fetch, stageOf_decode h hd]; simp only [hp]

/-- T3. -/
theorem step_execute {x : PrivAnswer} {g : GrantTable} (h : Due (.execute f x g) f s)
    (hd : (s.chan f).dstate = .executing) : step s = exec (s.chan f).req s := by
  rw [step_eq h.head, fetch, stageOf_execute h hd]

/-- A caller reads a response that parses. -/
theorem step_read (h : Due (.readResponse f) f s) (hp : parse s.cfg.ops (s.chan f).vfRxbuf = .ok i) : step s = exec i s := by
  rw [step_eq h.head, fetch, stageOf_read h]; simp only [hp]

/-- A caller reads a frame that does not parse. -/
theorem step_read_unparsed {e : Err} (h : Due (.readResponse f) f s) (hp : parse s.cfg.ops (s.chan f).vfRxbuf = .error e) :
    step s = .next (s.retire (viewUnparsed (s.chan f).vfRxbuf e) none) := by
  rw [step_eq h.head, fetch, stageOf_read h]; simp only [hp, finish]

/-- The step works on no message. -/
theorem step_agent (h : s.sched.head? = some a) (hs : stageOf s = .off ∨ stageOf s = .absent) :
    step s = agentStep a s := by
  rw [step_eq h]
  rcases hs with hs | hs <;> simp only [fetch, hs]

/-- An agent's own step is `agentStep`. -/
theorem step_own (h : s.sched.head? = some a)
    (h1 : ∀ f, a ≠ .decode f) (h2 : ∀ f x g, a ≠ .execute f x g) (h3 : ∀ f, a ≠ .readResponse f) :
    step s = agentStep a s := by
  refine step_agent h (Or.inl ?_)
  rw [stageOf_eq h]
  cases a with
  | decode f => exact absurd rfl (h1 f)
  | execute f x g => exact absurd rfl (h2 f x g)
  | readResponse f => exact absurd rfl (h3 f)
  | _ => rfl

theorem onChannel_of {p : State × Result} (h : s.hasChan f = true) : onChannel f s p = finish p := by
  simp [onChannel, h]

theorem onChannel_absent {p : State × Result} (h : s.hasChan f = false) : onChannel f s p = .fault .noSuchChannel := by
  simp [onChannel, h]

@[simp] theorem finish_eq (t : State) (r : Result) : finish (t, r) = .next (t.retire r none) := rfl

/-! ## `exec` by the kind of the message -/

/-- The meaning of a request is `runRequest` with some condition and some success response. -/
theorem exec_request (h : i.dir = .req) :
    ∃ allowed reply, ∀ s, exec i s = runRequest i allowed reply s := by
  cases i <;> first | (cases h; done) | exact ⟨_, _, fun _ => rfl⟩

/-- The meaning of a response is `runResponse` with some view. -/
theorem exec_response (h : i.dir = .rsp) : ∃ view, ∀ s, exec i s = runResponse i view s := by
  cases i <;> first | (cases h; done) | exact ⟨_, fun _ => rfl⟩

/-- The condition of a request is the row of R249, and its success response is the one of R254. -/
theorem exec_request_rows (h : i.dir = .req) :
    ∃ allowed reply, (∀ s, exec i s = runRequest i allowed reply s) ∧
      (∀ f g, allowed f g = rowAllowed f g i) ∧ ∀ hd d, reply hd d = successReply hd i d := by
  cases i <;> first
    | (cases h; done)
    | (refine ⟨_, _, fun _ => rfl, fun _ _ => rfl, fun _ d => ?_⟩; cases d <;> rfl)

end Sys2Proof.Machine
end

