-- ==== Sys2Proof/Tests/Slice0.lean ====
section
/-! SUPPORT. Tests: the words of every message kind written out from the rules' examples and spec/95_test_vectors.md (the
vector's id stands at each), well-formedness smoke tests, single steps, and for every statement with hypotheses a state that
meets them. -/

namespace Sys2Proof.Tests

open Sys2Proof.Machine

set_option Elab.async false

/-- The frame with these words from word 0 on, the rest zero. -/
def frame (ws : List Word) : Frame := frameOf fun k => ws.getD k 0

/-- What `parse` reads from these words. -/
def reads (ws : List Word) (m : Instr) : Bool := decide (parse .default (frame ws) = .ok m)

/-- `parse` refuses these words and names this. -/
def malformed (ws : List Word) (i : Info) : Bool := decide (parse .default (frame ws) = .error (.malformedMessage i))

/-- `compose` refuses the message and names this. -/
def refuses (m : Instr) (i : Info) : Bool := !wellFormed m && decide (compose .default m = .error (.invalidArgument i))

/-- The descriptor `DS` of spec/95_test_vectors.md part C. -/
def ds : QDesc :=
  { ringBsAddr := 0x123456000, cmptRingBsAddr := 0x1ABCDE000
    forcedEn := 0, enBypass := 0, irqArm := 1, wbiIntvlEn := 0, wbiChk := 0, at_ := 0, wbkEn := 1, irqEn := 1
    pfchEn := 1, enBypassPrefetch := 0
    disOverflowCheck := 0, cmptIntEn := 1, cmptAt := 0, cmptColor := 1, cmptFullUpd := 0, cmptStatEn := 1
    descSz := 0, cmptDescSz := 1, triggerMode := 1
    funcId := 1, cntThres := 2, timerThres := 3
    intrId := 5, intrAggr := 0, ringSz := 1024, bufSz := 4096, cmptRingSz := 2048 }

/-- The selector of vector TC1 and TC12. -/
def sel : QSelT := ⟨3, 1, 1, 2⟩

/-- Words 2 to 10 of vector TC1. -/
def wordsDs : List Word :=
  [0x000B0003, 0x23456000, 0x00000001, 0xABCDE000, 0x00000001, 0x0014A9C4, 0x03020001, 0x04000005, 0x08001000]

/-! ## Every constructor's decoding, from a word the spec writes out -/

/-- R121, TB1. -/
theorem test_decode_vfOnlineReq : reads [0x00010713] (.vfOnlineReq ⟨7, 1, 0⟩) = true := by decide +kernel
/-- R122, TB2. -/
theorem test_decode_vfOnlineRsp : reads [0x01000793, 0, 0x11111111, 0x22222222, 0x33333333, 0x44444444]
    (.vfOnlineRsp ⟨7, 0, 1⟩ (.ok ⟨[0x11111111, 0x22222222, 0x33333333, 0x44444444]⟩)) = true := by decide +kernel
/-- R123. -/
theorem test_decode_vfOfflineReq : reads [0x00010814] (.vfOfflineReq ⟨8, 1, 0⟩) = true := by decide +kernel
/-- R124. -/
theorem test_decode_vfOfflineRsp : reads [0x01000894] (.vfOfflineRsp ⟨8, 0, 1⟩ (.ok .none)) = true := by decide +kernel
/-- TA5: word 1 of a request, the high half of word 3 and the last word are filler. -/
theorem test_decode_qreqReq : reads ([0x00010015, 0xDEADBEEF, 0xFFFFFFFF, 0xABCD0004] ++ List.replicate 28 0xFFFFFFFF)
    (.qreqReq ⟨0, 1, 0⟩ ⟨-1, 4⟩) = true := by decide +kernel
/-- R126. -/
theorem test_decode_qreqRsp : reads [0x01000095, 0, 0, 4] (.qreqRsp ⟨0, 0, 1⟩ (.ok ⟨0, 4⟩)) = true := by decide +kernel
/-- TB16. -/
theorem test_decode_qnotifyAddReq : reads [0x00010216, 0, 0xFFFF0003] (.qnotifyAddReq ⟨2, 1, 0⟩ ⟨3, 1, 1⟩) = true := by
  decide +kernel
/-- R128. -/
theorem test_decode_qnotifyAddRsp : reads [0x01000296] (.qnotifyAddRsp ⟨2, 0, 1⟩ (.ok .none)) = true := by decide +kernel
/-- R129. -/
theorem test_decode_qnotifyDelReq : reads [0x00010317, 0, 0x00030003] (.qnotifyDelReq ⟨3, 1, 0⟩ ⟨3, 1, 1⟩) = true := by
  decide +kernel
/-- R130, TB17. -/
theorem test_decode_qnotifyDelRsp : reads [0x01000397, 0xFFFFFFFE] (.qnotifyDelRsp ⟨3, 0, 1⟩ (.fail (-2))) = true := by
  decide +kernel
/-- TB12. -/
theorem test_decode_fmapReq : reads [0x00010418, 0, 0xFF, 0xFFFF, 0xFFFF] (.fmapReq ⟨4, 1, 0⟩ ⟨255, 65535, 65535⟩) = true := by
  decide +kernel
/-- TA7. -/
theorem test_decode_fmapRsp : reads [0x01000498, 0xFFFFFFF9] (.fmapRsp ⟨4, 0, 1⟩ (.fail (-7))) = true := by decide +kernel
/-- R156, TC1. -/
theorem test_decode_qctxtWrtReq : reads ([0x00010119, 0] ++ wordsDs) (.qctxtWrtReq ⟨1, 1, 0⟩ ⟨sel, ds⟩) = true := by
  decide +kernel
/-- TC16. -/
theorem test_decode_qctxtWrtRsp : reads [0x01000299, 0xFFFFFFFB] (.qctxtWrtRsp ⟨2, 0, 1⟩ (.fail (-5))) = true := by
  decide +kernel
/-- R158, TC12. -/
theorem test_decode_qctxtRdReq : reads [0x0001091A, 0, 0x000B0003] (.qctxtRdReq ⟨9, 1, 0⟩ sel) = true := by decide +kernel
/-- R159, TC13. -/
theorem test_decode_qctxtRdRsp : reads ([0x0100099A, 0] ++ wordsDs) (.qctxtRdRsp ⟨9, 0, 1⟩ (.ok ⟨sel, ds⟩)) = true := by
  decide +kernel
/-- R160, TC14. -/
theorem test_decode_qctxtInvReq : reads [0x00010A1B, 0, 0x000C0003] (.qctxtInvReq ⟨10, 1, 0⟩ ⟨3, 0, 0, 3⟩) = true := by
  decide +kernel
/-- R161. -/
theorem test_decode_qctxtInvRsp : reads [0x01000A9B] (.qctxtInvRsp ⟨10, 0, 1⟩ (.ok .none)) = true := by decide +kernel
/-- R162, TC15. -/
theorem test_decode_qctxtClrReq : reads [0x00010B1C, 0, 0x00040003] (.qctxtClrReq ⟨11, 1, 0⟩ ⟨3, 0, 0, 1⟩) = true := by
  decide +kernel
/-- R163. -/
theorem test_decode_qctxtClrRsp : reads [0x01000B9C] (.qctxtClrRsp ⟨11, 0, 1⟩ (.ok .none)) = true := by decide +kernel
/-- R133, TB18. -/
theorem test_decode_csrReq : reads [0x0001051D] (.csrReq ⟨5, 1, 0⟩) = true := by decide +kernel
/-- R134, TB19. -/
theorem test_decode_csrRsp : reads ([0x0100059D, 0] ++ (List.range 25).map fun k => BitVec.ofNat 32 (0x1000 + k))
    (.csrRsp ⟨5, 0, 1⟩ (.ok ⟨(List.range 25).map fun k => (0x1000 + k : Int)⟩)) = true := by decide +kernel
/-- TD3: the entries at and above `NUM_RINGS` are not read. -/
theorem test_decode_intrCtxtWrtReq :
    reads [0x00010D1E, 0, 1, 5, 77, 0, 0, 0, 0, 0, 0, 0xDEADBEEF, 0x00C0FFEE, 99]
      (.intrCtxtWrtReq ⟨13, 1, 0⟩ ⟨1, [5], [(0xDEADBEEF, 0x00C0FFEE)]⟩) = true := by decide +kernel
/-- R175. -/
theorem test_decode_intrCtxtWrtRsp : reads [0x0000069E] (.intrCtxtWrtRsp ⟨6, 0, 0⟩ (.ok .none)) = true := by decide +kernel
/-- TD8. -/
theorem test_decode_intrCtxtRdReq : reads [0x00010E1F, 0, 0x00000018, 0xFFFFF805, 1, 2, 3, 4, 5, 6, 7, 7]
    (.intrCtxtRdReq ⟨14, 1, 0⟩ ⟨8, [5, 1, 2, 3, 4, 5, 6, 7]⟩) = true := by decide +kernel
/-- R177, TD9. -/
theorem test_decode_intrCtxtRdRsp : reads [0x01000E9F, 0, 2, 5, 6, 0, 0, 0, 0, 0, 0, 1, 2, 3, 4]
    (.intrCtxtRdRsp ⟨14, 0, 1⟩ (.ok ⟨2, [5, 6], [(1, 2), (3, 4)]⟩)) = true := by decide +kernel
/-- R178, TD10. -/
theorem test_decode_intrCtxtInvReq : reads [0x00010F20, 0, 1, 5] (.intrCtxtInvReq ⟨15, 1, 0⟩ ⟨1, [5]⟩) = true := by
  decide +kernel
/-- R179. -/
theorem test_decode_intrCtxtInvRsp : reads [0x01000FA0] (.intrCtxtInvRsp ⟨15, 0, 1⟩ (.ok .none)) = true := by decide +kernel
/-- R180, TD11. -/
theorem test_decode_intrCtxtClrReq : reads [0x00011021, 0, 1, 0x7FF] (.intrCtxtClrReq ⟨16, 1, 0⟩ ⟨1, [2047]⟩) = true := by
  decide +kernel
/-- TA1: every header field at its maximum, the most negative status. -/
theorem test_decode_intrCtxtClrRsp :
    reads [0xFFFFFFA1, 0x80000000] (.intrCtxtClrRsp ⟨255, 255, 255⟩ (.fail (-2147483648))) = true := by decide +kernel

/-! ## Reserved and illegal encodings, and the encoder -/

/-- TA3, TA4, TB6, TB7, TB8, TB13, TC8, TC9, TD7: each is refused and the refusal names the field. -/
theorem test_parse_rejects :
    [0x00010000, 0x00010012, 0x00010022, 0x0001007F].all (fun w => malformed [w] .opcode) = true ∧
    malformed [0x01000093, 1] .status = true ∧
    malformed [0x00010115, 0, 0x00010000] .qbase = true ∧ malformed [0x00010115, 0, 0xFFFFFFFE] .qbase = true ∧
    malformed [0x01000195, 0, 0xFFFFFFFF, 4] .qbase = true ∧ malformed [0x00010418, 0, 1, 0xFFFFFFFF, 4] .qbase = true ∧
    [0x00060003, 0x00080003].all (fun w => malformed [0x0001091A, 0, w] .typeMode) = true ∧
    [0, 9, 15].all (fun w => malformed [0x00010E1F, 0, w] .numRings) = true := by decide +kernel

/-- TC11 and TC2: all ones, and a type that excludes the queue group. -/
theorem test_encode_qctxt :
    encode .default (.qctxtWrtReq ⟨255, 255, 255⟩ ⟨⟨65535, 1, 1, 2⟩,
      { ringBsAddr := 2 ^ 64 - 1, cmptRingBsAddr := 2 ^ 64 - 1
        forcedEn := 1, enBypass := 1, irqArm := 1, wbiIntvlEn := 1, wbiChk := 1, at_ := 1, wbkEn := 1, irqEn := 1
        pfchEn := 1, enBypassPrefetch := 1
        disOverflowCheck := 1, cmptIntEn := 1, cmptAt := 1, cmptColor := 1, cmptFullUpd := 1, cmptStatEn := 1
        descSz := 3, cmptDescSz := 3, triggerMode := 7
        funcId := 255, cntThres := 255, timerThres := 255
        intrId := 2047, intrAggr := 1, ringSz := 65535, bufSz := 65535, cmptRingSz := 65535 }⟩) =
      frame [0xFFFFFF19, 0, 0x000BFFFF, 0xFFFFFFFF, 0xFFFFFFFF, 0xFFFFFFFF, 0xFFFFFFFF, 0x007FFFFF, 0xFFFF00FF, 0xFFFF0FFF,
        0xFFFFFFFF] ∧
    parse .default (frame [0x00011119, 0, 0x00010002, 0xFFFFFFFF, 0, 0xABCDE000, 1, 0xFF94A800, 0x03020001, 0xFFFF0005, 0x08000000]) =
      .ok (.qctxtWrtReq ⟨17, 1, 0⟩ ⟨⟨2, 1, 0, 0⟩,
        { ds with ringBsAddr := 0, irqArm := 0, wbkEn := 0, irqEn := 0, pfchEn := 0, ringSz := 0, bufSz := 0 }⟩) := by
  decide +kernel

/-- A map that R86 allows beside the default one: `QREQ` at 127 and `CSR` at 0. -/
def otherMap : Config.OpMap where
  table := { Config.OpMap.default.table with qreq := 127, csr := 0 }
  legal := by decide

/-- R86: under another map the same message has that map's opcode and the default's is illegal; a table with a value twice, with one
of the two values the source fixes, or with a value above 127 is no map. -/
theorem test_opcode_map :
    parse otherMap (frame [0x0001007F, 0, 0xFFFFFFFF, 4]) = .ok (.qreqReq ⟨0, 1, 0⟩ ⟨-1, 4⟩) ∧
    parse otherMap (frame [0x00010015, 0, 0xFFFFFFFF, 4]) = .error (.malformedMessage .opcode) ∧
    encode otherMap (.csrRsp ⟨5, 0, 1⟩ (.fail (-1))) = frame [0x01000580, 0xFFFFFFFF] ∧
    [22, 19, 20, 128].all (fun n => !Config.OpTable.legal { Config.OpMap.default.table with qreq := n }) = true := by
  decide +kernel

/-! ## WellFormed: an ill-formed term for each check -/

/-- R98, TA2: tag and function ids. -/
theorem test_wf_header : refuses (.vfOnlineReq ⟨256, 1, 0⟩) .tag = true ∧ refuses (.vfOnlineReq ⟨-1, 1, 0⟩) .tag = true ∧
    refuses (.csrReq ⟨0, 256, 0⟩) .funcId = true ∧ refuses (.csrReq ⟨0, 1, -1⟩) .funcId = true := by decide +kernel
/-- TB4, TB5, TB9. -/
theorem test_wf_qrange : refuses (.qreqReq ⟨0, 1, 0⟩ ⟨0, 65536⟩) .qmax = true ∧
    refuses (.qreqReq ⟨0, 1, 0⟩ ⟨-2, 4⟩) .qbase = true ∧ refuses (.qreqReq ⟨0, 1, 0⟩ ⟨65536, 4⟩) .qbase = true ∧
    refuses (.qreqRsp ⟨1, 0, 1⟩ (.ok ⟨-1, 4⟩)) .qbase = true := by decide +kernel
/-- TB15, and R127's flags. -/
theorem test_wf_selector : refuses (.qnotifyAddReq ⟨0, 1, 0⟩ ⟨65536, 0, 0⟩) .qid = true ∧
    refuses (.qnotifyDelReq ⟨0, 1, 0⟩ ⟨3, 2, 0⟩) .flag = true ∧ refuses (.qnotifyDelReq ⟨0, 1, 0⟩ ⟨3, 0, -1⟩) .flag = true := by
  decide +kernel
/-- TC7, R92, R103 (c). -/
theorem test_wf_selectorType : refuses (.qctxtRdReq ⟨0, 1, 0⟩ ⟨3, 0, 1, 1⟩) .typeMode = true ∧
    refuses (.qctxtInvReq ⟨0, 1, 0⟩ ⟨3, 0, 0, 2⟩) .typeMode = true ∧
    refuses (.qctxtClrReq ⟨0, 1, 0⟩ ⟨3, 0, 0, 4⟩) .cmptCtxtType = true := by decide +kernel
/-- TB11, TB13. -/
theorem test_wf_fmap : refuses (.fmapReq ⟨0, 1, 0⟩ ⟨256, 0, 4⟩) .funcId = true ∧
    refuses (.fmapReq ⟨0, 1, 0⟩ ⟨1, -1, 4⟩) .qbase = true ∧ refuses (.fmapReq ⟨0, 1, 0⟩ ⟨1, 0, 65536⟩) .qmax = true := by
  decide +kernel
/-- TC10, TC3, TC5: a field too wide, and a field of an excluded group. -/
theorem test_wf_descriptor : refuses (.qctxtWrtReq ⟨1, 1, 0⟩ ⟨sel, { ds with intrId := 2048 }⟩) (.descField .intrId) = true ∧
    refuses (.qctxtWrtReq ⟨1, 1, 0⟩ ⟨sel, { ds with ringBsAddr := 2 ^ 64 }⟩) (.descField .ringBsAddr) = true ∧
    refuses (.qctxtWrtReq ⟨1, 1, 0⟩ ⟨sel, { ds with funcId := 256 }⟩) (.descField .funcId) = true ∧
    refuses (.qctxtWrtReq ⟨1, 1, 0⟩ ⟨⟨2, 1, 0, 0⟩,
      { ds with ringBsAddr := 0, irqArm := 0, wbkEn := 0, irqEn := 0, pfchEn := 0, bufSz := 0 }⟩) (.excluded .ringSz) = true := by decide +kernel
/-- TD4, TD5, TD6, and R173's contexts. -/
theorem test_wf_rings : refuses (.intrCtxtInvReq ⟨0, 1, 0⟩ ⟨0, []⟩) .numRings = true ∧
    refuses (.intrCtxtClrReq ⟨0, 1, 0⟩ ⟨9, List.replicate 9 1⟩) .numRings = true ∧
    refuses (.intrCtxtRdReq ⟨0, 1, 0⟩ ⟨2, [1]⟩) .listLength = true ∧
    refuses (.intrCtxtRdReq ⟨0, 1, 0⟩ ⟨1, [2048]⟩) .ringIndex = true ∧
    refuses (.intrCtxtWrtReq ⟨0, 1, 0⟩ ⟨1, [1], []⟩) .listLength = true ∧
    refuses (.intrCtxtWrtReq ⟨0, 1, 0⟩ ⟨1, [1], [(2 ^ 32, 0)]⟩) .ctxt = true := by decide +kernel
/-- TB20, R122, TA6. -/
theorem test_wf_response : refuses (.csrRsp ⟨5, 0, 1⟩ (.ok ⟨List.replicate 24 0⟩)) .csr = true ∧
    refuses (.vfOnlineRsp ⟨5, 0, 1⟩ (.ok ⟨[0, 0, 0, 2 ^ 32]⟩)) .devInfo = true ∧
    refuses (.vfOfflineRsp ⟨5, 0, 1⟩ (.fail 1)) .status = true ∧
    refuses (.fmapRsp ⟨5, 0, 1⟩ (.fail (-2147483649))) .status = true := by decide +kernel

/-! ## Single steps -/

/-- Channel 1 with the grants of spec/95_test_vectors.md part G. -/
def chan0 : Chan := { Chan.reset with grant := ⟨0, 4, [5]⟩ }

/-- The reset state with this channel 1 and this step due. -/
def on (c : Chan) (a : Action) : State := { State.reset with chans := [(1, c)], sched := [a] }

/-- The state after one step. -/
def after (s : State) : State :=
  match step s with
  | .next t => t
  | .fault _ => s
  | .refused _ => s

/-- The step answers a next state. -/
def goes (s : State) : Bool :=
  match step s with
  | .next _ => true
  | .fault _ => false
  | .refused _ => false

/-- A step that answers a next state answers `after`. -/
theorem step_after {s : State} (h : goes s = true) : step s = .next (after s) := by
  unfold goes at h; unfold after; split at h <;> simp_all

/-- T3 on the request `m` of channel 1 puts these words into `RESP[1]`, and calls `PRIV` as `called` says. -/
def served (m : Instr) (a : PrivAnswer) (ws : List Word) (called : Bool) : Bool :=
  let t := after (on { chan0 with req := m, dstate := .executing } (.execute 1 a []))
  decide ((t.chan 1).resp = frame ws) && decide ((t.chan 1).dstate = .responding) && t.priv.isSome == called

/-- The VF's caller learns this from these words in `VF_RXBUF[1]`. -/
def learns (ws : List Word) (r : Result) : Bool :=
  decide ((after (on { chan0 with vfRxbuf := frame ws } (.readResponse 1))).result = r)

/-- The frame in `SLOT[1]`, `PEND ACK OUTSTANDING ACK_SHADOW` and the result after one step. -/
def leaves (c : Chan) (a : Action) (p k o sh : Bool) (r : Result) : Bool :=
  let t := after (on c a)
  decide (((t.chan 1).pend, (t.chan 1).ack, (t.chan 1).outstanding, (t.chan 1).ackShadow) = (p, k, o, sh)) &&
    decide (t.result = r)

/-- TG27. -/
theorem test_step_vfOnlineReq : served (.vfOnlineReq ⟨7, 1, 0⟩) (.answer 0 (.devInfo ⟨[1, 2, 3, 4]⟩))
    [0x01000793, 0, 1, 2, 3, 4] true = true := by decide +kernel
/-- R124's example, as the answer to R123's. -/
theorem test_step_vfOfflineReq : served (.vfOfflineReq ⟨8, 1, 0⟩) (.answer 0 .none) [0x01000894] true = true := by
  decide +kernel
/-- TG1, TG2, TG17. -/
theorem test_step_qreqReq :
    served (.qreqReq ⟨0, 1, 0⟩ ⟨-1, 4⟩) (.answer 0 (.qrange ⟨0, 4⟩)) [0x01000095, 0, 0, 4] true = true ∧
    served (.qreqReq ⟨0, 2, 0⟩ ⟨-1, 4⟩) .throw [0x01000095, 0xFFFFFFFB] false = true ∧
    served (.qreqReq ⟨13, 1, 0⟩ ⟨-1, 4⟩) (.answer 0 (.qrange ⟨70000, 4⟩)) [0x01000D95, 0xFFFFFFF9] true = true := by
  decide +kernel
/-- R247: queue 4 is the first outside [0,4). -/
theorem test_step_qnotifyAddReq :
    served (.qnotifyAddReq ⟨2, 1, 0⟩ ⟨3, 1, 1⟩) (.answer 0 .none) [0x01000296] true = true ∧
    served (.qnotifyAddReq ⟨2, 1, 0⟩ ⟨4, 1, 1⟩) (.answer 0 .none) [0x01000296, 0xFFFFFFFB] false = true := by decide +kernel
/-- TG14, TG15, TG16. -/
theorem test_step_qnotifyDelReq :
    served (.qnotifyDelReq ⟨10, 1, 0⟩ ⟨3, 1, 1⟩) (.answer (-2) .none) [0x01000A97, 0xFFFFFFFE] true = true ∧
    served (.qnotifyDelReq ⟨11, 1, 0⟩ ⟨3, 1, 1⟩) (.answer (-9) .none) [0x01000B97, 0xFFFFFFF9] true = true ∧
    served (.qnotifyDelReq ⟨12, 1, 0⟩ ⟨3, 1, 1⟩) (.answer 1 .none) [0x01000C97, 0xFFFFFFF9] true = true := by decide +kernel
/-- TG18 to TG21. -/
theorem test_step_fmapReq :
    served (.fmapReq ⟨14, 1, 0⟩ ⟨1, 0, 4⟩) (.answer 0 .none) [0x01000E98] true = true ∧
    served (.fmapReq ⟨15, 1, 0⟩ ⟨2, 0, 4⟩) (.answer 0 .none) [0x01000F98, 0xFFFFFFFB] false = true ∧
    served (.fmapReq ⟨16, 1, 0⟩ ⟨1, 2, 3⟩) (.answer 0 .none) [0x01001098, 0xFFFFFFFB] false = true ∧
    served (.fmapReq ⟨17, 1, 0⟩ ⟨1, 100, 0⟩) (.answer 0 .none) [0x01001198] true = true := by decide +kernel
/-- TG4, TG6 to TG9. -/
theorem test_step_qctxtWrtReq :
    served (.qctxtWrtReq ⟨1, 1, 0⟩ ⟨sel, ds⟩) (.answer 0 .none) [0x01000199] true = true ∧
    served (.qctxtWrtReq ⟨3, 1, 0⟩ ⟨⟨4, 1, 1, 2⟩, ds⟩) (.answer 0 .none) [0x01000399, 0xFFFFFFFB] false = true ∧
    served (.qctxtWrtReq ⟨4, 1, 0⟩ ⟨sel, { ds with funcId := 2 }⟩) (.answer 0 .none) [0x01000499, 0xFFFFFFFB] false = true ∧
    served (.qctxtWrtReq ⟨5, 1, 0⟩ ⟨sel, { ds with intrId := 6 }⟩) (.answer 0 .none) [0x01000599, 0xFFFFFFFB] false = true ∧
    served (.qctxtWrtReq ⟨6, 1, 0⟩ ⟨sel, { ds with intrId := 6, irqEn := 0, cmptIntEn := 0 }⟩) (.answer 0 .none) [0x01000699]
      true = true := by decide +kernel
/-- R159's example, as the answer to R158's. -/
theorem test_step_qctxtRdReq :
    served (.qctxtRdReq ⟨9, 1, 0⟩ sel) (.answer 0 (.desc ds)) ([0x0100099A, 0] ++ wordsDs) true = true := by decide +kernel
/-- R161's example, as the answer to R160's. -/
theorem test_step_qctxtInvReq : served (.qctxtInvReq ⟨10, 1, 0⟩ ⟨3, 0, 0, 3⟩) (.answer 0 .none) [0x01000A9B] true = true := by
  decide +kernel
/-- Program P7, step 7. -/
theorem test_step_qctxtClrReq :
    served (.qctxtClrReq ⟨1, 1, 0⟩ ⟨5, 0, 0, 3⟩) (.answer 0 .none) [0x0100019C, 0xFFFFFFFB] false = true := by decide +kernel
/-- TG13. -/
theorem test_step_csrReq : served (.csrReq ⟨9, 1, 0⟩) .throw [0x0100099D, 0xFFFFFFF9] true = true := by decide +kernel
/-- TG22. -/
theorem test_step_intrCtxtWrtReq :
    served (.intrCtxtWrtReq ⟨18, 1, 0⟩ ⟨1, [5], [(0xDEADBEEF, 0x00C0FFEE)]⟩) (.answer 0 .none) [0x0100129E] true = true := by
  decide +kernel
/-- TG23, TG24. -/
theorem test_step_intrCtxtRdReq :
    served (.intrCtxtRdReq ⟨19, 1, 0⟩ ⟨2, [5, 6]⟩) (.answer 0 .none) [0x0100139F, 0xFFFFFFFB] false = true ∧
    served (.intrCtxtRdReq ⟨20, 1, 0⟩ ⟨1, [5]⟩) (.answer 0 (.ctxt [(1, 2)]))
      [0x0100149F, 0, 1, 5, 0, 0, 0, 0, 0, 0, 0, 1, 2] true = true := by decide +kernel
/-- R179's example, as the answer to R178's. -/
theorem test_step_intrCtxtInvReq : served (.intrCtxtInvReq ⟨15, 1, 0⟩ ⟨1, [5]⟩) (.answer 0 .none) [0x01000FA0] true = true := by
  decide +kernel
/-- R249: vector 2047 is not granted. -/
theorem test_step_intrCtxtClrReq :
    served (.intrCtxtClrReq ⟨16, 1, 0⟩ ⟨1, [2047]⟩) (.answer 0 .none) [0x010010A1, 0xFFFFFFFB] false = true := by decide +kernel

/-- R286 with TE16, TE17, TE19 to TE23: the responses that carry data. -/
theorem test_step_dataResponses :
    learns [0x01000793, 0, 1, 2, 3, 4] (.fields (.devInfo ⟨[1, 2, 3, 4]⟩)) = true ∧
    learns [0x01000095, 0, 0, 4] (.fields (.qinfo ⟨0, 4⟩)) = true ∧
    learns [0x01000095, 0xFFFFFFFD, 0x12345678] (.status (.failed .resourceExhausted)) = true ∧
    learns ([0x0100059D, 0] ++ List.replicate 30 7) (.fields (.csr ⟨List.replicate 25 7⟩)) = true ∧
    learns ([0x0100099A, 0] ++ wordsDs) (.fields (.qctxt ⟨sel, ds⟩)) = true ∧
    learns [0x01000E9F, 0, 2, 5, 6, 0, 0, 0, 0, 0, 0, 1, 2, 3, 4]
      (.fields (.intrCtxt ⟨2, [5, 6], [(1, 2), (3, 4)]⟩)) = true ∧
    learns [0x01000E9F, 0, 0] (.error (.malformedMessage .numRings)) = true := by decide +kernel

/-- R286 with TE9 to TE14: the status-only responses, the generic malformed-request response, and a request. -/
theorem test_step_statusResponses :
    [0x94, 0x96, 0x97, 0x98, 0x99, 0x9B, 0x9C, 0x9E, 0xA0, 0xA1].all (fun w =>
      learns [w] (.status .success) && learns [w, 0xFFFFFFF0] (.status (.failed (.other (-16)))) &&
        learns [w, 1] (.error (.malformedMessage .positiveStatus))) = true ∧
    learns [0x01000585, 0xFFFFFFFA] (.status (.failed .malformed)) = true ∧
    learns [0x00010015] (.error (.malformedMessage .notAResponse)) = true := by decide +kernel

/-- R86, R241: a state whose map is another one serves `QREQ` under that map's opcode. -/
theorem test_step_otherMap :
    ((after { on { chan0 with req := .qreqReq ⟨0, 1, 0⟩ ⟨-1, 4⟩, dstate := .executing } (.execute 1 (.answer 0 (.qrange ⟨0, 4⟩)) [])
      with cfg := { Config.defaults with ops := otherMap } }).chan 1).resp = frame [0x010000FF, 0, 0, 4] := by decide +kernel

/-- R41, R250, R255: the grant tables change by the resource manager's step, and by the host's `handle_request` when it calls `PRIV`
(TG1's request) and not when the request is refused (TG2's). -/
theorem test_grants :
    ((after (on chan0 (.setGrants [(1, ⟨8, 2, []⟩)]))).chan 1).grant = ⟨8, 2, []⟩ ∧
    (after (on chan0 (.setGrants [(2, ⟨8, 2, []⟩)]))).chan 1 = chan0 ∧
    (after (on chan0 (.handleRequest 1 (frame [0x00010015, 0, 0xFFFFFFFF, 4]) (.answer 0 (.qrange ⟨0, 4⟩)) [(1, ⟨8, 2, []⟩)]))).result =
      .frame none (frame [0x01000095, 0, 0, 4]) ∧
    ((after (on chan0 (.handleRequest 1 (frame [0x00010015, 0, 0xFFFFFFFF, 4]) .throw [(1, ⟨8, 2, []⟩)]))).chan 1).grant =
      ⟨8, 2, []⟩ ∧
    (after (on chan0 (.handleRequest 1 (frame [0x00020015, 0, 0xFFFFFFFF, 4]) .throw [(1, ⟨8, 2, []⟩)]))).chan 1 = chan0 := by
  decide +kernel

/-- TE1 to TE8. -/
theorem test_correlator :
    isResponse (frame [0x00010015]) (frame [0x01000095]) = .ok true ∧
    [0x01000195, 0x02000095, 0x01000015, 0x01000096, 0x01020095].all
      (fun w => decide (isResponse (frame [0x00010015]) (frame [w]) = .ok false)) = true ∧
    isResponse (frame [0x01000095]) (frame [0x01000095]) = .ok false ∧
    isResponse (frame [0x00010505]) (frame [0x01000585]) = .ok true := by decide +kernel

/-- TF2 to TF12, each from the flags it names. -/
theorem test_handshake :
    leaves chan0 (.sendVf 1 (frame [1]) true) false false false false (.error .hardwareFault) = true ∧
    leaves chan0 (.receivePf 1 false) false false false false (.error .noMessage) = true ∧
    leaves { chan0 with pend := true, outstanding := true } (.receivePf 1 true) true false true false
      (.error .hardwareFault) = true ∧
    leaves { chan0 with outstanding := true } (.sendPf (frame [0x01000095]) true) false false true true
      (.error .hardwareFault) = true ∧
    leaves { chan0 with outstanding := true } (.sendPf (frame [0x07000095]) false) false false true false
      (.error (.invalidArgument .noSuchChannel)) = true ∧
    leaves { chan0 with ack := true, outstanding := true, ackShadow := true } (.clearAckVf 1 false) false false false true
      .ok = true ∧
    leaves { chan0 with ack := true, outstanding := true, ackShadow := true } (.clearAckPf 1 false) false false false false
      .ok = true ∧
    leaves { chan0 with pend := true, outstanding := true } (.clearAckVf 1 true) true false false false
      (.error .hardwareFault) = true ∧
    leaves { chan0 with ack := true, ackShadow := true } (.sendVf 1 (frame [1]) false) false true false true
      (.error .channelBusy) = true := by decide +kernel

/-- The transition-level vectors of part G: T1 with a failed handshake, T4 on a slot that is not free, T5. -/
theorem test_dispatcher :
    ((after (on { chan0 with pend := true } (.accept 1 true))).chan 1).dstate = .faulted ∧
    ((after (on { chan0 with pend := true } (.accept 1 true))).chan 1).pend = true ∧
    ((after (on { chan0 with ack := true, dstate := .responding, resp := frame [0x01000095] } (.respond 1 false))).chan 1).dstate
      = .responding ∧
    readSlot (after { on { chan0 with pend := true, dstate := .responding } (.busyReject 1 false false) with
      mem := writeSlot [] 1 (frame [0x0001011D]) }).mem 1 = frame [0x0100019D, 0xFFFFFFFC] := by decide +kernel

/-- Program P1 step 1, TH5, TH8, program P6 steps 1 and 2. -/
theorem test_requester :
    readSlot (after (on chan0 (.start 1 (.qreq ⟨-1, 4⟩) false false))).mem 1 = frame [0x00010015, 0, 0xFFFFFFFF, 4] ∧
    (after (on chan0 (.start 1 (.qreq ⟨-1, 65536⟩) false false))).chan 1 = chan0 ∧
    ((after (on { chan0 with tagNext := 255 } (.start 1 .csr false false))).chan 1).tagNext = 0 ∧
    ((after (on chan0 (.start 1 .csr true true))).chan 1).vfPolls = 8 ∧
    ((after (on { chan0 with vstate := .wait, vfReq := .csr, vfPolls := 8, vfHf := true, tagNext := 1 } (.retry 1 true true))).chan
      1).sent = frame [0x0001011D] := by decide +kernel

/-- R322, R323, R46: what the two initialisations reset, and power-on reset. -/
theorem test_initialisation :
    ((after (on { chan0 with pend := true, dstate := .faulted, tagNext := 9 } (.hwInit .pf))).chan 1).dstate = .idle ∧
    ((after (on { chan0 with pend := true, dstate := .faulted, tagNext := 9 } (.hwInit .pf))).chan 1).tagNext = 9 ∧
    ((after (on { chan0 with dstate := .faulted, vfFaulted := true } (.hwInit (.vf 1)))).chan 1).vfFaulted = false ∧
    ((after (on { chan0 with dstate := .faulted, vfFaulted := true } (.hwInit (.vf 1)))).chan 1).dstate = .faulted ∧
    (after (on { chan0 with pend := true } .powerOn)).chan 1 = Chan.reset := by decide +kernel

/-- R300, TF13. -/
theorem test_interrupts : irqPf (after (on { chan0 with pend := true } (.enableInterrupts .pf))) = true ∧
    irqVf 1 (after (on { chan0 with ack := true } (.enableInterrupts (.vf 1)))) = true ∧
    irqPf (on { chan0 with pend := true } .powerOn) = false := by decide +kernel

/-- A word of the opcode table runs as the first message after reset (log 11). -/
theorem test_placed_word : decodeTableWord 32 0x13 = some (.vfOnlineReq ⟨0, 0, 0⟩) ∧
    goes (State.reset.withFetchWord 32 0x13) = true ∧ goes (State.reset.withFetchWord 32 0x93) = true ∧
    goes (State.reset.withFetchWord 32 0x1F) = true := by decide +kernel

/-! ## Witnesses: for every statement with hypotheses, states and operands that meet them -/

/-- The step is due on channel 1. -/
theorem due (c : Chan) (a : Action) : Due a 1 (on c a) := ⟨rfl, rfl⟩

/-- Channel 1 with `m` in `REQ[1]` and T3 due. -/
def executing (m : Instr) (a : PrivAnswer) : State :=
  on { chan0 with req := m, dstate := .executing } (.execute 1 a [(1, ⟨0, 8, [5]⟩)])

/-- The request is authorised for function 1 there. -/
theorem permitted {m : Instr} (h : authorised 0 1 ⟨0, 4, [5]⟩ m = true) : Permitted 0 1 ⟨0, 4, [5]⟩ m := authorised_iff.1 h

/-- Channel 1 waiting for an answer to `CSR.REQ tag=0`. -/
def waiting (polls retries : Nat) : Chan :=
  { chan0 with
    pend := true, outstanding := true, tagNext := 1, vstate := .wait, vfReq := .csr, sent := frame [0x0001001D]
    vfPolls := polls, vfRetry := retries }

/-- A waiting channel satisfies the invariant. -/
theorem waiting_inv (polls retries : Nat) (hp : polls ≤ 8) (hr : retries ≤ 3) (a : Action) : Inv (on (waiting polls retries) a) :=
  { mem := rfl
    slots := by intro p hp; cases hp
    keys := by simp [on]
    pfNoChan := rfl
    chans := by
      intro p h
      simp only [on, List.mem_singleton] at h
      subst h
      refine ⟨by simp [waiting, chan0, Chan.reset], by rfl, by rfl, by rfl, by rfl, ?_, ?_, fun _ => hp, fun _ => hr, ?_, ?_⟩
      · intro h; cases h
      · intro h; cases h
      · intro _ tag
        have h := tag.isLt
        simp only [waiting, Request.withHeader, WellFormed, wellFormed, Instr.header, Instr.bodyLegal, Header.legal, fits]
        simp
        omega
      · intro _
        show dirOf (frame [0x0001001D]) = 0 ∧ srcOf (frame [0x0001001D]) = 1 ∧ dstOf (frame [0x0001001D]) = 0
        decide +kernel }

/-- Hypotheses of the codec statements, the boundary values of each clause among them: opcodes 18, 19, 33, 34; bases −2, −1,
65535, 65536; ring counts 0, 1, 8, 9. -/
theorem test_witness_codec :
    WellFormed (.vfOnlineReq ⟨7, 1, 0⟩) ∧ ¬WellFormed (.vfOnlineReq ⟨256, 1, 0⟩) ∧
    compose .default (.qreqReq ⟨0, 1, 0⟩ ⟨-1, 4⟩) = .ok (frame [0x00010015, 0, 0xFFFFFFFF, 4]) ∧
    parse .default (frame [0x00010015, 0xDEADBEEF, 0xFFFFFFFF, 0xABCD0004]) = .ok (.qreqReq ⟨0, 1, 0⟩ ⟨-1, 4⟩) ∧
    (frame [0x00010015, 0, 0xFFFFFFFF, 4]).length = 32 ∧
    ((List.range 32).all fun k =>
      word (frame [0x00010015, 0, 0xFFFFFFFF, 4]) k &&& fieldMask (.qreqReq ⟨0, 1, 0⟩ ⟨-1, 4⟩) k ==
        word (frame [0x00010015, 0xDEADBEEF, 0xFFFFFFFF, 0xABCD0004]) k &&& fieldMask (.qreqReq ⟨0, 1, 0⟩ ⟨-1, 4⟩) k) = true ∧
    [0x12, 0x22].all (fun w => malformed [w] .opcode) = true ∧ [0x13, 0x1D].all (fun w => !malformed [w] .opcode) = true ∧
    opcOf (frame [0x15, 0, 0xFFFFFFFE]) = Op.qreq.code .default ∧
    [0xFFFFFFFF, 0xFFFF].all (fun w => !malformed [0x15, 0, w] .qbase) = true ∧
    [0xFFFFFFFE, 0x10000].all (fun w => malformed [0x15, 0, w] .qbase) = true ∧
    [1, 8].all (fun w => !malformed [0x20, 0, w] .numRings) = true ∧
    [0, 9].all (fun w => malformed [0x20, 0, w] .numRings) = true := by decide +kernel

/-- `HoldsReserved` on both sides of a boundary: base −2 and base −1 of a `QREQ` request. -/
theorem test_witness_reserved :
    HoldsReserved .qreq (frame [0x15, 0, 0xFFFFFFFE]) ∧ ¬HoldsReserved .qreq (frame [0x15, 0, 0xFFFFFFFF]) := by
  have h0 : dirOf (frame [0x15, 0, 0xFFFFFFFE]) = 0 := by decide +kernel
  have h1 : dirOf (frame [0x15, 0, 0xFFFFFFFF]) = 0 := by decide +kernel
  simp only [HoldsReserved, h0, h1, if_true]
  decide +kernel

/-- T2 on an illegal opcode: 18 and 34, the two boundary values. -/
theorem test_witness_illegalOpcode :
    (∀ w : Word, Due (.decode 1) 1 (on { chan0 with dstate := .decoding, rxbuf := frame [w] } (.decode 1)) ∧
      (frame [w]).length = 32) ∧ opcOf (frame [0x12]) = 18 ∧ opcOf (frame [0x22]) = 34 ∧
    ∀ a : Op, a.code .default ≠ 18 ∧ a.code .default ≠ 34 :=
  ⟨fun w => ⟨due _ _, by simp [frame, frameOf]⟩, by decide +kernel, by decide +kernel, fun a => by cases a <;> decide⟩

/-- A buffer of 31 words, and the steps that are handed one. -/
theorem test_witness_wrongLength :
    (List.replicate 31 (0 : Word)).length ≠ 32 ∧
    Due (.sendVf 1 (List.replicate 31 0) true) 1 (on chan0 (.sendVf 1 (List.replicate 31 0) true)) ∧
    (on chan0 (.sendPf (List.replicate 31 0) true)).sched.head? = some (.sendPf (List.replicate 31 0) true) ∧
    Due (.handleRequest 1 (List.replicate 31 0) .throw []) 1 (on chan0 (.handleRequest 1 (List.replicate 31 0) .throw [])) :=
  ⟨by decide, due _ _, rfl, due _ _⟩

/-- The byte image of a 32-word frame over a memory in canonical form. -/
theorem test_witness_byteImage : (frame [1, 2]).length = 32 ∧ Memory.wf [(5, 7)] = true := by decide +kernel

/-- The correlator's hypotheses: a request and its response; one response for two requests of one tag. -/
theorem test_witness_correlator :
    (frame [0x00010015]).length = 32 ∧ dirOf (frame [0x00010015]) = 0 ∧
    isResponse (frame [0x00010015]) (frame [0x01000095]) = .ok true ∧
    isResponse (frame [0x00010015, 9]) (frame [0x01000095]) = .ok true := by decide +kernel

/-- `status` and the getters: each clause, at the boundary values 1, 0, −1 of the status and 0, 1, 8, 9 of the count. -/
theorem test_witness_status :
    dirOf (frame [0x15]) = 0 ∧ dirOf (frame [0x95]) = 1 ∧ opcOf (frame [0x95]) = Getter.qinfo.op.code .default ∧
    opcOf (frame [0x96]) ≠ Getter.qinfo.op.code .default ∧ 0 < s32 (word (frame [0x95, 1]) 1) ∧ s32 (word (frame [0x95]) 1) = 0 ∧
    s32 (word (frame [0x95, 0xFFFFFFFF]) 1) < 0 ∧ (-8 : Int) < -7 ∧
    opcOf (frame [0x93]) = 19 ∧ opcOf (frame [0x9D]) = 29 ∧ opcOf (frame [0x9A]) = 26 ∧ opcOf (frame [0x9F]) = 31 ∧
    field (word (frame [0x9F, 0, 1]) 2) 3 0 = 1 ∧ field (word (frame [0x9F, 0, 8]) 2) 3 0 = 8 ∧
    field (word (frame [0x9F, 0, 0x10]) 2) 3 0 = 0 ∧ field (word (frame [0x9F, 0, 9]) 2) 3 0 = 9 := by decide +kernel

/-- A frame that does not parse stands at its reader, at every clause: 31 words, a request, status 1, −1 and 0; and the generic
malformed-request response to opcode 5, the illegal opcode of TE8, tag 255. -/
theorem test_witness_unparsed :
    (∀ x : Frame, Due (.readResponse 1) 1 (on { chan0 with vfRxbuf := x } (.readResponse 1)) ∧
      (on { chan0 with vfRxbuf := x } (.readResponse 1)).chan 1 = { chan0 with vfRxbuf := x }) ∧
    parse .default (List.replicate 31 0) = .error (.malformedMessage .length) ∧
    [[0x22], [0xA2, 1], [0xA2, 0xFFFFFFFF], [0xA2]].all (fun ws => malformed ws .opcode) = true ∧
    dirOf (frame [0x22]) = 0 ∧ dirOf (frame [0xA2]) = 1 ∧ s32 (word (frame [0xA2, 1]) 1) = 1 ∧
    s32 (word (frame [0xA2, 0xFFFFFFFF]) 1) = -1 ∧ s32 (word (frame [0xA2]) 1) = 0 ∧
    frame [0x0100FF85, 0xFFFFFFFA] = statusFrame 5 255 0 1 (-6) :=
  ⟨fun _ => ⟨due _ _, rfl⟩, by decide +kernel⟩

/-- The grant tables change with a step due: the resource manager's, and the host's `handle_request` of a 32-word frame. -/
theorem test_witness_grants :
    (on chan0 (.setGrants [(1, ⟨8, 2, []⟩)])).sched.head? = some (.setGrants [(1, ⟨8, 2, []⟩)]) ∧
    goes (on chan0 (.setGrants [(1, ⟨8, 2, []⟩)])) = true ∧
    Due (.handleRequest 1 (frame [0x0001051D]) .throw []) 1 (on chan0 (.handleRequest 1 (frame [0x0001051D]) .throw [])) ∧
    (frame [0x0001051D]).length = 32 := ⟨rfl, by decide +kernel, due _ _, by decide +kernel⟩

/-- `step` on a message: T2, T3 and the reader. -/
theorem test_witness_stepRuns :
    Due (.decode 1) 1 (on { chan0 with dstate := .decoding, rxbuf := frame [0x00010713] } (.decode 1)) ∧
    parse .default (frame [0x00010713]) = .ok (.vfOnlineReq ⟨7, 1, 0⟩) ∧
    Due (.execute 1 .throw [(1, ⟨0, 8, [5]⟩)]) 1 (executing (.csrReq ⟨9, 1, 0⟩) .throw) ∧
    ((executing (.csrReq ⟨9, 1, 0⟩) .throw).chan 1).dstate = .executing ∧
    Due (.readResponse 1) 1 (on { chan0 with vfRxbuf := frame [0x01000894] } (.readResponse 1)) ∧
    parse .default (frame [0x01000894]) = .ok (.vfOfflineRsp ⟨8, 0, 1⟩ (.ok .none)) ∧
    State.reset.chans ≠ [] ∧ decodeWord State.reset.cfg.ops 32 0x13 = some (.vfOnlineReq ⟨0, 0, 0⟩) :=
  ⟨due _ _, by decide +kernel, due _ _, by decide +kernel, due _ _, by decide +kernel, by decide, by decide +kernel⟩

/-- A step of a channel outside `VFSET`, and one of a channel in it. -/
theorem test_witness_absentChannel :
    (∃ a f, (on chan0 (.accept 7 false)).sched.head? = some a ∧ channelOf a = some f ∧ (on chan0 (.accept 7 false)).hasChan f = false) ∧
    ¬∃ a f, (on chan0 (.accept 1 false)).sched.head? = some a ∧ channelOf a = some f ∧
      (on chan0 (.accept 1 false)).hasChan f = false := by
  refine ⟨⟨_, 7, rfl, rfl, by decide⟩, ?_⟩
  rintro ⟨a, f, ha, hf, hc⟩
  cases ha
  cases hf
  exact absurd hc (by decide)

/-- The requests that answer with data: authorised, tag at the boundary 255, data at the boundary of its range. -/
theorem test_witness_dataRequests :
    (Due (.execute 1 (.answer 0 (.devInfo ⟨[0, 1, 2, 2 ^ 32 - 1]⟩)) [(1, ⟨0, 8, [5]⟩)]) 1
        (executing (.vfOnlineReq ⟨255, 1, 0⟩) (.answer 0 (.devInfo ⟨[0, 1, 2, 2 ^ 32 - 1]⟩))) ∧
      ((executing (.vfOnlineReq ⟨255, 1, 0⟩) .throw).chan 1).dstate = .executing ∧
      Permitted 0 1 ⟨0, 4, [5]⟩ (.vfOnlineReq ⟨255, 1, 0⟩)) ∧
    Permitted 0 1 ⟨0, 4, [5]⟩ (.qreqReq ⟨0, 1, 0⟩ ⟨-1, 65535⟩) ∧
    Permitted 0 1 ⟨0, 4, [5]⟩ (.csrReq ⟨0, 1, 0⟩) ∧ (List.replicate 25 (0 : Int)).length = 25 ∧
    (Permitted 0 1 ⟨0, 4, [5]⟩ (.qctxtRdReq ⟨9, 1, 0⟩ sel) ∧ WellFormed (.qctxtRdReq ⟨9, 1, 0⟩ sel) ∧
      ds.legal sel.cmptCtxtType = true) ∧
    Permitted 0 1 ⟨0, 4, [5]⟩ (.intrCtxtRdReq ⟨20, 1, 0⟩ ⟨1, [5]⟩) ∧ WellFormed (.intrCtxtRdReq ⟨20, 1, 0⟩ ⟨1, [5]⟩) ∧
    (([(1, 2 ^ 32 - 1)] : List (Int × Int)).length : Int) = 1 :=
  ⟨⟨due _ _, by decide +kernel, permitted (by decide +kernel)⟩, permitted (by decide +kernel), permitted (by decide +kernel),
    by decide, ⟨permitted (by decide +kernel), by decide +kernel, by decide +kernel⟩, permitted (by decide +kernel),
    by decide +kernel, by decide⟩

/-- The status-only requests: queue 3 (the last granted), an empty and a whole range, a granted vector. -/
theorem test_witness_statusRequests :
    (Due (.execute 1 (.answer 0 .none) [(1, ⟨0, 8, [5]⟩)]) 1 (executing (.vfOfflineReq ⟨8, 1, 0⟩) (.answer 0 .none)) ∧
      ((executing (.vfOfflineReq ⟨8, 1, 0⟩) (.answer 0 .none)).chan 1).dstate = .executing) ∧
    Permitted 0 1 ⟨0, 4, [5]⟩ (.vfOfflineReq ⟨0, 1, 0⟩) ∧ Permitted 0 1 ⟨0, 4, [5]⟩ (.fmapReq ⟨255, 1, 0⟩ ⟨1, 0, 4⟩) ∧
    Permitted 0 1 ⟨0, 4, [5]⟩ (.fmapReq ⟨255, 1, 0⟩ ⟨1, 100, 0⟩) ∧
    Permitted 0 1 ⟨0, 4, [5]⟩ (.qnotifyAddReq ⟨0, 1, 0⟩ ⟨3, 0, 0⟩) ∧ Permitted 0 1 ⟨0, 4, [5]⟩ (.qnotifyDelReq ⟨0, 1, 0⟩ ⟨0, 0, 0⟩) ∧
    Permitted 0 1 ⟨0, 4, [5]⟩ (.qctxtInvReq ⟨0, 1, 0⟩ ⟨3, 0, 0, 3⟩) ∧ Permitted 0 1 ⟨0, 4, [5]⟩ (.qctxtClrReq ⟨0, 1, 0⟩ ⟨3, 0, 0, 3⟩) ∧
    Permitted 0 1 ⟨0, 4, [5]⟩ (.qctxtWrtReq ⟨0, 1, 0⟩ ⟨sel, ds⟩) ∧
    Permitted 0 1 ⟨0, 4, [5]⟩ (.intrCtxtWrtReq ⟨0, 1, 0⟩ ⟨1, [5], [(1, 2)]⟩) ∧
    Permitted 0 1 ⟨0, 4, [5]⟩ (.intrCtxtInvReq ⟨0, 1, 0⟩ ⟨1, [5]⟩) ∧
    Permitted 0 1 ⟨0, 4, [5]⟩ (.intrCtxtClrReq ⟨0, 1, 0⟩ ⟨1, [5]⟩) := by
  refine ⟨⟨due _ _, by decide +kernel⟩, ?_, ?_, ?_, ?_, ?_, ?_, ?_, ?_, ?_, ?_, ?_⟩ <;> exact permitted (by decide +kernel)

/-- A request that is not authorised: queue 4 is the first that is not granted. -/
theorem test_witness_unauthorised :
    Instr.dir (.qctxtRdReq ⟨0, 1, 0⟩ ⟨4, 0, 0, 3⟩) = .req ∧ ¬Permitted 0 1 ⟨0, 4, [5]⟩ (.qctxtRdReq ⟨0, 1, 0⟩ ⟨4, 0, 0, 3⟩) :=
  ⟨rfl, fun h => absurd (authorised_iff.2 h) (by decide +kernel)⟩

/-- The outcomes of `PRIV` that are normalised: `Throw`, −4, −1, −5, 1, and a range the wire cannot carry. -/
theorem test_witness_privOutcomes :
    Permitted 0 1 ⟨0, 4, [5]⟩ (.qreqReq ⟨13, 1, 0⟩ ⟨-1, 4⟩) ∧ ((-4 : Int) ≤ -4 ∧ (-1 : Int) ≤ -1 ∧ (-5 : Int) < -4 ∧ (0 : Int) < 1) ∧
    successReply ⟨13, 0, 1⟩ (.qreqReq ⟨13, 1, 0⟩ ⟨-1, 4⟩) (.qrange ⟨65536, 4⟩) = some (.qreqRsp ⟨13, 0, 1⟩ (.ok ⟨65536, 4⟩)) ∧
    ¬WellFormed (.qreqRsp ⟨13, 0, 1⟩ (.ok ⟨65536, 4⟩)) ∧
    successReply ⟨13, 0, 1⟩ (.qreqReq ⟨13, 1, 0⟩ ⟨-1, 4⟩) .none = none :=
  ⟨permitted (by decide +kernel), by decide, by decide +kernel, by decide +kernel, by decide +kernel⟩

/-- A message on the wrong side: a response at T2, a request read by a VF. -/
theorem test_witness_misdirected :
    Instr.dir (.csrRsp ⟨7, 1, 0⟩ (.fail (-1))) = .rsp ∧
    Due (.decode 1) 1 (on { chan0 with dstate := .decoding, rxbuf := frame [0x0001079D] } (.decode 1)) ∧
    Instr.dir (.csrReq ⟨7, 1, 0⟩) = .req ∧
    Due (.readResponse 1) 1 (on { chan0 with vfRxbuf := frame [0x0001071D] } (.readResponse 1)) :=
  ⟨rfl, due _ _, rfl, due _ _⟩

/-- T1, T4 and T5 enabled. -/
theorem test_witness_dispatcher :
    Due (.accept 1 true) 1 (on { chan0 with pend := true } (.accept 1 true)) ∧
    Due (.respond 1 false) 1 (on { chan0 with dstate := .responding, resp := frame [0x01000095] } (.respond 1 false)) ∧
    dstOf (frame [0x01000095]) = (1 : FuncId).toNat ∧ Memory.wf ([] : Memory) = true ∧
    Due (.busyReject 1 false true) 1 (on { chan0 with dstate := .executing, pend := true } (.busyReject 1 false true)) :=
  ⟨due _ _, due _ _, by decide +kernel, rfl, due _ _⟩

/-- A step that enters `FAULTED`, and a faulted channel with T1, `hw_init(false)` and a VF's `send` due. -/
theorem test_witness_faulted :
    Inv (on (waiting 7 0) (.accept 1 true)) ∧
    step (on (waiting 7 0) (.accept 1 true)) = .next (after (on (waiting 7 0) (.accept 1 true))) ∧
    ((after (on (waiting 7 0) (.accept 1 true))).chan 1).dstate = .faulted ∧
    goes (on { chan0 with dstate := .faulted, pend := true } (.accept 1 false)) = true ∧
    goes (on { chan0 with dstate := .faulted } (.hwInit .pf)) = true ∧ keepsService (.sendVf 1 [] false) = true :=
  ⟨waiting_inv 7 0 (by decide) (by decide) _, step_after (by decide +kernel), by decide +kernel, by decide +kernel,
    by decide +kernel, rfl⟩

/-- The handshake operations are due, a frame's `DST` names a channel and another names none. -/
theorem test_witness_handshake :
    Due (.sendVf 1 (frame [1]) false) 1 (on chan0 (.sendVf 1 (frame [1]) false)) ∧ (frame [1]).length = 32 ∧
    (on chan0 (.sendPf (frame [0x01000095]) true)).sched.head? = some (.sendPf (frame [0x01000095]) true) ∧
    dstOf (frame [0x01000095]) = (1 : FuncId).toNat ∧ dstOf (frame [0x07000095]) = (7 : FuncId).toNat ∧
    (on chan0 .powerOn).hasChan 7 = false ∧
    Due (.receivePf 1 true) 1 (on { chan0 with pend := true } (.receivePf 1 true)) ∧
    Due (.receiveVf 1 true) 1 (on { chan0 with ack := true } (.receiveVf 1 true)) ∧
    Due (.clearAckPf 1 true) 1 (on chan0 (.clearAckPf 1 true)) ∧ Due (.clearAckVf 1 true) 1 (on chan0 (.clearAckVf 1 true)) :=
  ⟨due _ _, by decide +kernel, rfl, by decide +kernel, by decide +kernel, by decide, due _ _, due _ _, due _ _, due _ _⟩

/-- The enables and the initialisations are due in both roles; power-on reset is due. -/
theorem test_witness_enables :
    (on chan0 (.enableInterrupts .pf)).sched.head? = some (.enableInterrupts .pf) ∧
    Due (.enableInterrupts (.vf 1)) 1 (on chan0 (.enableInterrupts (.vf 1))) ∧
    Due (.disableInterrupts (.vf 1)) 1 (on chan0 (.disableInterrupts (.vf 1))) ∧
    (on chan0 (.hwInit .pf)).sched.head? = some (.hwInit .pf) ∧ Due (.hwInit (.vf 1)) 1 (on chan0 (.hwInit (.vf 1))) ∧
    (on chan0 .powerOn).sched.head? = some .powerOn := ⟨rfl, due _ _, due _ _, rfl, due _ _, rfl⟩

/-- V1 idle, with and without a stale frame; a request that composes and one that does not. -/
theorem test_witness_start :
    Due (.start 1 .csr true true) 1 (on { chan0 with ack := true } (.start 1 .csr true true)) ∧
    ((on chan0 (.start 1 .csr true true)).chan 1).vstate = .idle ∧
    WellFormed (Request.csr.withHeader ⟨(0 : BitVec 8).toNat, (1 : FuncId).toNat, (0 : FuncId).toNat⟩) ∧
    ¬WellFormed ((Request.qreq ⟨0, 65536⟩).withHeader ⟨(0 : BitVec 8).toNat, (1 : FuncId).toNat, (0 : FuncId).toNat⟩) :=
  ⟨due _ _, by decide, by decide +kernel, by decide +kernel⟩

/-- A poll, a retry and a give-up at the boundary values of the two counters; the other side's step; a transaction that starts. -/
theorem test_witness_wait :
    (Inv (on (waiting 7 0) (.poll 1 false)) ∧ goes (on (waiting 7 0) (.poll 1 false)) = true ∧
      (waiting 7 0).sent.length = 32) ∧
    (Inv (on (waiting 8 2) (.retry 1 false false)) ∧ goes (on (waiting 8 2) (.retry 1 false false)) = true) ∧
    (Inv (on (waiting 8 3) (.giveUp 1 false)) ∧ goes (on (waiting 8 3) (.giveUp 1 false)) = true) ∧
    (sideOf (.accept 1 false) ≠ .vf 1 ∧ Inv (on (waiting 7 0) (.accept 1 false)) ∧
      goes (on (waiting 7 0) (.accept 1 false)) = true) ∧
    ((after (on chan0 (.start 1 .csr false false))).chan 1).vstate = .wait :=
  ⟨⟨waiting_inv 7 0 (by decide) (by decide) _, by decide +kernel, by decide +kernel⟩,
    ⟨waiting_inv 8 2 (by decide) (by decide) _, by decide +kernel⟩,
    ⟨waiting_inv 8 3 (by decide) (by decide) _, by decide +kernel⟩,
    ⟨by decide, waiting_inv 7 0 (by decide) (by decide) _, by decide +kernel⟩, by decide +kernel⟩

/-- Channel 1 with these steps due. -/
def scheduled (c : Chan) (as : List Action) : State := { on c .powerOn with sched := as }

/-- T2 and T3, and T1 to T4, scheduled on a channel that is ready for them. -/
theorem test_witness_schedules :
    (scheduled { chan0 with dstate := .decoding, rxbuf := frame [0x0001051D] } [.decode 1, .execute 1 .throw []]).sched =
      .decode 1 :: .execute 1 .throw [] :: [] ∧
    (frame [0x0001051D]).length = 32 ∧ (scheduled chan0 []).hasChan 1 = true ∧
    (scheduled { chan0 with pend := true } [.accept 1 false, .decode 1, .execute 1 .throw [], .respond 1 false]).sched =
      .accept 1 false :: .decode 1 :: .execute 1 .throw [] :: .respond 1 false :: [] ∧
    ((scheduled { chan0 with pend := true } []).chan 1).dstate = .idle ∧ Memory.wf (scheduled chan0 []).mem = true := by
  decide +kernel

/-- A step that calls `PRIV`. -/
theorem test_witness_privCall :
    goes (executing (.csrReq ⟨9, 1, 0⟩) .throw) = true ∧
    (after (executing (.csrReq ⟨9, 1, 0⟩) .throw)).priv = some ⟨1, .csrReq ⟨9, 1, 0⟩⟩ := by decide +kernel

/-- A pending frame of an outstanding request, and a step in which no handshake fails. -/
theorem test_witness_invariants :
    Inv (on (waiting 7 0) (.accept 1 false)) ∧ noHsFail (.accept 1 false) = true ∧
    step (on (waiting 7 0) (.accept 1 false)) = .next (after (on (waiting 7 0) (.accept 1 false))) ∧
    (waiting 7 0).pend = true ∧ (waiting 7 0).outstanding = true :=
  ⟨waiting_inv 7 0 (by decide) (by decide) _, rfl, step_after (by decide +kernel), rfl, rfl⟩

/-- One step of each side. -/
theorem test_witness_sides :
    (sideOf (.accept 1 false) = .pf ∧ goes (on { chan0 with pend := true } (.accept 1 false)) = true) ∧
    (sideOf (.sendVf 1 (frame [1]) false) = .vf 1 ∧ goes (on chan0 (.sendVf 1 (frame [1]) false)) = true) ∧
    (sideOf (.parse (frame [1])) = .neither ∧ goes (on chan0 (.parse (frame [1]))) = true) := by decide +kernel

/-- Two states that differ in the PF's private state and in the grant, and look the same to VF 1. -/
theorem test_witness_vfView :
    SameVfView 1 (on (waiting 7 0) (.poll 1 false))
      (on { waiting 7 0 with dstate := .faulted, grant := ⟨9, 9, []⟩, resp := frame [7] } (.poll 1 false)) ∧
    sideOf (.poll 1 false) = .vf 1 :=
  ⟨⟨rfl, rfl, ⟨rfl, rfl⟩, ⟨rfl, rfl⟩, ⟨rfl, rfl, rfl, rfl, rfl, rfl, rfl, rfl, rfl, rfl, rfl⟩, rfl, rfl, rfl, rfl⟩, rfl⟩

end Sys2Proof.Tests
end

section
/-! SUPPORT. The parsers of the codec that start from another one (spec/30_encoding.md R99), each as a map of its result. -/

namespace Sys2Proof

theorem parseQCtxt_eq_map (x : Frame) :
    parseQCtxt x = (parseQSelT x).map fun sel => ⟨sel, parseDesc sel.cmptCtxtType x⟩ := by
  simp only [parseQCtxt]; cases parseQSelT x <;> rfl

theorem parseIRings_eq_map (x : Frame) :
    parseIRings x = (parseNumRings x).map fun n => ⟨n, parseIndices n x⟩ := by
  simp only [parseIRings]; cases parseNumRings x <;> rfl

theorem parseICtxt_eq_map (x : Frame) :
    parseICtxt x = (parseNumRings x).map fun n => ⟨n, parseIndices n x, parseContexts n x⟩ := by
  simp only [parseICtxt]; cases parseNumRings x <;> rfl

end Sys2Proof
end

section
/-! Proofs of the codec's statements on illegal frames (spec/30_encoding.md R86, R102, R104). -/

namespace Sys2Proof.Machine

open Sys2Proof

/-! ## A buffer that is not 32 words (R104) -/

section
variable {x : Frame}

theorem parse_wrongLength (hx : x.length ≠ 32) (ops : Config.OpMap) :
    parse ops x = .error (.malformedMessage .length) := by simp [parse, hx]

theorem isResponse_wrongLength_left (hx : x.length ≠ 32) (y : Frame) :
    isResponse x y = .error (.malformedMessage .length) := by simp [isResponse, hx]

theorem isResponse_wrongLength_right (hx : x.length ≠ 32) (y : Frame) :
    isResponse y x = .error (.malformedMessage .length) := by simp [isResponse, hx]

theorem status_wrongLength (hx : x.length ≠ 32) : status x = .error (.malformedMessage .length) := by simp [status, hx]

theorem get_wrongLength (hx : x.length ≠ 32) (ops : Config.OpMap) (g : Getter) :
    get ops g x = .error (.malformedMessage .length) := by simp [get, hx]

theorem sendVf_wrongLength (hx : x.length ≠ 32) (f : FuncId) (hs : Bool) (s : State) :
    sendVf f x hs s = (s, .error (.malformedMessage .length)) := by
  simpa [hx] using sendVf_cases f x hs s

theorem sendPf_wrongLength (hx : x.length ≠ 32) (hs : Bool) (s : State) :
    sendPf x hs s = (s, .error (.malformedMessage .length)) := by
  simpa [hx] using sendPf_cases x hs s

/-- `send` in role `VF(f)`: the step only retires. -/
theorem step_sendVf_wrongLength (hx : x.length ≠ 32) {s : State} {f : FuncId} {hs : Bool}
    (h : Due (.sendVf f x hs) f s) :
    step s = .next (s.retire (.error (.malformedMessage .length)) none) := by
  rw [step_own h.head (by simp) (by simp) (by simp), agentStep, onChannel_of h.vfset, sendVf_wrongLength hx, finish_eq,
    resultOf]

/-- `send` in the PF role: the step only retires. -/
theorem step_sendPf_wrongLength (hx : x.length ≠ 32) {s : State} {hs : Bool}
    (h : s.sched.head? = some (.sendPf x hs)) :
    step s = .next (s.retire (.error (.malformedMessage .length)) none) := by
  rw [step_own h (by simp) (by simp) (by simp), agentStep, sendPf_wrongLength hx, finish_eq, resultOf]

/-- `handle_request` called by the host: the step only retires. -/
theorem step_handleRequest_wrongLength (hx : x.length ≠ 32) {s : State} {f : FuncId} {a : PrivAnswer} {g : GrantTable}
    (h : Due (.handleRequest f x a g) f s) :
    step s = .next (s.retire (.error (.malformedMessage .length)) none) := by
  rw [step_own h.head (by simp) (by simp) (by simp), agentStep]
  simp [hostHandleRequest, h.vfset, hx]

end

/-- Settles O8: each operation tests the length first. -/
theorem wrongLengthIsMalformed : Obligations.WrongLengthIsMalformed := fun _ hx =>
  ⟨parse_wrongLength hx,
    fun y => ⟨isResponse_wrongLength_left hx y, isResponse_wrongLength_right hx y⟩,
    status_wrongLength hx,
    get_wrongLength hx,
    fun _ _ _ => step_sendVf_wrongLength hx,
    fun _ _ => step_sendPf_wrongLength hx,
    fun _ _ _ _ => step_handleRequest_wrongLength hx⟩

/-! ## An opcode outside the map (R86, R102) -/

/-- A failure other than that of the opcode, or none. -/
def KnowsOpcode {α : Type} (r : Except Err α) : Prop := r ≠ .error (.malformedMessage .opcode)

theorem KnowsOpcode.ok {α : Type} (a : α) : KnowsOpcode (.ok a : Except Err α) := fun he => by cases he

theorem KnowsOpcode.map {α β : Type} {r : Except Err α} (f : α → β) (h : KnowsOpcode r) : KnowsOpcode (r.map f) := by
  cases r with
  | error e => intro he; cases he; exact h rfl
  | ok a => intro he; cases he

theorem parseQRangeReq_knowsOpcode (x : Frame) : KnowsOpcode (parseQRangeReq x) := by
  simp only [parseQRangeReq]; split <;> simp [KnowsOpcode]

theorem parseQRangeRsp_knowsOpcode (x : Frame) : KnowsOpcode (parseQRangeRsp x) := by
  simp only [parseQRangeRsp]; split <;> simp [KnowsOpcode]

theorem parseFmap_knowsOpcode (x : Frame) : KnowsOpcode (parseFmap x) := by
  simp only [parseFmap]; split <;> simp [KnowsOpcode]

theorem parseQSelT_knowsOpcode (x : Frame) : KnowsOpcode (parseQSelT x) := by
  simp only [parseQSelT]; split <;> simp [KnowsOpcode]

theorem parseNumRings_knowsOpcode (x : Frame) : KnowsOpcode (parseNumRings x) := by
  simp only [parseNumRings]; split <;> simp [KnowsOpcode]

theorem parseQCtxt_knowsOpcode (x : Frame) : KnowsOpcode (parseQCtxt x) := by
  rw [parseQCtxt_eq_map]; exact (parseQSelT_knowsOpcode x).map _

theorem parseIRings_knowsOpcode (x : Frame) : KnowsOpcode (parseIRings x) := by
  rw [parseIRings_eq_map]; exact (parseNumRings_knowsOpcode x).map _

theorem parseICtxt_knowsOpcode (x : Frame) : KnowsOpcode (parseICtxt x) := by
  rw [parseICtxt_eq_map]; exact (parseNumRings_knowsOpcode x).map _

theorem parseRsp_knowsOpcode {β : Type} {body : Frame → Except Err β} {x : Frame} (h : KnowsOpcode (body x)) :
    KnowsOpcode (parseRsp body x) := by
  simp only [parseRsp]
  split
  · simp [KnowsOpcode]
  split
  · exact .ok _
  · exact h.map _

/-- A request whose opcode the map has fails for its body only. -/
theorem parseRequest_knowsOpcode (op : Op) (h : Header) (x : Frame) : KnowsOpcode (parseRequest op h x) := by
  cases op with
  | vfOnline | vfOffline | csr => exact .ok _
  | qreq => exact (parseQRangeReq_knowsOpcode x).map _
  | qnotifyAdd | qnotifyDel => exact (KnowsOpcode.ok _).map _
  | fmap => exact (parseFmap_knowsOpcode x).map _
  | qctxtWrt => exact (parseQCtxt_knowsOpcode x).map _
  | qctxtRd | qctxtInv | qctxtClr => exact (parseQSelT_knowsOpcode x).map _
  | intrCtxtWrt => exact (parseICtxt_knowsOpcode x).map _
  | intrCtxtRd | intrCtxtInv | intrCtxtClr => exact (parseIRings_knowsOpcode x).map _

/-- A response whose opcode the map has fails for its status or its body only. -/
theorem parseResponse_knowsOpcode (op : Op) (h : Header) (x : Frame) : KnowsOpcode (parseResponse op h x) := by
  cases op with
  | qreq => exact (parseRsp_knowsOpcode (parseQRangeRsp_knowsOpcode x)).map _
  | qctxtRd => exact (parseRsp_knowsOpcode (parseQCtxt_knowsOpcode x)).map _
  | intrCtxtRd => exact (parseRsp_knowsOpcode (parseICtxt_knowsOpcode x)).map _
  | _ => refine .map _ (parseRsp_knowsOpcode ?_); exact .ok _

/-- `parse` of a 32-word frame names the opcode exactly when the map has no such value (R99, R102). -/
theorem parse_opcode_iff {ops : Config.OpMap} {x : Frame} (hl : x.length = 32) :
    parse ops x = .error (.malformedMessage .opcode) ↔ ∀ a : Op, a.code ops ≠ opcOf x := by
  rw [← Op.ofCode_none]
  cases ho : Op.ofCode ops (opcOf x) with
  | none => simp [parse, hl, ho]
  | some op =>
    rw [parse_eq hl (Op.code_of_ofCode ho).symm]
    refine iff_of_false ?_ (by simp)
    split
    · exact parseRequest_knowsOpcode _ _ _
    · exact parseResponse_knowsOpcode _ _ _

/-- The legal values among 0 to 127 are, in some order, the codes of the 15 opcodes. -/
theorem legalValues_perm (ops : Config.OpMap) :
    ((List.range 128).filter fun n => (Op.ofCode ops n).isSome).Perm (Op.all.map (Op.code ops)) := by
  refine (List.perm_ext_iff_of_nodup (List.nodup_range.filter _) (Op.codes_nodup ops)).mpr fun n => ?_
  simp only [List.mem_filter, List.mem_range, List.mem_map, Option.isSome_iff_exists]
  constructor
  · rintro ⟨-, op, ho⟩
    exact ⟨op, Op.mem_all op, Op.code_of_ofCode ho⟩
  · rintro ⟨op, -, rfl⟩
    exact ⟨Op.code_lt ops op, op, Op.ofCode_code ops op⟩

/-- 128 values less the 15 legal ones (R102). -/
theorem illegalValues_length (ops : Config.OpMap) :
    ((List.range 128).filter fun n => (Op.ofCode ops n).isNone).length = 113 := by
  have hsplit := List.length_eq_length_filter_add (l := List.range 128) fun n => (Op.ofCode ops n).isSome
  have hlegal : ((List.range 128).filter fun n => (Op.ofCode ops n).isSome).length = 15 :=
    (legalValues_perm ops).length_eq
  simp only [Option.not_isSome, List.length_range, hlegal] at hsplit
  omega

/-- The default map's values in the source's order (R86). -/
theorem default_codes :
    Op.all.map (Op.code .default) = [19, 20, 21, 22, 23, 24, 25, 26, 27, 28, 29, 30, 31, 32, 33] := rfl

/-- A value is illegal exactly when it is not among the codes. -/
theorem forall_code_ne_iff {ops : Config.OpMap} {n : Nat} :
    (∀ a : Op, a.code ops ≠ n) ↔ n ∉ Op.all.map (Op.code ops) := by
  simp [Op.mem_all]

/-- The illegal values of the default map (R102). -/
theorem default_illegal_iff (n : Nat) : (∀ a : Op, a.code .default ≠ n) ↔ n ≤ 18 ∨ 34 ≤ n := by
  rw [forall_code_ne_iff, default_codes]
  simp only [List.mem_cons, List.not_mem_nil, or_false]
  omega

/-- The generic malformed-request response is the frame the rule writes out (R244, R245). -/
theorem malformedRsp_eq (pf f : FuncId) (y : Frame) :
    malformedRsp pf f y = statusFrame (opcOf y) (tagOf y) pf f (-6) := by
  have ho : opcOf y < 128 := Nat.mod_lt _ (by decide)
  have ht : tagOf y < 256 := Nat.mod_lt _ (by decide)
  simpa [malformedRsp, statusMalformed] using
    statusRsp_eq (t := (tagOf y : Int)) pf f (-6) ho (by omega) (by omega)

/-- T2 on a frame that does not parse (R238, R244). -/
theorem decodeFailure_answers {s : State} {f : FuncId} {e : Err} (h : Due (.decode f) f s)
    (hd : (s.chan f).dstate = .decoding) (hp : parse s.cfg.ops (s.chan f).rxbuf = .error e) :
    ∃ t, step s = .next t ∧ (t.chan f).dstate = .responding ∧
      (t.chan f).resp =
        statusFrame (opcOf (s.chan f).rxbuf) (tagOf (s.chan f).rxbuf) s.cfg.pfFuncId f (-6) := by
  refine ⟨_, by rw [step_decode_malformed h hd hp, decodeFailure, finish_eq], ?_⟩
  rw [retire_chan, State.respondWith, updChan_chan_same _ _ _ h.vfset]
  exact ⟨rfl, malformedRsp_eq _ _ _⟩

/-- Settles O6: `parse` looks the opcode up first, and only the lookup fails for it. -/
theorem illegalOpcodesAreRejected : Obligations.IllegalOpcodesAreRejected :=
  ⟨fun ops => ⟨rfl, rfl, fun a => Nat.le_of_lt_succ (Op.code_lt ops a), fun _ _ => Op.code_inj,
      fun _ => parse_opcode_iff, illegalValues_length ops⟩,
    default_codes, fun n _ => default_illegal_iff n,
    fun _ _ h hd hl ho => decodeFailure_answers h hd ((parse_opcode_iff hl).mpr ho)⟩

end Sys2Proof.Machine
end

section
/-! Proof of the codec's statement on filler (spec/30_encoding.md R101): the words the encoder writes lie within the masks of the field
bits, and no parser reads a bit outside them. -/

namespace Sys2Proof

/-! ## Words within a mask -/

/-- Every bit of `w` lies in the mask. -/
def Within (w : Word) (mask : Nat) : Prop := w &&& ~~~(packed mask) = 0

theorem getLsbD_packed (n i : Nat) : (packed n).getLsbD i = (decide (i < 32) && n.testBit i) := BitVec.getLsbD_ofNat _ _ _

theorem within_iff {w : Word} {mask : Nat} : Within w mask ↔ ∀ i, w.getLsbD i = true → mask.testBit i = true := by
  rw [Within, BitVec.eq_of_getLsbD_eq_iff]
  refine forall_congr' fun i => ⟨fun h hw => ?_, fun h hi => ?_⟩
  · have hi := BitVec.lt_of_getLsbD hw
    have hb := h hi
    simp only [BitVec.getLsbD_and, BitVec.getLsbD_not, getLsbD_packed, hw, hi] at hb
    simpa using hb
  · cases hw : w.getLsbD i <;> simp_all [getLsbD_packed]

theorem within_zero (mask : Nat) : Within 0 mask := by simp [Within]

theorem testBit_bitMask (hi lo i : Nat) : (bitMask hi lo).testBit i = decide (lo ≤ i ∧ i ≤ hi) := by
  rw [bitMask, Nat.testBit_mul_two_pow, Nat.testBit_two_pow_sub_one, ← Bool.decide_and]
  congr 1
  apply propext
  omega

theorem testBit_of_and_eq {part mask i : Nat} (hm : part &&& mask = part) (hi : part.testBit i = true) :
    mask.testBit i = true := by
  rw [← hm, Nat.testBit_and, Bool.and_eq_true] at hi
  exact hi.2

theorem within_full (w : Word) : Within w (bitMask 31 0) := by
  rw [within_iff]
  intro i hi
  have := BitVec.lt_of_getLsbD hi
  simp only [testBit_bitMask, decide_eq_true_eq]
  omega

/-- `put` writes no bit outside its field. -/
theorem within_put (hi lo : Nat) (v : Int) : Within (packed (put hi lo v)) (bitMask hi lo) := by
  rw [within_iff]
  intro i
  rw [testBit_bitMask, getLsbD_packed, put, Nat.testBit_two_pow_mul, Nat.testBit_mod_two_pow]
  simp only [Bool.and_eq_true, decide_eq_true_eq]
  omega

/-- One more field of a word: its bits are in the mask, and the rest of the word lies in what is left of the mask. -/
theorem within_add_put {n hi lo mask : Nat} (v : Int) (hm : bitMask hi lo &&& mask = bitMask hi lo)
    (h : Within (packed n) (mask ^^^ bitMask hi lo)) : Within (packed (n + put hi lo v)) mask := by
  have hv := within_iff.mp (within_put hi lo v)
  rw [within_iff] at h
  have hmask (i : Nat) : (bitMask hi lo).testBit i = true → mask.testBit i = true := testBit_of_and_eq hm
  have hdisj : packed n &&& packed (put hi lo v) = 0 := by
    apply BitVec.eq_of_getLsbD_eq
    intro i _
    have h1 := h i
    have h2 := hv i
    have h3 := hmask i
    rw [Nat.testBit_xor] at h1
    cases hn : (packed n).getLsbD i <;> cases hp : (packed (put hi lo v)).getLsbD i <;> simp_all
  have hsum : packed (n + put hi lo v) = packed n ||| packed (put hi lo v) := by
    rw [← BitVec.add_eq_or_of_and_eq_zero _ _ hdisj, packed, packed, packed, BitVec.ofNat_add]
  rw [within_iff, hsum]
  intro i hi
  rw [BitVec.getLsbD_or, Bool.or_eq_true] at hi
  rcases hi with hn | hp
  · have h1 := h i hn
    have h3 := hmask i
    rw [Nat.testBit_xor] at h1
    cases hb : (bitMask hi lo).testBit i <;> simp_all
  · exact hmask i (hv i hp)

@[simp] theorem packed_zero : packed 0 = 0 := rfl

@[simp] theorem put_zero (hi lo : Nat) : put hi lo 0 = 0 := by simp [put]

/-! ## What the encoder writes -/

/-- The words a body writes lie within the masks of its fields. -/
def WritesWithin (words : Nat → Word) (mask : Nat → Nat) : Prop := ∀ k, Within (words k) (mask k)

/-- Field bits of `P_QREQ` (R90). -/
def qrangeMask (k : Nat) : Nat := if k = 2 then bitMask 31 0 else if k = 3 then bitMask 15 0 else 0

/-- Field bits of `P_QSEL` (`hi` = 17) and `P_QSELT` (`hi` = 19): bits `hi` to 0 of word 2 (R91). -/
def selMask (hi k : Nat) : Nat := if k = 2 then bitMask hi 0 else 0

/-- Field bits of `P_FMAP` (R93). -/
def fmapMask (k : Nat) : Nat :=
  if k = 2 then bitMask 7 0 else if k = 3 then bitMask 31 0 else if k = 4 then bitMask 15 0 else 0

/-- Field bits of `P_QCTXT` with the groups of type `t` (R94, R153). -/
def qctxtMask (t : Int) (k : Nat) : Nat := if k = 2 then bitMask 19 0 else descMask t k

/-- Field bits of `P_DEVINFO` (`last` = 5) and `P_CSR` (`last` = 26): the words 2 to `last` (R96). -/
def wholeMask (last k : Nat) : Nat := if 2 ≤ k ∧ k ≤ last then bitMask 31 0 else 0

theorem QRange.words_within (b : QRange) : WritesWithin b.words qrangeMask
  | 2 => within_full _
  | 3 => within_put _ _ _
  | 0 | 1 | _ + 4 => within_zero _

theorem QSel.words_within (b : QSel) : WritesWithin b.words (selMask 17)
  | 2 => by
    refine within_add_put _ (by decide) ?_
    refine within_add_put _ (by decide) ?_
    exact within_put _ _ _
  | 0 | 1 | _ + 3 => within_zero _

theorem QSelT.words_within (b : QSelT) : WritesWithin b.words (selMask 19)
  | 2 => by
    refine within_add_put _ (by decide) ?_
    refine within_add_put _ (by decide) ?_
    refine within_add_put _ (by decide) ?_
    exact within_put _ _ _
  | 0 | 1 | _ + 3 => within_zero _

theorem Fmap.words_within (b : Fmap) : WritesWithin b.words fmapMask
  | 2 => within_put _ _ _
  | 3 => within_full _
  | 4 => within_put _ _ _
  | 0 | 1 | _ + 5 => within_zero _

/-- Every field of group `g` is 0. -/
def QDesc.Clears (d : QDesc) (g : DescGroup) : Prop := ∀ r ∈ d.rows, r.2.1 = g → r.2.2.2 = 0

theorem QDesc.Clears.queue {d : QDesc} (h : d.Clears .queue) :
    d.ringBsAddr = 0 ∧ d.forcedEn = 0 ∧ d.enBypass = 0 ∧ d.irqArm = 0 ∧ d.wbiIntvlEn = 0 ∧ d.wbiChk = 0 ∧ d.at_ = 0 ∧
      d.wbkEn = 0 ∧ d.irqEn = 0 ∧ d.pfchEn = 0 ∧ d.enBypassPrefetch = 0 ∧ d.descSz = 0 ∧ d.ringSz = 0 ∧ d.bufSz = 0 := by
  simpa [Clears, rows] using h

theorem QDesc.Clears.completion {d : QDesc} (h : d.Clears .completion) :
    d.cmptRingBsAddr = 0 ∧ d.disOverflowCheck = 0 ∧ d.cmptIntEn = 0 ∧ d.cmptAt = 0 ∧ d.cmptColor = 0 ∧ d.cmptFullUpd = 0 ∧
      d.cmptStatEn = 0 ∧ d.cmptDescSz = 0 ∧ d.triggerMode = 0 ∧ d.cntThres = 0 ∧ d.timerThres = 0 ∧ d.cmptRingSz = 0 := by
  simpa [Clears, rows] using h

/-- Tests that pass leave a group the type excludes at 0 (R153, R154). -/
theorem QDesc.clears_of_tests {t : Int} {d : QDesc} (ht : ∀ p ∈ d.tests t, p.1 = true) {g : DescGroup}
    (hg : g.includedBy t = false) : d.Clears g := by
  rintro ⟨f, g', w, v⟩ hr rfl
  have h := ht _ (List.mem_append_right _ (List.mem_map_of_mem hr))
  simpa [hg] using h

/-- No type excludes both groups (R153). -/
theorem DescGroup.includedBy_cases (t : Int) :
    (queue.includedBy t = true ∧ completion.includedBy t = true) ∨
    (queue.includedBy t = false ∧ completion.includedBy t = true) ∨
    (queue.includedBy t = true ∧ completion.includedBy t = false) := by
  by_cases h0 : t = cmptCtxtOnly
  · subst h0; decide
  · by_cases h3 : t = cmptNone
    · subst h3; decide
    · simp [includedBy, h0, h3]

/-- A word of a 64-bit field whose group may be excluded. -/
theorem within_u32 {b : Bool} {v : Int} (hv : b = false → v = 0) : Within (u32 v) (if b then bitMask 31 0 else 0) := by
  cases b with
  | true => exact within_full _
  | false => rw [hv rfl]; exact within_zero _

/-- The words of the 64-bit addresses. -/
theorem QDesc.addressWords_within {t : Int} {d : QDesc} (ht : ∀ p ∈ d.tests t, p.1 = true) {k : Nat} (hk : 3 ≤ k ∧ k ≤ 6) :
    Within (d.words k) (descMask t k) := by
  have hq (h : DescGroup.queue.includedBy t = false) : d.ringBsAddr = 0 := (clears_of_tests ht h).queue.1
  have hc (h : DescGroup.completion.includedBy t = false) : d.cmptRingBsAddr = 0 := (clears_of_tests ht h).completion.1
  obtain rfl | rfl | rfl | rfl : k = 3 ∨ k = 4 ∨ k = 5 ∨ k = 6 := by omega
  · exact within_u32 hq
  · exact within_u32 fun h => by simp [hq h]
  · exact within_u32 hc
  · exact within_u32 fun h => by simp [hc h]

/-- The words that hold several fields: those of an excluded group are 0, and each of the others has its place in the mask. -/
theorem QDesc.packedWords_within {t : Int} {d : QDesc} (ht : ∀ p ∈ d.tests t, p.1 = true) {k : Nat} (hk : 7 ≤ k ∧ k ≤ 10) :
    Within (d.words k) (descMask t k) := by
  have hk' : k = 7 ∨ k = 8 ∨ k = 9 ∨ k = 10 := by omega
  rcases DescGroup.includedBy_cases t with ⟨hq, hc⟩ | ⟨hq, hc⟩ | ⟨hq, hc⟩
  · rcases hk' with rfl | rfl | rfl | rfl
    all_goals
      simp only [words, flagWord, descMask, hq, hc, if_true]
      repeat refine within_add_put _ (by decide) ?_
      exact within_put _ _ _
  · have hz := (d.clears_of_tests ht hq).queue
    rcases hk' with rfl | rfl | rfl | rfl
    all_goals
      simp only [words, flagWord, descMask, hq, hc, hz, put_zero, zero_add, add_zero, if_true, Bool.false_eq_true, if_false]
      repeat refine within_add_put _ (by decide) ?_
      exact within_put _ _ _
  · have hz := (d.clears_of_tests ht hc).completion
    rcases hk' with rfl | rfl | rfl | rfl
    all_goals
      simp only [words, flagWord, descMask, hq, hc, hz, put_zero, add_zero, if_true, Bool.false_eq_true, if_false]
      repeat refine within_add_put _ (by decide) ?_
      exact within_put _ _ _

theorem QDesc.words_within {t : Int} {d : QDesc} (ht : ∀ p ∈ d.tests t, p.1 = true) :
    WritesWithin d.words (descMask t)
  | 3 | 4 | 5 | 6 => addressWords_within ht (by omega)
  | 7 | 8 | 9 | 10 => packedWords_within ht (by omega)
  | 0 | 1 | 2 | _ + 11 => within_zero _

theorem QCtxt.words_within {b : QCtxt} (ht : ∀ p ∈ b.tests, p.1 = true) :
    WritesWithin b.words (qctxtMask b.sel.cmptCtxtType) := by
  intro k
  simp only [words, qctxtMask]
  split
  · exact b.sel.words_within 2
  · exact QDesc.words_within (fun p hp => ht p (List.mem_append_right _ hp)) k

/-- What the tests of `compose` say of the lists of a message (R173). -/
theorem IRings.length_of_tests {b : IRings} (ht : ∀ p ∈ b.tests, p.1 = true) : (b.ringIndex.length : Int) = b.numRings := by
  simpa using ht (decide ((b.ringIndex.length : Int) = b.numRings), .listLength) (by simp [tests])

theorem ICtxt.lengths_of_tests {b : ICtxt} (ht : ∀ p ∈ b.tests, p.1 = true) :
    (b.ringIndex.length : Int) = b.numRings ∧ (b.ctxt.length : Int) = b.numRings :=
  ⟨by simpa using ht (decide ((b.ringIndex.length : Int) = b.numRings), .listLength) (by simp [tests]),
    by simpa using ht (decide ((b.ctxt.length : Int) = b.numRings), .listLength) (by simp [tests])⟩

/-- An index list of `numRings` entries: the words from `3 + numRings` on are 0 (R172). -/
theorem IRings.words_within {b : IRings} (hl : (b.ringIndex.length : Int) = b.numRings) (withCtxt : Bool) :
    WritesWithin b.words (ringMask withCtxt b.numRings) := by
  intro k
  simp only [words, ringMask]
  split
  · exact within_put _ _ _
  split
  · split
    · exact within_put _ _ _
    · rw [List.getD_eq_default _ _ (by omega), put_zero]; exact within_zero _
  · exact within_zero _

/-- A context list of `numRings` entries: the words from `11 + 2 * numRings` on are 0 (R172). -/
theorem ICtxt.words_within {b : ICtxt} (ht : ∀ p ∈ b.tests, p.1 = true) :
    WritesWithin b.words (ringMask true b.numRings) := by
  obtain ⟨hl, hc⟩ := lengths_of_tests ht
  intro k
  simp only [words]
  split
  case isFalse => exact IRings.words_within hl true k
  case isTrue hk =>
    have hmask : ringMask true b.numRings k = if (((k - 11) / 2 : Nat) : Int) < b.numRings then bitMask 31 0 else 0 := by
      simp only [ringMask, true_and]
      rw [if_neg (by omega), if_neg (by omega), if_pos hk]
    rw [hmask]
    by_cases hn : (((k - 11) / 2 : Nat) : Int) < b.numRings
    · rw [if_pos hn]
      split <;> exact within_full _
    · rw [List.getD_eq_default _ _ (by omega), ite_self]
      exact within_zero _

/-- Words 2 to `last` written whole. -/
theorem wholeWords_within {last : Nat} (g : Nat → Word) :
    WritesWithin (fun k => if 2 ≤ k ∧ k ≤ last then g k else 0) (wholeMask last) := by
  intro k
  simp only [wholeMask]
  split
  · exact within_full _
  · exact within_zero _

theorem noWords_within : WritesWithin noWords fun _ => 0 := fun _ => within_zero _

/-- A response writes the status and, when that is 0, its body. -/
theorem Rsp.words_within {β : Type} {words : β → Nat → Word} {mask : β → Nat → Nat} :
    ∀ {r : Rsp β}, (∀ b, r = .ok b → WritesWithin (words b) (mask b)) → WritesWithin (r.words words) (rspMask mask r)
  | .ok b, h, k => by
    simp only [Rsp.words, rspMask]
    split
    · exact within_zero _
    · exact h b rfl k
  | .fail st, _, k => by
    simp only [Rsp.words, rspMask]
    split
    · exact within_full _
    · exact within_zero _

/-- The body of a message that `compose` accepts lies within its field bits. -/
theorem Instr.bodyWords_within {m : Instr} (ht : ∀ p ∈ m.bodyTests, p.1 = true) : WritesWithin m.bodyWords (bodyMask m) := by
  cases m with
  | vfOnlineReq h | vfOfflineReq h | csrReq h => exact noWords_within
  | vfOnlineRsp h r => exact Rsp.words_within fun b _ => wholeWords_within _
  | csrRsp h r => exact Rsp.words_within fun b _ => wholeWords_within _
  | qreqReq h b => exact b.words_within
  | qreqRsp h r => exact Rsp.words_within fun b _ => b.words_within
  | qnotifyAddReq h b | qnotifyDelReq h b => exact b.words_within
  | fmapReq h b => exact b.words_within
  | qctxtWrtReq h b => exact QCtxt.words_within ht
  | qctxtRdReq h b | qctxtInvReq h b | qctxtClrReq h b => exact b.words_within
  | qctxtRdRsp h r => exact Rsp.words_within fun b e => QCtxt.words_within (by subst e; exact ht)
  | intrCtxtWrtReq h b => exact ICtxt.words_within ht
  | intrCtxtRdReq h b | intrCtxtInvReq h b | intrCtxtClrReq h b =>
    exact IRings.words_within (IRings.length_of_tests ht) false
  | intrCtxtRdRsp h r => exact Rsp.words_within fun b e => ICtxt.words_within (by subst e; exact ht)
  | _ => exact Rsp.words_within fun _ _ => noWords_within

/-- `compose` writes 0 to every filler bit (R101). -/
theorem compose_filler {ops : Config.OpMap} {m : Instr} {x : Frame} (h : compose ops m = .ok x) {k : Nat} (hk : k < 32) :
    word x k &&& ~~~(fieldMask m k) = 0 := by
  obtain ⟨ht, rfl⟩ := compose_ok_iff.mp h
  rw [word_encode ops m hk, fieldMask]
  split
  · exact within_full _
  · exact Instr.bodyWords_within (fun p hp => ht p (List.mem_append_right _ hp)) k

/-! ## What the parsers read -/

/-- Frame `y` has the same bits as `x` under the masks of the body, words 1 to 31. -/
def Agree (mask : Nat → Nat) (x y : Frame) : Prop :=
  ∀ k, 1 ≤ k → k < 32 → word y k &&& packed (mask k) = word x k &&& packed (mask k)

/-- Agreement on a mask passes to a field within it. -/
theorem field_congr {w v : Word} {mask hi lo : Nat} (h : w &&& packed mask = v &&& packed mask)
    (hm : bitMask hi lo &&& mask = bitMask hi lo) : field w hi lo = field v hi lo := by
  apply Nat.eq_of_testBit_eq
  intro i
  simp only [field, Nat.testBit_mod_two_pow, Nat.testBit_div_two_pow, BitVec.testBit_toNat]
  by_cases hi' : i < hi + 1 - lo
  · have hbit : mask.testBit (i + lo) = true :=
      testBit_of_and_eq hm (by rw [testBit_bitMask, decide_eq_true_eq]; omega)
    have hw := congrArg (BitVec.getLsbD · (i + lo)) h
    by_cases hb : i + lo < 32
    · simp only [BitVec.getLsbD_and, getLsbD_packed, hb, hbit, decide_true, Bool.and_true] at hw
      rw [hw]
    · rw [BitVec.getLsbD_of_ge _ _ (by omega), BitVec.getLsbD_of_ge _ _ (by omega)]
  · simp [hi']

theorem word_congr {w v : Word} (h : w &&& packed (bitMask 31 0) = v &&& packed (bitMask 31 0)) : w = v := by
  have hm : packed (bitMask 31 0) = BitVec.allOnes 32 := by decide
  simpa only [hm, BitVec.and_allOnes] using h

/-- A field of the body is read alike when it lies within the mask. -/
theorem Agree.field_eq {mask : Nat → Nat} {x y : Frame} (h : Agree mask x y) {k hi lo : Nat} (hk1 : 1 ≤ k) (hk : k < 32)
    (hm : bitMask hi lo &&& mask k = bitMask hi lo) : field (word y k) hi lo = field (word x k) hi lo :=
  field_congr (h k hk1 hk) hm

/-- A whole word of the body is read alike when the mask has it. -/
theorem Agree.word_eq {mask : Nat → Nat} {x y : Frame} (h : Agree mask x y) {k : Nat} (hk1 : 1 ≤ k) (hk : k < 32)
    (hm : mask k = bitMask 31 0) : word y k = word x k :=
  word_congr (hm ▸ h k hk1 hk)

/-- What parser `p` reads of a frame it accepts lies within the field bits of the result. -/
def IgnoresFiller {β : Type} (p : Frame → Except Err β) (mask : β → Nat → Nat) : Prop :=
  ∀ ⦃x y : Frame⦄ ⦃b : β⦄, p x = .ok b → Agree (mask b) x y → p y = .ok b

theorem exists_of_map_ok {β γ : Type} {r : Except Err β} {f : β → γ} {c : γ} (h : r.map f = .ok c) :
    ∃ b, r = .ok b ∧ f b = c := by
  cases r with
  | error e => cases h
  | ok b => cases h; exact ⟨b, rfl, rfl⟩

theorem IgnoresFiller.map {β γ : Type} {p : Frame → Except Err β} {mask : β → Nat → Nat} {mask' : γ → Nat → Nat}
    (h : IgnoresFiller p mask) {f : β → γ} (hm : ∀ b, mask' (f b) = mask b) :
    IgnoresFiller (fun x => (p x).map f) mask' := by
  intro x y c hx ha
  obtain ⟨b, hp, rfl⟩ := exists_of_map_ok hx
  simp only [h hp (hm b ▸ ha), Except.map]

theorem IgnoresFiller.const {β : Type} (b : β) (mask : β → Nat → Nat) : IgnoresFiller (fun _ => .ok b) mask :=
  fun _ _ _ hx _ => hx

/-- A response: the status is read whole, and the body only when it is 0. -/
theorem parseRsp_ignoresFiller {β : Type} {p : Frame → Except Err β} {mask : β → Nat → Nat} (h : IgnoresFiller p mask) :
    IgnoresFiller (parseRsp p) (rspMask mask) := by
  intro x y r hx ha
  have hst : word y 1 = word x 1 := ha.word_eq le_rfl (by omega) (by cases r <;> rfl)
  by_cases hpos : s32 (word x 1) > 0
  · simp [parseRsp, hpos] at hx
  by_cases hneg : s32 (word x 1) < 0
  · simpa [parseRsp, hst, hpos, hneg] using hx
  simp only [parseRsp, hst, if_neg hpos, if_neg hneg] at hx ⊢
  obtain ⟨b, hp, rfl⟩ := exists_of_map_ok hx
  have hbody : Agree (mask b) x y := fun k hk1 hk => by
    by_cases h1 : k = 1
    · rw [h1, hst]
    · simpa [rspMask, h1] using ha k hk1 hk
  simp only [h hp hbody, Except.map]

theorem parseQRangeReq_ignoresFiller : IgnoresFiller parseQRangeReq fun _ => qrangeMask := by
  intro x y b hx (ha : Agree qrangeMask x y)
  simpa (disch := decide) only [parseQRangeReq, ha.word_eq, ha.field_eq] using hx

theorem parseQRangeRsp_ignoresFiller : IgnoresFiller parseQRangeRsp fun _ => qrangeMask := by
  intro x y b hx (ha : Agree qrangeMask x y)
  simpa (disch := decide) only [parseQRangeRsp, ha.word_eq, ha.field_eq] using hx

theorem parseQSel_ignoresFiller : IgnoresFiller parseQSel fun _ => selMask 17 := by
  intro x y b hx (ha : Agree (selMask 17) x y)
  simpa (disch := decide) only [parseQSel, ha.field_eq] using hx

theorem parseQSelT_ignoresFiller : IgnoresFiller parseQSelT fun _ => selMask 19 := by
  intro x y b hx (ha : Agree (selMask 19) x y)
  simpa (disch := decide) only [parseQSelT, ha.field_eq] using hx

theorem parseFmap_ignoresFiller : IgnoresFiller parseFmap fun _ => fmapMask := by
  intro x y b hx (ha : Agree fmapMask x y)
  simpa (disch := decide) only [parseFmap, ha.word_eq, ha.field_eq] using hx

/-- The mask of the descriptor depends on the type only by the groups it includes. -/
theorem descMask_congr {t t' : Int} (hq : DescGroup.queue.includedBy t = DescGroup.queue.includedBy t')
    (hc : DescGroup.completion.includedBy t = DescGroup.completion.includedBy t') : descMask t = descMask t' := by
  funext k
  simp only [descMask, hq, hc]

/-- `parse_desc` reads the fields of the included groups only (R153, R155). -/
theorem parseDesc_congr {t : Int} {x y : Frame} (ha : Agree (descMask t) x y) : parseDesc t y = parseDesc t x := by
  rcases DescGroup.includedBy_cases t with ⟨hq, hc⟩ | ⟨hq, hc⟩ | ⟨hq, hc⟩
  · rw [descMask_congr (t' := cmptWithMm) hq hc] at ha
    simp (disch := decide) only [parseDesc, descValue, hq, hc, ha.word_eq, ha.field_eq]
  · rw [descMask_congr (t' := cmptCtxtOnly) hq hc] at ha
    simp (disch := decide) only [parseDesc, descValue, hq, hc, ha.word_eq, ha.field_eq, Bool.false_eq_true, if_false]
  · rw [descMask_congr (t' := cmptNone) hq hc] at ha
    simp (disch := decide) only [parseDesc, descValue, hq, hc, ha.word_eq, ha.field_eq, Bool.false_eq_true, if_false]

/-- Agreement passes to a mask that drops some of the words. -/
theorem Agree.mono {mask part : Nat → Nat} {x y : Frame} (h : Agree mask x y) (hm : ∀ k, part k = 0 ∨ part k = mask k) :
    Agree part x y := by
  intro k hk1 hk
  rcases hm k with h0 | he
  · simp [h0]
  · rw [he]; exact h k hk1 hk

theorem selMask_or (t : Int) (k : Nat) : selMask 19 k = 0 ∨ selMask 19 k = qctxtMask t k := by
  by_cases h2 : k = 2 <;> simp [selMask, qctxtMask, h2]

theorem descMask_or (t : Int) (k : Nat) : descMask t k = 0 ∨ descMask t k = qctxtMask t k := by
  by_cases h2 : k = 2
  · subst h2; exact .inl rfl
  · simp [qctxtMask, h2]

theorem parseQCtxt_ignoresFiller : IgnoresFiller parseQCtxt fun b => qctxtMask b.sel.cmptCtxtType := by
  intro x y b hx ha
  rw [parseQCtxt_eq_map] at hx ⊢
  obtain ⟨sel, hp, rfl⟩ := exists_of_map_ok hx
  simp only [parseQSelT_ignoresFiller hp (ha.mono (selMask_or _)), Except.map, parseDesc_congr (ha.mono (descMask_or _))]

/-- `NUM_RINGS` of a frame that parses. -/
theorem parseNumRings_ok {x : Frame} {n : Nat} (h : parseNumRings x = .ok n) : n ≤ 8 := by
  simp only [parseNumRings] at h
  split at h
  · cases h; omega
  · cases h

theorem parseNumRings_congr {withCtxt : Bool} {n : Int} {x y : Frame} (ha : Agree (ringMask withCtxt n) x y) :
    parseNumRings y = parseNumRings x := by
  simp only [parseNumRings, ha.field_eq (k := 2) (hi := 3) (lo := 0) (by decide) (by decide) (by simp [ringMask])]

/-- The entries below `NUM_RINGS` are field bits (R171, R172). -/
theorem parseIndices_congr {withCtxt : Bool} {n : Nat} {x y : Frame} (hn : n ≤ 8) (ha : Agree (ringMask withCtxt n) x y) :
    parseIndices n y = parseIndices n x := by
  refine List.map_congr_left fun i hi => ?_
  have hi := List.mem_range.mp hi
  have hmask : ringMask withCtxt n (3 + i) = bitMask 10 0 := by
    rw [ringMask, if_neg (by omega), if_pos (by omega), if_pos (by omega)]
  rw [ha.field_eq (by omega) (by omega) (by rw [hmask, Nat.and_self])]

theorem parseContexts_congr {n : Nat} {x y : Frame} (hn : n ≤ 8) (ha : Agree (ringMask true n) x y) :
    parseContexts n y = parseContexts n x := by
  refine List.map_congr_left fun i hi => ?_
  have hi := List.mem_range.mp hi
  have hword (j : Nat) (hj : 11 + 2 * i ≤ j ∧ j ≤ 12 + 2 * i) : word y j = word x j := by
    refine ha.word_eq (by omega) (by omega) ?_
    rw [ringMask, if_neg (by omega), if_neg (by omega), if_pos (by omega), if_pos ⟨rfl, by omega⟩]
  rw [hword _ (by omega), hword _ (by omega)]

theorem parseIRings_ignoresFiller : IgnoresFiller parseIRings fun b => ringMask false b.numRings := by
  intro x y b hx ha
  rw [parseIRings_eq_map] at hx ⊢
  rw [parseNumRings_congr ha]
  obtain ⟨n, hp, rfl⟩ := exists_of_map_ok hx
  simp only [hp, Except.map, parseIndices_congr (parseNumRings_ok hp) ha]

theorem parseICtxt_ignoresFiller : IgnoresFiller parseICtxt fun b => ringMask true b.numRings := by
  intro x y b hx ha
  rw [parseICtxt_eq_map] at hx ⊢
  rw [parseNumRings_congr ha]
  obtain ⟨n, hp, rfl⟩ := exists_of_map_ok hx
  simp only [hp, Except.map, parseIndices_congr (parseNumRings_ok hp) ha, parseContexts_congr (parseNumRings_ok hp) ha]

/-- Words 2 to `last` read whole. -/
theorem parseWords_congr {n : Nat} {x y : Frame} (hn : n ≤ 25) (ha : Agree (wholeMask (n + 1)) x y) :
    ((List.range n).map fun k => uword (word y (2 + k))) = (List.range n).map fun k => uword (word x (2 + k)) := by
  refine List.map_congr_left fun k hk => ?_
  have hk := List.mem_range.mp hk
  rw [ha.word_eq (by omega) (by omega) (by rw [wholeMask, if_pos (by omega)])]

theorem parseDevInfo_ignoresFiller : IgnoresFiller parseDevInfo fun _ => wholeMask 5 := by
  intro x y b hx ha
  rw [← hx, parseDevInfo, parseDevInfo, parseWords_congr (by decide) ha]

theorem parseCsrInfo_ignoresFiller : IgnoresFiller parseCsrInfo fun _ => wholeMask 26 := by
  intro x y b hx ha
  rw [← hx, parseCsrInfo, parseCsrInfo, parseWords_congr (by decide) ha]

theorem parseNoBody_ignoresFiller : IgnoresFiller parseNoBody fun _ _ => 0 := .const _ _

theorem parseRequest_ignoresFiller (op : Op) (h : Header) : IgnoresFiller (parseRequest op h) bodyMask := by
  cases op with
  | vfOnline | vfOffline | csr => exact .const _ _
  | qreq => exact parseQRangeReq_ignoresFiller.map fun _ => rfl
  | qnotifyAdd | qnotifyDel => exact parseQSel_ignoresFiller.map fun _ => rfl
  | fmap => exact parseFmap_ignoresFiller.map fun _ => rfl
  | qctxtWrt => exact parseQCtxt_ignoresFiller.map fun _ => rfl
  | qctxtRd | qctxtInv | qctxtClr => exact parseQSelT_ignoresFiller.map fun _ => rfl
  | intrCtxtWrt => exact parseICtxt_ignoresFiller.map fun _ => rfl
  | intrCtxtRd | intrCtxtInv | intrCtxtClr => exact parseIRings_ignoresFiller.map fun _ => rfl

theorem parseResponse_ignoresFiller (op : Op) (h : Header) : IgnoresFiller (parseResponse op h) bodyMask := by
  cases op with
  | vfOnline => exact (parseRsp_ignoresFiller parseDevInfo_ignoresFiller).map fun _ => rfl
  | qreq => exact (parseRsp_ignoresFiller parseQRangeRsp_ignoresFiller).map fun _ => rfl
  | qctxtRd => exact (parseRsp_ignoresFiller parseQCtxt_ignoresFiller).map fun _ => rfl
  | csr => exact (parseRsp_ignoresFiller parseCsrInfo_ignoresFiller).map fun _ => rfl
  | intrCtxtRd => exact (parseRsp_ignoresFiller parseICtxt_ignoresFiller).map fun _ => rfl
  | _ => exact (parseRsp_ignoresFiller parseNoBody_ignoresFiller).map fun _ => rfl

/-- `parse` reads no filler bit (R101). -/
theorem parse_filler {ops : Config.OpMap} {x y : Frame} {m : Instr} (hx : parse ops x = .ok m) (hl : y.length = 32)
    (h : ∀ k, k < 32 → word y k &&& fieldMask m k = word x k &&& fieldMask m k) : parse ops y = .ok m := by
  obtain ⟨hlx, hop, -, -⟩ := parse_ok hx
  have h0 : word y 0 = word x 0 := word_congr (h 0 (by decide))
  have hopc : opcOf y = opcOf x := by rw [opcOf, h0, opcOf]
  have hdir : dirOf y = dirOf x := by rw [dirOf, h0, dirOf]
  have hhdr : headerOf y = headerOf x := by simp only [headerOf, tagOf, srcOf, dstOf, h0]
  have ha : Agree (bodyMask m) x y := fun k hk1 hk => by
    have hk' := h k hk
    rwa [fieldMask, if_neg (by omega)] at hk'
  rw [parse_eq hlx hop] at hx
  rw [parse_eq hl (hopc.trans hop), hdir, hhdr]
  split at hx
  case isTrue hd => rw [if_pos hd]; exact parseRequest_ignoresFiller _ _ hx ha
  case isFalse hd => rw [if_neg hd]; exact parseResponse_ignoresFiller _ _ hx ha

/-- Settles O5: the encoder writes within the field masks of each format, and each parser reads within them. -/
theorem fillerIsZeroedAndIgnored : Obligations.FillerIsZeroedAndIgnored := fun _ =>
  ⟨fun _ _ h _ hk => compose_filler h hk, fun _ _ _ => parse_filler⟩

end Sys2Proof
end

section
/-! Proofs of the correlator's statements (spec/43_correlator.md R186 to R195). -/

namespace Sys2Proof.Machine

open Sys2Proof

/-! ## `is_response` (R186) -/

/-- Word 0 is the sum of its five header fields, each at its place (R81). -/
theorem word_zero_eq_header (x : Frame) :
    (word x 0).toNat = opcOf x + dirOf x * 2 ^ 7 + tagOf x * 2 ^ 8 + srcOf x * 2 ^ 16 + dstOf x * 2 ^ 24 := by
  have hlt : (word x 0).toNat < 2 ^ 32 := (word x 0).isLt
  simp only [opcOf, dirOf, tagOf, srcOf, dstOf, field]
  omega

/-- The widths of the header fields bound their values (R81). -/
theorem header_bounds (x : Frame) : opcOf x < 128 ∧ dirOf x < 2 ∧ tagOf x < 256 ∧ srcOf x < 256 ∧ dstOf x < 256 :=
  ⟨Nat.mod_lt _ (by decide), dirOf_lt x, Nat.mod_lt _ (by decide), Nat.mod_lt _ (by decide), Nat.mod_lt _ (by decide)⟩

/-- Word 0 determines its fields: it is the sum of five values of the fields' widths only when they are the fields. -/
theorem word_zero_eq_iff (x : Frame) {o d t s q : Nat} (ho : o < 128) (hd : d < 2) (ht : t < 256) (hs : s < 256) :
    (word x 0).toNat = o + d * 2 ^ 7 + t * 2 ^ 8 + s * 2 ^ 16 + q * 2 ^ 24 ↔
      opcOf x = o ∧ dirOf x = d ∧ tagOf x = t ∧ srcOf x = s ∧ dstOf x = q := by
  obtain ⟨_, _, _, _, _⟩ := header_bounds x
  rw [word_zero_eq_header x]
  omega

/-- The six conditions of R186. -/
theorem correlates_iff {sent received : Frame} :
    correlates sent received = true ↔
      dirOf sent = 0 ∧ opcOf received = opcOf sent ∧ dirOf received = 1 ∧ tagOf received = tagOf sent ∧
        srcOf received = dstOf sent ∧ dstOf received = srcOf sent := by
  simp only [correlates, Bool.and_eq_true, decide_eq_true_eq]
  tauto

/-- The conditions on the received frame are one equation on its word 0 (R186). -/
theorem correlates_iff_word (sent received : Frame) :
    correlates sent received = true ↔ dirOf sent = 0 ∧ (word received 0).toNat =
      opcOf sent + 0x80 + tagOf sent * 2 ^ 8 + dstOf sent * 2 ^ 16 + srcOf sent * 2 ^ 24 := by
  obtain ⟨ho, -, ht, -, hq⟩ := header_bounds sent
  rw [correlates_iff, show 0x80 = 1 * 2 ^ 7 from rfl, ← word_zero_eq_iff received ho (by decide : 1 < 2) ht hq]

theorem isResponse_eq {sent received : Frame} (hs : sent.length = 32) (hr : received.length = 32) :
    isResponse sent received = .ok (correlates sent received) := by
  simp [isResponse, hs, hr]

/-- Settles O10: the received word 0 is the sum of its fields, and the conditions of R186 name each of them. -/
theorem isResponseIsTheWordEquation : Obligations.IsResponseIsTheWordEquation := fun sent received hs hr =>
  ⟨correlates sent received, isResponse_eq hs hr, correlates_iff_word sent received⟩

/-! ## `status` and `kind_of` (R188, R189) -/

section
variable {x : Frame}

theorem status_of_request (hl : x.length = 32) (hd : dirOf x = 0) :
    status x = .error (.malformedMessage .notAResponse) := by
  simp [status, hl, hd]

theorem status_of_positive (hl : x.length = 32) (hd : dirOf x = 1) (hst : 0 < s32 (word x 1)) :
    status x = .error (.malformedMessage .positiveStatus) := by
  simp [status, hl, hd, hst]

theorem status_of_zero (hl : x.length = 32) (hd : dirOf x = 1) (hst : s32 (word x 1) = 0) : status x = .ok .success := by
  simp [status, hl, hd, hst]

theorem status_of_negative (hl : x.length = 32) (hd : dirOf x = 1) (hst : s32 (word x 1) < 0) :
    status x = .ok (.failed (kindOf (s32 (word x 1)))) := by
  simp [status, hl, hd, hst.ne, not_lt.mpr hst.le]

end

/-- Below the seven statuses of the table every status is its own kind (R189). -/
theorem kindOf_other {st : Int} (h : st < -7) : kindOf st = .other st := by
  have hne (v : Int) (hv : -7 ≤ v) : st ≠ v := (h.trans_le hv).ne
  simp only [kindOf, statusBadArgument, statusQueueNotFound, statusResourceExhausted, statusBusy, statusUnauthorized,
    statusMalformed, statusFailure]
  simp (disch := decide) only [if_neg, hne]

/-- Settles O12: the four branches of `status`, and the table of R292. -/
theorem statusAndFailureKinds : Obligations.StatusAndFailureKinds :=
  ⟨fun _ hl => ⟨status_of_request hl, status_of_positive hl, status_of_zero hl, status_of_negative hl⟩,
    rfl, rfl, rfl, rfl, rfl, rfl, rfl, fun _ => kindOf_other⟩

/-! ## The tests every getter makes before the body (R190) -/

section
variable {ops : Config.OpMap} {g : Getter} {x : Frame}

theorem get_of_request (hl : x.length = 32) (hd : dirOf x = 0) :
    get ops g x = .error (.malformedMessage .notAResponse) := by
  simp [get, hl, hd]

theorem get_of_otherOpcode (hl : x.length = 32) (hd : dirOf x = 1) (ho : opcOf x ≠ g.op.code ops) :
    get ops g x = .error (.malformedMessage .unexpectedOpcode) := by
  simp [get, hl, hd, ho]

theorem get_of_positive (hl : x.length = 32) (hd : dirOf x = 1) (ho : opcOf x = g.op.code ops)
    (hst : 0 < s32 (word x 1)) : get ops g x = .error (.malformedMessage .positiveStatus) := by
  simp [get, hl, hd, ho, status_of_positive hl hd hst]

theorem get_of_negative (hl : x.length = 32) (hd : dirOf x = 1) (ho : opcOf x = g.op.code ops)
    (hst : s32 (word x 1) < 0) : get ops g x = .status (.failed (kindOf (s32 (word x 1)))) := by
  simp [get, hl, hd, ho, status_of_negative hl hd hst]

end

/-! ## The body of a success (R190) -/

/-- What a getter returns of the body `r` of a success response, `mk` being its snapshot. -/
def bodyResult {β : Type} (mk : β → Snapshot) : Except Err β → Result
  | .ok b => .fields (mk b)
  | .error e => .error e

/-- The responses `mk` builds are those getter `g` reads, and their snapshot is `snap`. -/
structure Reads {β : Type} (g : Getter) (mk : Rsp β → Instr) (snap : β → Snapshot) : Prop where
  op : ∀ r, (mk r).op = g.op
  dir : ∀ r, (mk r).dir = .rsp
  snapshot : ∀ b, snapshotOf (mk (.ok b)) = some (snap b)

theorem parseRsp_of_zero {β : Type} (body : Frame → Except Err β) {x : Frame} (hst : s32 (word x 1) = 0) :
    parseRsp body x = (body x).map .ok := by
  simp [parseRsp, hst]

theorem parseAs_of_parse {ops : Config.OpMap} {op : Op} {d : Dir} {x : Frame} {m : Instr} (hp : parse ops x = .ok m)
    (ho : m.op = op) (hd : m.dir = d) : parseAs ops op d x = .ok m := by
  simp [parseAs, hp, ho, hd]

theorem parseAs_of_error {ops : Config.OpMap} {op : Op} {d : Dir} {x : Frame} {e : Err} (hp : parse ops x = .error e) :
    parseAs ops op d x = .error e := by
  simp [parseAs, hp]

section
variable {ops : Config.OpMap} {g : Getter} {x : Frame}

/-- On status 0 a getter returns what `body` gives, when the response of its opcode is parsed with `body`. -/
theorem get_of_zero {β : Type} {body : Frame → Except Err β} {mk : Rsp β → Instr} {snap : β → Snapshot}
    (hl : x.length = 32) (hd : dirOf x = 1) (ho : opcOf x = g.op.code ops) (hst : s32 (word x 1) = 0)
    (hr : Reads g mk snap) (hp : parseResponse g.op (headerOf x) x = (parseRsp body x).map mk) :
    get ops g x = bodyResult snap (body x) := by
  have hparse : parse ops x = ((body x).map .ok).map mk := by
    rw [parse_eq hl ho, if_neg (by omega), hp, parseRsp_of_zero body hst]
  cases hb : body x with
  | error e =>
    have has : parseAs ops g.op .rsp x = .error e := parseAs_of_error (by rw [hparse, hb]; rfl)
    simp [get, hl, hd, ho, status_of_zero hl hd hst, has, bodyResult]
  | ok b =>
    have has : parseAs ops g.op .rsp x = .ok (mk (.ok b)) :=
      parseAs_of_parse (by rw [hparse, hb]; rfl) (hr.op _) (hr.dir _)
    simp [get, hl, hd, ho, status_of_zero hl hd hst, has, hr.snapshot, bodyResult]

/-! ## The five bodies (R191 to R195) -/

theorem get_devInfo (hl : x.length = 32) (hd : dirOf x = 1) (ho : opcOf x = Op.vfOnline.code ops)
    (hst : s32 (word x 1) = 0) : get ops .devInfo x = bodyResult .devInfo (parseDevInfo x) :=
  get_of_zero hl hd ho hst ⟨fun _ => rfl, fun _ => rfl, fun _ => rfl⟩ rfl

theorem get_qinfo (hl : x.length = 32) (hd : dirOf x = 1) (ho : opcOf x = Op.qreq.code ops)
    (hst : s32 (word x 1) = 0) : get ops .qinfo x = bodyResult .qinfo (parseQRangeRsp x) :=
  get_of_zero hl hd ho hst ⟨fun _ => rfl, fun _ => rfl, fun _ => rfl⟩ rfl

theorem get_csr (hl : x.length = 32) (hd : dirOf x = 1) (ho : opcOf x = Op.csr.code ops)
    (hst : s32 (word x 1) = 0) : get ops .csr x = bodyResult .csr (parseCsrInfo x) :=
  get_of_zero hl hd ho hst ⟨fun _ => rfl, fun _ => rfl, fun _ => rfl⟩ rfl

theorem get_qctxt (hl : x.length = 32) (hd : dirOf x = 1) (ho : opcOf x = Op.qctxtRd.code ops)
    (hst : s32 (word x 1) = 0) : get ops .qctxt x = bodyResult .qctxt (parseQCtxt x) :=
  get_of_zero hl hd ho hst ⟨fun _ => rfl, fun _ => rfl, fun _ => rfl⟩ rfl

theorem get_intrCtxt (hl : x.length = 32) (hd : dirOf x = 1) (ho : opcOf x = Op.intrCtxtRd.code ops)
    (hst : s32 (word x 1) = 0) : get ops .intrCtxt x = bodyResult .intrCtxt (parseICtxt x) :=
  get_of_zero hl hd ho hst ⟨fun _ => rfl, fun _ => rfl, fun _ => rfl⟩ rfl

end

/-- The base and the count, or the failure of a base outside 0..65535 (R192). -/
theorem bodyResult_parseQRangeRsp (x : Frame) :
    bodyResult .qinfo (parseQRangeRsp x) =
      if 0 ≤ s32 (word x 2) ∧ s32 (word x 2) ≤ 65535 then .fields (.qinfo ⟨s32 (word x 2), field (word x 3) 15 0⟩)
      else .error (.malformedMessage .qbase) := by
  simp only [parseQRangeRsp, legalBase_iff]
  split <;> rfl

/-- The reserved pairs are `CMPT_WITH_MM` with streaming mode and `CMPT_WITH_ST` with memory-mapped mode (R103 (c)). -/
theorem reservedPair_iff {t st : Nat} : reservedPair t st = true ↔ (t = 1 ∧ st = 1) ∨ (t = 2 ∧ st = 0) := by
  simp only [reservedPair, Bool.or_eq_true, Bool.and_eq_true, decide_eq_true_eq]
  simp only [cmptWithMm, cmptWithSt]
  omega

/-- The selector and the descriptor, or the failure of the reserved pair (R194). -/
theorem bodyResult_parseQCtxt (x : Frame) :
    bodyResult .qctxt (parseQCtxt x) =
      if (field (word x 2) 19 18 = 1 ∧ field (word x 2) 17 17 = 1) ∨
          (field (word x 2) 19 18 = 2 ∧ field (word x 2) 17 17 = 0) then .error (.malformedMessage .typeMode)
      else .fields (.qctxt ⟨⟨field (word x 2) 15 0, field (word x 2) 16 16, field (word x 2) 17 17, field (word x 2) 19 18⟩,
        parseDesc (field (word x 2) 19 18) x⟩) := by
  rw [parseQCtxt_eq_map]
  simp only [parseQSelT, reservedPair_iff]
  split <;> rfl

theorem getD_map_range {α : Type} {n i : Nat} (f : Nat → α) (d : α) (h : i < n) :
    ((List.range n).map f).getD i d = f i := by
  simp [List.getD_eq_getElem?_getD, h]

theorem parseNumRings_of_mem {x : Frame} (h : 1 ≤ field (word x 2) 3 0 ∧ field (word x 2) 3 0 ≤ 8) :
    parseNumRings x = .ok (field (word x 2) 3 0) := if_pos h

theorem parseNumRings_of_not_mem {x : Frame} (h : field (word x 2) 3 0 = 0 ∨ 9 ≤ field (word x 2) 3 0) :
    parseNumRings x = .error (.malformedMessage .numRings) := if_neg (by omega)

/-- The count and its two lists (R195). -/
theorem bodyResult_parseICtxt_of_mem {x : Frame} (h : 1 ≤ field (word x 2) 3 0 ∧ field (word x 2) 3 0 ≤ 8) :
    bodyResult .intrCtxt (parseICtxt x) =
      .fields (.intrCtxt ⟨field (word x 2) 3 0, parseIndices (field (word x 2) 3 0) x,
        parseContexts (field (word x 2) 3 0) x⟩) := by
  rw [parseICtxt_eq_map, parseNumRings_of_mem h]
  rfl

theorem bodyResult_parseICtxt_of_not_mem {x : Frame} (h : field (word x 2) 3 0 = 0 ∨ 9 ≤ field (word x 2) 3 0) :
    bodyResult .intrCtxt (parseICtxt x) = .error (.malformedMessage .numRings) := by
  rw [parseICtxt_eq_map, parseNumRings_of_not_mem h]
  rfl

/-- Settles O13: the tests of R190 in their order, then each getter's body parser. -/
theorem gettersReadTheSnapshot : Obligations.GettersReadTheSnapshot := by
  intro ops x hl
  refine ⟨fun _ => get_of_request hl, fun _ => get_of_otherOpcode hl, fun _ => get_of_positive hl,
    fun _ => get_of_negative hl, fun hd hst => ⟨?devInfo, ?qinfo, ?csr, ?qctxt, ?intrCtxt⟩⟩
  case devInfo => exact fun ho => get_devInfo hl hd ho hst
  case qinfo => exact fun ho => (get_qinfo hl hd ho hst).trans (bodyResult_parseQRangeRsp x)
  case csr =>
    exact fun ho => ⟨_, get_csr hl hd ho hst, by simp, fun k hk => getD_map_range _ _ hk⟩
  case qctxt => exact fun ho => (get_qctxt hl hd ho hst).trans (bodyResult_parseQCtxt x)
  case intrCtxt =>
    refine fun ho => ⟨fun hn => ?_, fun hn => (get_intrCtxt hl hd ho hst).trans (bodyResult_parseICtxt_of_not_mem hn)⟩
    exact ⟨_, _, (get_intrCtxt hl hd ho hst).trans (bodyResult_parseICtxt_of_mem hn),
      by simp [parseIndices], by simp [parseContexts], fun i hi => ⟨getD_map_range _ _ hi, getD_map_range _ _ hi⟩⟩

end Sys2Proof.Machine
end

section
/-! Proofs of the handshake's statements (spec/44_handshake.md R207 to R214). Each operation's step is its `_cases` lemma retired, so
what it leaves is read off the state each case names. -/

namespace Sys2Proof.Machine

open Sys2Proof

/-! ## What a step of one channel leaves -/

section
variable {s t : State} {f : FuncId}

theorem OnlyChan.refl (f : FuncId) (s : State) : OnlyChan f s s := ⟨⟨rfl, rfl, rfl, fun _ => rfl⟩, fun _ _ => rfl⟩

/-- The memory is not a channel. -/
theorem OnlyChan.withMem (h : OnlyChan f s t) (m : Memory) : OnlyChan f s { t with mem := m } where
  rest := ⟨h.rest.cfg, h.rest.pfBase, h.rest.inits, h.rest.vfset⟩
  others := h.others

theorem OnlyChan.updChan (h : OnlyChan f s t) (u : Chan → Chan) : OnlyChan f s (t.updChan f u) where
  rest := ⟨h.rest.cfg, h.rest.pfBase, h.rest.inits, fun g => (updChan_hasChan t f g u).trans (h.rest.vfset g)⟩
  others g hg := (updChan_chan_other t f g u hg).trans (h.others g hg)

/-- The end of a step that called no `PRIV`. -/
theorem OnlyChan.took (h : OnlyChan f s t) (hs : t.sched = s.sched) (r : Result) : Took f s (t.retire r none) where
  only := ⟨⟨h.rest.cfg, h.rest.pfBase, h.rest.inits, h.rest.vfset⟩, h.others⟩
  sched := by rw [retire_sched, hs]
  priv := rfl

/-- A step that only returns a result. -/
theorem took_retire (f : FuncId) (s : State) (r : Result) : Took f s (s.retire r none) := (OnlyChan.refl f s).took rfl r

/-- A step that updates channel `f`. -/
theorem took_updChan (f : FuncId) (s : State) (u : Chan → Chan) (r : Result) :
    Took f s ((s.updChan f u).retire r none) := ((OnlyChan.refl f s).updChan u).took rfl r

/-- A step that writes the memory. -/
theorem took_withMem (f : FuncId) (s : State) (m : Memory) (r : Result) :
    Took f s (State.retire { s with mem := m } r none) := ((OnlyChan.refl f s).withMem m).took rfl r

/-- A step that writes the memory and updates channel `f`. -/
theorem took_withMem_updChan (f : FuncId) (s : State) (m : Memory) (u : Chan → Chan) (r : Result) :
    Took f s ((State.updChan { s with mem := m } f u).retire r none) :=
  (((OnlyChan.refl f s).withMem m).updChan u).took rfl r

/-- The updated channel at the end of the step. -/
theorem retire_updChan_chan (hf : s.hasChan f = true) (u : Chan → Chan) (r : Result) (p : Option PrivCall) :
    ((s.updChan f u).retire r p).chan f = u (s.chan f) := updChan_chan_same s f u hf

theorem retire_withMem_updChan_chan (hf : s.hasChan f = true) (m : Memory) (u : Chan → Chan) (r : Result)
    (p : Option PrivCall) : ((State.updChan { s with mem := m } f u).retire r p).chan f = u (s.chan f) :=
  updChan_chan_same { s with mem := m } f u hf

/-- A step that updates every channel. -/
theorem sameRest_updAll (s : State) (u : FuncId → Chan → Chan) (r : Result) (p : Option PrivCall) :
    SameRest s ((s.updAll u).retire r p) := ⟨rfl, rfl, rfl, fun g => updAll_hasChan s g u⟩

theorem retire_updAll_chan (hf : s.hasChan f = true) (u : FuncId → Chan → Chan) (r : Result) (p : Option PrivCall) :
    ((s.updAll u).retire r p).chan f = u f (s.chan f) := updAll_chan s f u hf

/-- The memory at the end of a `send` that passed its tests (R72 (a)). -/
theorem slot_sent {x : Frame} (ht : t.mem = writeSlot s.mem f x) (hwf : Memory.wf s.mem = true) (hx : x.length = 32) :
    readSlot t.mem f = x ∧ SameMemBut f s t :=
  ⟨by rw [ht, readSlot_writeSlot f hwf hx], fun a ha => by rw [ht, read_writeSlot_other f hx a ha]⟩

end

/-! ## The step of each operation -/

section
variable {s t : State} {f : FuncId} {hs : Bool} {x : Frame} {e : Except Err Unit} {y : Except Err Frame}

/-- A step of channel `f` that works on no message runs its operation and ends. -/
theorem step_channel {a : Action} {r : Result} (h : Due a f s) (hoff : stageOf s = .off)
    (ha : agentStep a s = onChannel f s (t, r)) : step s = .next (t.retire r none) := by
  rw [step_agent h.head (.inl hoff), ha, onChannel_of h.vfset, finish_eq]

theorem step_sendVf (h : Due (.sendVf f x hs) f s) (he : sendVf f x hs s = (t, e)) :
    step s = .next (t.retire (resultOf e) none) :=
  step_channel h (stageOf_eq h.head) (by rw [agentStep, he])

theorem step_sendPf (h : s.sched.head? = some (.sendPf x hs)) (he : sendPf x hs s = (t, e)) :
    step s = .next (t.retire (resultOf e) none) := by
  rw [step_own h (by simp) (by simp) (by simp), agentStep, he, finish_eq]

theorem step_receivePf (h : Due (.receivePf f hs) f s) (he : receivePf f hs s = (t, y)) :
    step s = .next (t.retire (frameResult (some f) y) none) :=
  step_channel h (stageOf_eq h.head) (by rw [agentStep, he])

theorem step_receiveVf (h : Due (.receiveVf f hs) f s) (he : receiveVf f hs s = (t, y)) :
    step s = .next (t.retire (frameResult none y) none) :=
  step_channel h (stageOf_eq h.head) (by rw [agentStep, he])

theorem step_clearAckPf (h : Due (.clearAckPf f hs) f s) (he : clearAckPf f hs s = (t, e)) :
    step s = .next (t.retire (resultOf e) none) :=
  step_channel h (stageOf_eq h.head) (by rw [agentStep, he])

theorem step_clearAckVf (h : Due (.clearAckVf f hs) f s) (he : clearAckVf f hs s = (t, e)) :
    step s = .next (t.retire (resultOf e) none) :=
  step_channel h (stageOf_eq h.head) (by rw [agentStep, he])

end

/-! ## `send` (R207, R208) -/

/-- Settles O37: a busy channel is left alone; otherwise the slot is written first, and only the flag writes can fail. -/
theorem vfSend : Obligations.VfSend := by
  intro s f x hs h hx hwf
  rcases sendVf_cases f x hs s with ⟨hl, _⟩ | ⟨_, hbusy, he⟩ | ⟨_, ho, hp, ha, rfl, he⟩ | ⟨_, ho, hp, ha, rfl, he⟩
  · exact absurd hx hl
  · refine ⟨_, step_sendVf h he, took_retire f s _, ?_⟩
    rw [if_pos hbusy]
    exact ⟨rfl, sameMem_of_eq rfl, rfl⟩
  all_goals
    obtain ⟨hslot, hframe⟩ := slot_sent (t := { s with mem := writeSlot s.mem f x }) rfl hwf hx
    have hfree : ¬((s.chan f).outstanding = true ∨ (s.chan f).pend = true ∨ (s.chan f).ack = true) := by
      simp [ho, hp, ha]
  · refine ⟨_, step_sendVf h he, took_withMem f s _ _, ?_⟩
    rw [if_neg hfree]
    exact ⟨hslot, hframe, rfl, rfl⟩
  · refine ⟨_, step_sendVf h he, took_withMem_updChan f s _ _ _, ?_⟩
    rw [if_neg hfree]
    exact ⟨hslot, hframe, rfl, retire_withMem_updChan_chan h.vfset _ _ _ _⟩

/-- The router: a `DST` that is the number of a channel names it (R227). -/
theorem dstChan_eq {x : Frame} {f : FuncId} (h : dstOf x = f.toNat) : dstChan x = f := by
  simp [dstChan, h]

/-- Settles O38: the cases of `send(PF, x)` at the channel the router names. -/
theorem pfSend : Obligations.PfSend := by
  intro s x f hs h hx hd hwf
  have hcases := sendPf_cases x hs s
  rw [dstChan_eq hd] at hcases
  rcases hcases with ⟨hl, _⟩ | ⟨_, hc, he⟩ | ⟨_, hc, hbusy, he⟩ | ⟨_, hc, hp, ha, rfl, he⟩ | ⟨_, hc, hp, ha, rfl, he⟩
  · exact absurd hx hl
  · refine ⟨_, step_sendPf h he, took_retire f s _, ?_⟩
    rw [if_pos hc]
    exact ⟨rfl, sameMem_of_eq rfl, rfl⟩
  · refine ⟨_, step_sendPf h he, took_retire f s _, ?_⟩
    rw [if_neg (by simp [hc]), if_pos hbusy]
    exact ⟨rfl, sameMem_of_eq rfl, rfl⟩
  all_goals
    obtain ⟨hslot, hframe⟩ := slot_sent (t := { s with mem := writeSlot s.mem f x }) rfl hwf hx
    refine ⟨_, step_sendPf h he, took_withMem_updChan f s _ _ _, ?_⟩
    rw [if_neg (by simp [hc]), if_neg (by simp [hp, ha])]
    exact ⟨hslot, hframe, rfl, retire_withMem_updChan_chan hc _ _ _ _⟩

/-! ## `receive` (R209, R210) -/

/-- Settles O39: without `PEND[f]` nothing happens; otherwise the shadow is cleared before the flag writes, which may fail. -/
theorem pfReceive : Obligations.PfReceive := by
  intro s f hs h
  rcases receivePf_cases f hs s with ⟨hp, he⟩ | ⟨hp, rfl, he⟩ | ⟨hp, rfl, he⟩
  · refine ⟨_, step_receivePf h he, took_retire f s _, sameMem_of_eq rfl, ?_⟩
    rw [if_pos hp]
    exact ⟨rfl, rfl⟩
  all_goals
    refine ⟨_, step_receivePf h he, took_updChan f s _ _, sameMem_of_eq rfl, ?_⟩
    rw [if_neg (by simp [hp])]
    exact ⟨rfl, retire_updChan_chan h.vfset _ _ _⟩

/-- Settles O40: without `ACK[f]`, or with a failed flag write, nothing happens. -/
theorem vfReceive : Obligations.VfReceive := by
  intro s f hs h
  rcases receiveVf_cases f hs s with ⟨ha, he⟩ | ⟨ha, rfl, he⟩ | ⟨ha, rfl, he⟩
  · refine ⟨_, step_receiveVf h he, took_retire f s _, sameMem_of_eq rfl, ?_⟩
    rw [if_pos ha]
    exact ⟨rfl, rfl⟩
  · refine ⟨_, step_receiveVf h he, took_retire f s _, sameMem_of_eq rfl, ?_⟩
    rw [if_neg (by simp [ha])]
    exact ⟨rfl, rfl⟩
  · refine ⟨_, step_receiveVf h he, took_updChan f s _ _, sameMem_of_eq rfl, ?_⟩
    rw [if_neg (by simp [ha])]
    exact ⟨rfl, retire_updChan_chan h.vfset _ _ _⟩

/-! ## `clear_ack` (R212) -/

/-- Settles O41: in each role one update of the channel, which the failed flag writes stop short of the flags. -/
theorem clearAckFreesTheSlot : Obligations.ClearAckFreesTheSlot := by
  refine fun s f hs => ⟨fun h => ?pf, fun h => ?vf⟩
  case pf =>
    rcases clearAckPf_cases f hs s with ⟨rfl, he⟩ | ⟨rfl, he⟩ <;>
      exact ⟨_, step_clearAckPf h he, took_updChan f s _ _, sameMem_of_eq rfl, rfl, retire_updChan_chan h.vfset _ _ _⟩
  case vf =>
    rcases clearAckVf_cases f hs s with ⟨rfl, he⟩ | ⟨rfl, he⟩ <;>
      exact ⟨_, step_clearAckVf h he, took_updChan f s _ _, sameMem_of_eq rfl, rfl, retire_updChan_chan h.vfset _ _ _⟩

/-! ## The interrupt enables (R213, R214) -/

section
variable {s : State} {f : FuncId} {r : Role}

theorem step_enableInterrupts (h : s.sched.head? = some (.enableInterrupts r)) : step s = setInterrupts r true s :=
  step_own h (by simp) (by simp) (by simp)

theorem step_disableInterrupts (h : s.sched.head? = some (.disableInterrupts r)) : step s = setInterrupts r false s :=
  step_own h (by simp) (by simp) (by simp)

/-- Role `PF` writes `INTR_EN_PF` of every channel. -/
theorem setInterrupts_pf (hf : s.hasChan f = true) (b : Bool) :
    ∃ t, setInterrupts .pf b s = .next t ∧ SameRest s t ∧ SameMem s t ∧ t.result = .ok ∧
      t.chan f = { s.chan f with intrEnPf := b } :=
  ⟨_, rfl, sameRest_updAll s _ _ _, sameMem_of_eq rfl, rfl, retire_updAll_chan hf _ _ _⟩

/-- Role `VF(f)` writes `INTR_EN_VF[f]` alone. -/
theorem setInterrupts_vf (hf : s.hasChan f = true) (b : Bool) :
    ∃ t, setInterrupts (.vf f) b s = .next t ∧ Took f s t ∧ SameMem s t ∧ t.result = .ok ∧
      t.chan f = { s.chan f with intrEnVf := b } :=
  ⟨_, onChannel_of hf, took_updChan f s _ _, sameMem_of_eq rfl, rfl, retire_updChan_chan hf _ _ _⟩

end

/-- Settles O42: both steps are `setInterrupts`, whose two roles are the lemmas above. -/
theorem interruptEnablesAreSetAndCleared : Obligations.InterruptEnablesAreSetAndCleared := fun _ _ hf =>
  ⟨fun h => by rw [step_enableInterrupts h]; exact setInterrupts_pf hf true,
    fun h => by rw [step_disableInterrupts h]; exact setInterrupts_pf hf false,
    fun h => by rw [step_enableInterrupts h]; exact setInterrupts_vf hf true,
    fun h => by rw [step_disableInterrupts h]; exact setInterrupts_vf hf false⟩

end Sys2Proof.Machine
end

section
/-! Proofs of the dispatcher's transitions that move a frame (spec/45_pf_dispatch.md R237, R238, R241, R242). T1, T4 and T5 are their
`_cases` lemmas retired; T2 turns on whether `RXBUF[f]` parses as a request. -/

namespace Sys2Proof.Machine

open Sys2Proof

variable {s t : State} {f : FuncId} {hs hs' : Bool} {r : Result} {m : Instr}

/-! ## Decoding (T2) -/

/-- T2 on a frame that parses as a request latches it (R238). -/
theorem step_decode_request (h : Due (.decode f) f s) (hd : (s.chan f).dstate = .decoding)
    (hp : parse s.cfg.ops (s.chan f).rxbuf = .ok m) (hm : m.dir = .req) :
    step s = .next ((s.updChan f fun c => { c with req := m, dstate := .executing }).retire .ok none) := by
  obtain ⟨_, _, hexec⟩ := exec_request hm
  rw [step_decode h hd hp, hexec, runRequest_decode (stageOf_decode h hd)]

/-- A message that was parsed carries the opcode and the tag of its frame, so its malformed response is the generic one of R244. -/
theorem takeStatus_malformed_of_parse {x : Frame} (hp : parse s.cfg.ops x = .ok m) :
    s.takeStatus f (m.op.code s.cfg.ops) m.header.tag.toNat statusMalformed =
      s.respondWith f (malformedRsp s.cfg.pfFuncId f x) := by
  obtain ⟨_, hopc, _, hheader⟩ := parse_ok hp
  rw [State.takeStatus, malformedRsp, hopc, hheader, headerOf, Int.toNat_natCast]

/-- T2 on a frame that parses as no request answers it with the generic malformed-request response (R238, R244). -/
theorem step_decode_rejected (h : Due (.decode f) f s) (hd : (s.chan f).dstate = .decoding)
    (hp : ∀ m, parse s.cfg.ops (s.chan f).rxbuf = .ok m → m.dir = .rsp) :
    step s = .next ((s.respondWith f (malformedRsp s.cfg.pfFuncId f (s.chan f).rxbuf)).retire .ok none) := by
  cases he : parse s.cfg.ops (s.chan f).rxbuf with
  | error e => rw [step_decode_malformed h hd he, decodeFailure, finish_eq]
  | ok m =>
    obtain ⟨_, hexec⟩ := exec_response (hp m he)
    rw [step_decode h hd he, hexec, runResponse_decode (stageOf_decode h hd), takeStatus_malformed_of_parse he]

/-- Settles O28, by whether some request parses from `RXBUF[f]`. -/
theorem decodeLatchesOrAnswersMalformed : Obligations.DecodeLatchesOrAnswersMalformed := by
  intro s f h hd _
  by_cases hreq : ∃ m, parse s.cfg.ops (s.chan f).rxbuf = .ok m ∧ m.dir = .req
  · obtain ⟨m, hp, hm⟩ := hreq
    exact ⟨_, step_decode_request h hd hp hm, took_updChan f s _ _, sameMem_of_eq rfl, rfl,
      .inl ⟨m, hp, hm, retire_updChan_chan h.vfset _ _ _⟩⟩
  · have hrsp : ∀ m, parse s.cfg.ops (s.chan f).rxbuf = .ok m → m.dir = .rsp := fun m hp => by
      cases hm : m.dir with
      | req => exact absurd ⟨m, hp, hm⟩ hreq
      | rsp => rfl
    refine ⟨_, step_decode_rejected h hd hrsp, took_updChan f s _ _, sameMem_of_eq rfl, rfl, .inr ⟨hrsp, ?_⟩⟩
    rw [← malformedRsp_eq]
    exact retire_updChan_chan h.vfset _ _ _

/-! ## Accepting (T1) -/

theorem step_accept (h : Due (.accept f hs) f s) (he : accept f hs s = (t, r)) : step s = .next (t.retire r none) :=
  step_channel h (stageOf_eq h.head) (by rw [agentStep, he])

/-- Settles O32: the enabled cases of T1, by the handshake of its `receive`. -/
theorem acceptTakesTheFrame : Obligations.AcceptTakesTheFrame := by
  intro s f hs h hd hp
  rcases accept_cases f hs s with ⟨hoff, _⟩ | ⟨_, _, rfl, he⟩ | ⟨_, _, rfl, he⟩
  · exact absurd ⟨hd, hp⟩ hoff
  all_goals
    exact ⟨_, step_accept h he, took_updChan f s _ _, sameMem_of_eq rfl, rfl, retire_updChan_chan h.vfset _ _ _⟩

/-! ## Responding (T4) -/

theorem step_respond (h : Due (.respond f hs) f s) (he : respond f hs s = (t, r)) : step s = .next (t.retire r none) :=
  step_channel h (stageOf_eq h.head) (by rw [agentStep, he])

/-- Settles O33: the enabled cases of T4; the slot is written before the flag write that may fail. -/
theorem respondSendsHoldsOrFaults : Obligations.RespondSendsHoldsOrFaults := by
  intro s f hs h hd hwf hl hdst
  rcases respond_cases f hs s h.vfset hl hdst with
    ⟨hoff, _⟩ | ⟨_, hbusy, he⟩ | ⟨_, hp, ha, rfl, he⟩ | ⟨_, hp, ha, rfl, he⟩
  · exact absurd hd hoff
  · refine ⟨_, step_respond h he, took_retire f s _, ?_⟩
    rw [if_pos hbusy]
    exact ⟨rfl, sameMem_of_eq rfl, rfl⟩
  all_goals
    obtain ⟨hslot, hframe⟩ := slot_sent (t := { s with mem := writeSlot s.mem f (s.chan f).resp }) rfl hwf hl
    refine ⟨_, step_respond h he, took_withMem_updChan f s _ _ _, ?_⟩
    rw [if_neg (by simp [hp, ha])]
    exact ⟨hslot, hframe, rfl, retire_withMem_updChan_chan h.vfset _ _ _ _⟩

/-! ## Rejecting a second request (T5) -/

theorem step_busyReject (h : Due (.busyReject f hs hs') f s) (he : busyReject f hs hs' s = (t, r)) :
    step s = .next (t.retire r none) :=
  step_channel h (stageOf_eq h.head) (by rw [agentStep, he])

/-- A status response that echoes the opcode and the tag of a frame, which need not be decoded, is the frame of R245. -/
theorem statusRsp_echo (pf f : FuncId) (y : Frame) (st : Int) :
    statusRsp pf f (opcOf y) (tagOf y) st = statusFrame (opcOf y) (tagOf y) pf f st := by
  obtain ⟨hopc, _, htag, _⟩ := header_bounds y
  simpa using statusRsp_eq (t := (tagOf y : Int)) pf f st hopc (by omega) (by omega)

theorem statusFrame_length (o : Nat) (t : Int) (pf f : FuncId) (st : Int) : (statusFrame o t pf f st).length = 32 :=
  frameOf_length _

/-- Settles O34: the enabled cases of T5, by the handshakes of its `receive` and of its `send`. -/
theorem busyRejectKeepsTheFirstRequest : Obligations.BusyRejectKeepsTheFirstRequest := by
  intro s f hsR hsS h hd hp hwf
  have hcases := busyReject_cases f hsR hsS s h.vfset
  rw [statusRsp_echo, statusBusy] at hcases
  have hlen := statusFrame_length (opcOf (readSlot s.mem f)) (tagOf (readSlot s.mem f)) s.cfg.pfFuncId f (-4)
  generalize statusFrame _ _ _ _ _ = b at hcases hlen ⊢
  rcases hcases with ⟨hoff, _⟩ | ⟨_, _, rfl, he⟩ | ⟨_, _, rfl, rfl, he⟩ | ⟨_, _, rfl, rfl, he⟩
  · exact absurd ⟨busy_iff.mpr hd, hp⟩ hoff
  · exact ⟨_, step_busyReject h he, took_updChan f s _ _, rfl, sameMem_of_eq rfl, retire_updChan_chan h.vfset _ _ _⟩
  all_goals
    obtain ⟨hslot, hframe⟩ := slot_sent (t := { s with mem := writeSlot s.mem f b }) rfl hwf hlen
    exact ⟨_, step_busyReject h he, took_withMem_updChan f s _ _ _, hslot, hframe, rfl,
      retire_withMem_updChan_chan h.vfset _ _ _ _⟩

end Sys2Proof.Machine
end

section
/-! What `compose` tests is what a well-formed message satisfies (spec/30_encoding.md R83, R98): each list of tests, format by format,
against the legal set of the format. -/

namespace Sys2Proof

/-! ## The tests of each format -/

theorem Header.tests_iff {h : Header} : (∀ p ∈ h.tests, p.1 = true) ↔ h.legal = true := by
  simp [tests, legal, and_assoc]

theorem QRange.reqTests_iff {b : QRange} : (∀ p ∈ b.reqTests, p.1 = true) ↔ b.legalReq = true := by
  simp [reqTests, legalReq]

theorem QRange.rspTests_iff {b : QRange} : (∀ p ∈ b.rspTests, p.1 = true) ↔ b.legalRsp = true := by
  simp [rspTests, legalRsp]

theorem QSel.tests_iff {b : QSel} : (∀ p ∈ b.tests, p.1 = true) ↔ b.legal = true := by
  simp [tests, legal, and_assoc]

theorem QSelT.tests_iff {b : QSelT} : (∀ p ∈ b.tests, p.1 = true) ↔ b.legal = true := by
  simp [tests, legal, and_assoc]

theorem Fmap.tests_iff {b : Fmap} : (∀ p ∈ b.tests, p.1 = true) ↔ b.legal = true := by
  simp [tests, legal, and_assoc]

/-- The pseudocode tests every width before any group; the legal set asks both of each field. -/
theorem QDesc.tests_iff {t : Int} {d : QDesc} : (∀ p ∈ d.tests t, p.1 = true) ↔ d.legal t = true := by
  simp only [tests, legal, List.forall_mem_append, List.forall_mem_map, List.all_eq_true, Bool.and_eq_true,
    ← forall₂_and]

theorem QCtxt.tests_iff {b : QCtxt} : (∀ p ∈ b.tests, p.1 = true) ↔ b.legal = true := by
  rw [tests, List.forall_mem_append, QSelT.tests_iff, QDesc.tests_iff, legal, Bool.and_eq_true]

theorem IRings.tests_iff {b : IRings} : (∀ p ∈ b.tests, p.1 = true) ↔ b.legal = true := by
  simp [tests, legal, and_assoc]

/-- The pseudocode tests the length of the context list before the entries of the index list. -/
theorem ICtxt.tests_iff {b : ICtxt} : (∀ p ∈ b.tests, p.1 = true) ↔ b.legal = true := by
  simp only [tests, legal, IRings.legal, List.forall_mem_cons, Bool.and_eq_true, decide_eq_true_eq]
  tauto

theorem DevInfo.tests_iff {b : DevInfo} : (∀ p ∈ b.tests, p.1 = true) ↔ b.legal = true := by
  simp [tests, legal]

theorem CsrInfo.tests_iff {b : CsrInfo} : (∀ p ∈ b.tests, p.1 = true) ↔ b.legal = true := by
  simp [tests, legal]

theorem Rsp.tests_iff {β : Type} {tests : β → List (Bool × Info)} {legal : β → Bool}
    (h : ∀ b, (∀ p ∈ tests b, p.1 = true) ↔ legal b = true) :
    ∀ {r : Rsp β}, (∀ p ∈ r.tests tests, p.1 = true) ↔ r.legal legal = true
  | .ok b => h b
  | .fail st => by simp [Rsp.tests, Rsp.legal]

/-! ## Every message -/

theorem Instr.bodyTests_iff {m : Instr} : (∀ p ∈ m.bodyTests, p.1 = true) ↔ m.bodyLegal = true := by
  cases m with
  | vfOnlineReq h | vfOfflineReq h | csrReq h => simp [bodyTests, bodyLegal]
  | vfOnlineRsp h r => exact Rsp.tests_iff fun _ => DevInfo.tests_iff
  | csrRsp h r => exact Rsp.tests_iff fun _ => CsrInfo.tests_iff
  | qreqReq h b => exact QRange.reqTests_iff
  | qreqRsp h r => exact Rsp.tests_iff fun _ => QRange.rspTests_iff
  | qnotifyAddReq h b | qnotifyDelReq h b => exact QSel.tests_iff
  | fmapReq h b => exact Fmap.tests_iff
  | qctxtWrtReq h b => exact QCtxt.tests_iff
  | qctxtRdReq h b | qctxtInvReq h b | qctxtClrReq h b => exact QSelT.tests_iff
  | qctxtRdRsp h r => exact Rsp.tests_iff fun _ => QCtxt.tests_iff
  | intrCtxtWrtReq h b => exact ICtxt.tests_iff
  | intrCtxtRdReq h b | intrCtxtInvReq h b | intrCtxtClrReq h b => exact IRings.tests_iff
  | intrCtxtRdRsp h r => exact Rsp.tests_iff fun _ => ICtxt.tests_iff
  | _ => exact Rsp.tests_iff fun _ => by simp

/-- `compose` succeeds on the well-formed messages alone, with the encoded words (R98). -/
theorem compose_ok_iff_wellFormed {ops : Config.OpMap} {m : Instr} {x : Frame} :
    compose ops m = .ok x ↔ WellFormed m ∧ x = encode ops m := by
  rw [compose_ok_iff, List.forall_mem_append, Header.tests_iff, Instr.bodyTests_iff, WellFormed, wellFormed,
    Bool.and_eq_true]

theorem compose_of_wellFormed (ops : Config.OpMap) {m : Instr} (h : WellFormed m) : compose ops m = .ok (encode ops m) :=
  compose_ok_iff_wellFormed.mpr ⟨h, rfl⟩

theorem compose_length {ops : Config.OpMap} {m : Instr} {x : Frame} (h : compose ops m = .ok x) : x.length = 32 := by
  rw [(compose_ok_iff_wellFormed.mp h).2, encode_length]

theorem not_wellFormed_of_compose_error {ops : Config.OpMap} {m : Instr} {e : Err} (h : compose ops m = .error e) :
    ¬WellFormed m := fun hm => by
  cases (compose_of_wellFormed ops hm).symm.trans h

end Sys2Proof
end

section
/-! Proofs of the VF requester's statements (spec/46_vf_requester.md R278 to R284). Each transition's step is its `_cases` lemma
retired; V1 and V5 compose their request, which succeeds exactly when it is well formed. -/

namespace Sys2Proof.Machine

open Sys2Proof

section
variable {s t : State} {f : FuncId} {hs hs' : Bool} {req : Request} {r : Result}

/-! ## The step of each transition -/

theorem step_start (h : Due (.start f req hs hs') f s) (he : start f req hs hs' s = (t, r)) :
    step s = .next (t.retire r none) :=
  step_channel h (stageOf_eq h.head) (by rw [agentStep, he])

theorem step_poll (h : Due (.poll f hs) f s) (he : poll f hs s = (t, r)) : step s = .next (t.retire r none) :=
  step_channel h (stageOf_eq h.head) (by rw [agentStep, he])

theorem step_retry (h : Due (.retry f hs hs') f s) (he : retry f hs hs' s = (t, r)) :
    step s = .next (t.retire r none) :=
  step_channel h (stageOf_eq h.head) (by rw [agentStep, he])

theorem step_giveUp (h : Due (.giveUp f hs) f s) (he : giveUp f hs s = (t, r)) : step s = .next (t.retire r none) :=
  step_channel h (stageOf_eq h.head) (by rw [agentStep, he])

/-! ## What V1 and V5 leave of the channel before their `send` -/

theorem afterDrain_of_stale (h : (s.chan f).ack = true ∧ (s.chan f).outstanding = false) {c : Chan} :
    afterDrain s f c =
      { c with ack := false, outstanding := false, vfRxbuf := readSlot s.mem f, tagNext := c.tagNext + 1 } :=
  if_pos h

theorem afterDrain_of_not_stale (h : ¬((s.chan f).ack = true ∧ (s.chan f).outstanding = false)) {c : Chan} :
    afterDrain s f c = { c with tagNext := c.tagNext + 1 } :=
  if_neg h

/-- The slot is free after V5's `clear_ack` unless it failed and a flag was set (R282). -/
theorem afterExpire_of_free {c : Chan} (h : ¬(hs = true ∧ (c.pend = true ∨ c.ack = true))) :
    afterExpire hs c =
      { c with outstanding := false, pend := false, ack := false, vfHf := hs || c.vfHf } := by
  cases hs with
  | false => rfl
  | true =>
    have hp : c.pend = false := by simpa using fun hp => h ⟨rfl, .inl hp⟩
    have ha : c.ack = false := by simpa using fun ha => h ⟨rfl, .inr ha⟩
    simp [afterExpire, hp, ha]

/-- While a transaction is in progress its request composes with the next tag (R282 "cannot fail"). -/
theorem compose_retry (hi : Inv s) (hf : s.hasChan f = true) (hv : (s.chan f).vstate = .wait) :
    compose s.cfg.ops ((s.chan f).vfReq.withHeader (requestHeader s f)) =
      .ok (encode s.cfg.ops ((s.chan f).vfReq.withHeader (requestHeader s f))) :=
  compose_of_wellFormed _ ((hi.chans _ (chan_mem hf)).vfReq hv _)

end

/-! ## Starting (V1) -/

/-- Settles O46: V1's tests in their order, then the outcomes of its `send` from the drained channel. -/
theorem requesterStarts : Obligations.RequesterStarts := by
  intro s f req hsR hsS h hidle hwf
  rcases start_cases f req hsR hsS s h.vfset with ⟨hwait, _⟩ | ⟨_, ⟨hfault, he⟩ | ⟨hok, ⟨e, hc, he⟩ | ⟨x, hc, hx⟩⟩⟩
  · simp [hwait] at hidle
  · exact ⟨_, step_start h he, took_retire f s _, fun _ => ⟨rfl, sameMem_of_eq rfl, rfl⟩, by simp [hfault],
      by simp [hfault], by simp [hfault]⟩
  · have hm := not_wellFormed_of_compose_error hc
    obtain ⟨i, rfl⟩ := compose_error hc
    exact ⟨_, step_start h he, took_retire f s _, by simp [hok], fun _ _ => ⟨⟨i, rfl⟩, sameMem_of_eq rfl, rfl⟩,
      fun _ hn => absurd hn hm, fun _ hn => absurd hn hm⟩
  obtain ⟨hm, hencode⟩ := compose_ok_iff_wellFormed.mp hc
  simp only [startMessage, requestHeader] at hencode
  dsimp only
  rw [← hencode]
  rcases hx with ⟨hstale, hhs, he⟩ | ⟨hdrain, hsend⟩
  · exact ⟨_, step_start h he, took_retire f s _, by simp [hok], fun _ hn => absurd hm hn,
      fun _ _ _ _ => ⟨rfl, sameMem_of_eq rfl, rfl⟩, fun _ _ hnot => by simp [hnot hstale] at hhs⟩
  have hclean : (s.chan f).ack = true ∧ (s.chan f).outstanding = false → ¬hsR = true := fun hst => by simp [hdrain hst]
  rcases hsend with ⟨hbusy, he⟩ | ⟨ho, hp, ha, rfl, he⟩ | ⟨ho, hp, ha, rfl, he⟩
  · refine ⟨_, step_start h he, took_updChan f s _ _, by simp [hok], fun _ hn => absurd hm hn,
      fun _ _ hst hhs => absurd hhs (hclean hst), fun _ _ _ => ⟨afterDrain s f (s.chan f),
        fun hst => afterDrain_of_stale hst, fun hst => afterDrain_of_not_stale hst, ?_⟩⟩
    rw [if_pos hbusy]
    exact ⟨rfl, sameMem_of_eq rfl, retire_updChan_chan h.vfset _ _ _⟩
  all_goals
    obtain ⟨hslot, hframe⟩ := slot_sent (t := { s with mem := writeSlot s.mem f x }) rfl hwf (compose_length hc)
    refine ⟨_, step_start h he, took_withMem_updChan f s _ _ _, by simp [hok], fun _ hn => absurd hm hn,
      fun _ _ hst hhs => absurd hhs (hclean hst), fun _ _ _ => ⟨afterDrain s f (s.chan f),
        fun hst => afterDrain_of_stale hst, fun hst => afterDrain_of_not_stale hst, ?_⟩⟩
    rw [if_neg (by simp [ho, hp, ha])]
    exact ⟨hslot, hframe, rfl, retire_withMem_updChan_chan h.vfset _ _ _ _⟩

/-! ## Polling (V2, V3) -/

/-- Settles O47: the enabled cases of a poll, by its `receive` and the correlation of the frame. -/
theorem requesterPolls : Obligations.RequesterPolls := by
  intro s f hs h hwait hpolls hlen
  have hresp : isResponse (s.chan f).sent (readSlot s.mem f) = .ok (correlates (s.chan f).sent (readSlot s.mem f)) :=
    isResponse_eq hlen (frameOf_length _)
  rcases poll_cases f hs s with ⟨hoff, _⟩ | ⟨_, ⟨ha, he⟩ | ⟨ha, rfl, he⟩ | ⟨ha, rfl, hc, he⟩ | ⟨ha, rfl, hc, he⟩⟩
  · exact absurd ⟨hwait, hpolls⟩ hoff
  all_goals refine ⟨_, step_poll h he, took_updChan f s _ _, sameMem_of_eq rfl, ?_⟩
  · rw [if_pos ha]
    exact ⟨rfl, retire_updChan_chan h.vfset _ _ _⟩
  · rw [if_neg (by simp [ha]), if_pos rfl]
    exact ⟨rfl, retire_updChan_chan h.vfset _ _ _⟩
  · rw [if_neg (by simp [ha]), if_neg (by simp), if_pos (by rw [hresp, hc])]
    exact ⟨rfl, retire_updChan_chan h.vfset _ _ _⟩
  · rw [if_neg (by simp [ha]), if_neg (by simp), if_neg (by simp [hresp, hc])]
    exact ⟨rfl, retire_updChan_chan h.vfset _ _ _⟩

/-! ## Retrying (V5) -/

/-- Settles O48: the request composes, so V5 ends with its `send`, which finds the slot free unless the `clear_ack` failed. -/
theorem requesterRetries : Obligations.RequesterRetries := by
  intro s f hsC hsS hi h hwait hover hleft
  have hc := compose_retry hi h.vfset hwait
  simp only [requestHeader] at hc
  dsimp only
  generalize encode s.cfg.ops _ = x at hc ⊢
  rcases retry_cases f hsC hsS s h.vfset hc with
    ⟨hoff, _⟩ | ⟨_, ⟨rfl, hflag, he⟩ | ⟨hfree, rfl, he⟩ | ⟨hfree, rfl, he⟩⟩
  · exact absurd ⟨waitOver_iff.mpr ⟨hwait, hover⟩, hleft⟩ hoff
  · refine ⟨_, step_retry h he, took_updChan f s _ _, rfl, ?_⟩
    rw [if_pos ⟨rfl, hflag⟩]
    exact ⟨sameMem_of_eq rfl, retire_updChan_chan h.vfset _ _ _⟩
  all_goals
    obtain ⟨hslot, hframe⟩ := slot_sent (t := { s with mem := writeSlot s.mem f x }) rfl hi.mem (compose_length hc)
    refine ⟨_, step_retry h he, took_withMem_updChan f s _ _ _, rfl, ?_⟩
    rw [if_neg hfree]
    refine ⟨hslot, hframe, (retire_withMem_updChan_chan h.vfset _ _ _ _).trans ?_⟩
    simp only [afterExpire_of_free hfree]

/-! ## Giving up (V6) -/

/-- Settles O49: the enabled cases of V6, by its `clear_ack` and `VF_HF`. -/
theorem requesterGivesUp : Obligations.RequesterGivesUp := by
  intro s f hsC h hwait hover hretry
  rcases giveUp_cases f hsC s h.vfset with ⟨hoff, _⟩ | ⟨_, ⟨rfl, he⟩ | ⟨rfl, hhf, he⟩ | ⟨rfl, hhf, he⟩⟩
  · exact absurd ⟨waitOver_iff.mpr ⟨hwait, hover⟩, hretry⟩ hoff
  all_goals refine ⟨_, step_giveUp h he, took_updChan f s _ _, sameMem_of_eq rfl, ?_⟩
  · exact ⟨rfl, retire_updChan_chan h.vfset _ _ _⟩
  · rw [if_neg (by simp), if_pos hhf]
    exact ⟨rfl, retire_updChan_chan h.vfset _ _ _⟩
  · rw [if_neg (by simp), if_neg (by simp [hhf])]
    exact ⟨rfl, retire_updChan_chan h.vfset _ _ _⟩

end Sys2Proof.Machine
end

section
/-! Proofs of the reset statements (spec/70_reset_and_hazards.md R320, R321). Power-on reset replaces every channel by `Chan.reset`,
so the reset table is checked once, on that channel. -/

namespace Sys2Proof.Machine

open Sys2Proof

/-! ## The reset channel and the reset state -/

/-- The reset channel holds every value of the table of R46. -/
theorem resetRow_chanReset : ResetRow Chan.reset := by constructor <;> rfl

theorem reset_chan {f : FuncId} (hf : State.reset.hasChan f = true) : State.reset.chan f = Chan.reset := by
  have hmem : (f, State.reset.chan f) ∈ [(1, Chan.reset)] := chan_mem hf
  exact (Prod.mk.inj (List.mem_singleton.mp hmem)).2

/-! ## Power-on reset -/

section
variable {s : State} {f : FuncId}

@[simp] theorem powerOn_cfg (s : State) : (powerOn s).cfg = s.cfg := rfl

@[simp] theorem powerOn_hasChan (s : State) (f : FuncId) : (powerOn s).hasChan f = s.hasChan f :=
  updAll_hasChan s f fun _ _ => Chan.reset

theorem powerOn_chan (hf : s.hasChan f = true) : (powerOn s).chan f = Chan.reset :=
  updAll_chan s f (fun _ _ => Chan.reset) hf

theorem step_powerOn (h : s.sched.head? = some .powerOn) : step s = .next ((powerOn s).retire .ok none) := by
  rw [step_own h (by simp) (by simp) (by simp), agentStep, finish_eq]

end

/-- Settles O57: the channels of both states are `Chan.reset`, and power-on reset updates channels without adding or removing one. -/
theorem resetTableHolds : Obligations.ResetTableHolds := by
  refine ⟨fun f hf => ?reset, fun s h => ⟨_, step_powerOn h, powerOn_cfg s, powerOn_hasChan s, fun f hf => ?powerOn⟩⟩
  case reset =>
    rw [reset_chan hf]
    exact resetRow_chanReset
  case powerOn =>
    rw [retire_chan, powerOn_chan hf]
    exact resetRow_chanReset

end Sys2Proof.Machine
end

section
/-! Proofs of the round trip of the codec (spec/30_encoding.md R98 to R100). Each parser reads back the words its encoder writes of a
legal body; and a parser determines the bits of every field it reads, so that the frame that was parsed and the frame composed again
agree on them. -/

namespace Sys2Proof

open Sys2Proof.Machine (frameOf_length word_frameOf frameOf_word)

/-! ## `compose` on a message (R98) -/

/-- Settles O4: the tests of `compose` are the legal sets, format by format. -/
theorem composeSucceedsExactlyOnLegal : Obligations.ComposeSucceedsExactlyOnLegal := by
  refine fun ops m => ⟨compose_of_wellFormed ops, fun hm => ?_⟩
  cases hc : compose ops m with
  | ok x => exact absurd (compose_ok_iff_wellFormed.mp hc).1 hm
  | error e =>
    obtain ⟨i, rfl⟩ := compose_error hc
    exact ⟨i, rfl⟩

/-! ## A parser reads back what the encoder wrote -/

/-- Words 2 to 31 of the frame, which hold the body of every format, are these. -/
def HasBody (x : Frame) (words : Nat → Word) : Prop := ∀ k, 2 ≤ k → k < 32 → word x k = words k

/-- Parser `p` reads a legal body back from its words. -/
def ReadsBack {β : Type} (p : Frame → Except Err β) (legal : β → Bool) (words : β → Nat → Word) : Prop :=
  ∀ ⦃b : β⦄ ⦃x : Frame⦄, legal b = true → HasBody x (words b) → p x = .ok b

theorem parseQRangeReq_readsBack : ReadsBack parseQRangeReq QRange.legalReq QRange.words := by
  intro b x hb hx
  simp only [QRange.legalReq, Bool.and_eq_true, legalBaseOrNone_iff, fits_iff] at hb
  obtain ⟨hbase, hmax⟩ := hb
  have h2 : s32 (word x 2) = b.qbase := by
    rw [hx 2 (by omega) (by omega)]; exact s32_u32 (by omega) (by omega)
  have h3 : (field (word x 3) 15 0 : Int) = b.qmax := by
    rw [hx 3 (by omega) (by omega)]
    simp only [QRange.words, field_packed, put]
    omega
  simp only [parseQRangeReq, h2, h3, if_pos (legalBaseOrNone_iff.mpr hbase)]

theorem parseQRangeRsp_readsBack : ReadsBack parseQRangeRsp QRange.legalRsp QRange.words := by
  intro b x hb hx
  simp only [QRange.legalRsp, Bool.and_eq_true, legalBase_iff, fits_iff] at hb
  obtain ⟨hbase, hmax⟩ := hb
  have h2 : s32 (word x 2) = b.qbase := by
    rw [hx 2 (by omega) (by omega)]; exact s32_u32 (by omega) (by omega)
  have h3 : (field (word x 3) 15 0 : Int) = b.qmax := by
    rw [hx 3 (by omega) (by omega)]
    simp only [QRange.words, field_packed, put]
    omega
  simp only [parseQRangeRsp, h2, h3, if_pos (legalBase_iff.mpr hbase)]

theorem parseQSel_readsBack : ReadsBack parseQSel QSel.legal QSel.words := by
  intro b x hb hx
  simp only [QSel.legal, Bool.and_eq_true, fits_iff] at hb
  have h2 : (field (word x 2) 15 0 : Int) = b.qid ∧ (field (word x 2) 16 16 : Int) = b.c2h ∧
      (field (word x 2) 17 17 : Int) = b.st := by
    rw [hx 2 (by omega) (by omega)]
    simp only [QSel.words, field_packed, put]
    omega
  simp only [parseQSel, h2]

theorem parseQSelT_readsBack : ReadsBack parseQSelT QSelT.legal QSelT.words := by
  intro b x hb hx
  simp only [QSelT.legal, Bool.and_eq_true, Bool.not_eq_true', fits_iff] at hb
  obtain ⟨hb, hpair⟩ := hb
  have h2 : (field (word x 2) 15 0 : Int) = b.qid ∧ (field (word x 2) 16 16 : Int) = b.c2h ∧
      (field (word x 2) 17 17 : Int) = b.st ∧ (field (word x 2) 19 18 : Int) = b.cmptCtxtType := by
    rw [hx 2 (by omega) (by omega)]
    simp only [QSelT.words, field_packed, put]
    omega
  simp only [parseQSelT, h2, hpair, Bool.false_eq_true, if_false]

theorem parseFmap_readsBack : ReadsBack parseFmap Fmap.legal Fmap.words := by
  intro b x hb hx
  simp only [Fmap.legal, Bool.and_eq_true, legalBase_iff, fits_iff] at hb
  obtain ⟨⟨hfunc, hbase⟩, hmax⟩ := hb
  have h2 : (field (word x 2) 7 0 : Int) = b.funcId := by
    rw [hx 2 (by omega) (by omega)]
    simp only [Fmap.words, field_packed, put]
    omega
  have h3 : s32 (word x 3) = b.qbase := by
    rw [hx 3 (by omega) (by omega)]; exact s32_u32 (by omega) (by omega)
  have h4 : (field (word x 4) 15 0 : Int) = b.qmax := by
    rw [hx 4 (by omega) (by omega)]
    simp only [Fmap.words, field_packed, put]
    omega
  simp only [parseFmap, h2, h3, h4, if_pos (legalBase_iff.mpr hbase)]

/-! ## The descriptor -/

/-- A field above the one that is read does not change it. -/
theorem field_add_put_above {n hi lo hi' lo' : Nat} {v : Int} (h : hi' < lo) (hlo : lo' ≤ hi') (hhi : hi' < 32) :
    field (packed (n + put hi lo v)) hi' lo' = field (packed n) hi' lo' := by
  have hdvd : ∃ c, put hi lo v = 2 ^ (hi' + 1) * c :=
    ⟨_, by rw [put, ← Nat.add_sub_of_le (Nat.succ_le_of_lt h), Nat.pow_add, Nat.mul_assoc]⟩
  obtain ⟨c, hc⟩ := hdvd
  have hmod (N : Nat) : N % 2 ^ 32 / 2 ^ lo' % 2 ^ (hi' + 1 - lo') = N % 2 ^ (hi' + 1) / 2 ^ lo' := by
    have e : (2 : Nat) ^ (hi' + 1) = 2 ^ lo' * 2 ^ (hi' + 1 - lo') := by rw [← Nat.pow_add]; congr 1; omega
    rw [← Nat.mod_mul_right_div_self, ← e, Nat.mod_mod_of_dvd _ (Nat.pow_dvd_pow 2 (by omega))]
  rw [field_packed, field_packed, hmod, hmod, hc, Nat.add_mul_mod_self_left]

/-- The field above a sum of fields reads back. -/
theorem field_add_put {n hi lo : Nat} {v : Int} (hn : n < 2 ^ lo) (hlo : lo ≤ hi) (hhi : hi < 32)
    (hv : fits (hi + 1 - lo) v = true) : (field (packed (n + put hi lo v)) hi lo : Int) = v := by
  obtain ⟨h0, h1⟩ := fits_iff.mp hv
  have hlt : v.toNat < 2 ^ (hi + 1 - lo) := by
    rw [Int.toNat_lt h0]; exact_mod_cast h1
  have hsum := field_packed_mid (c := 0) hlo hhi hn hlt
  rw [put, Nat.mod_eq_of_lt hlt, Nat.mul_comm, ← Nat.add_zero (n + _), ← Nat.zero_mul (2 ^ (hi + 1)), hsum]
  exact Int.toNat_of_nonneg h0

/-- A sum of fields stays below the fields above it. -/
theorem add_put_lt {n hi lo k : Nat} {v : Int} (hn : n < 2 ^ lo) (hlo : lo ≤ hi) (hk : hi < k) :
    n + put hi lo v < 2 ^ k := by
  have hput : put hi lo v ≤ 2 ^ lo * (2 ^ (hi + 1 - lo) - 1) :=
    Nat.mul_le_mul_left _ (Nat.le_sub_one_of_lt (Nat.mod_lt _ (Nat.two_pow_pos _)))
  calc n + put hi lo v < 2 ^ lo + 2 ^ lo * (2 ^ (hi + 1 - lo) - 1) := by omega
    _ = 2 ^ lo * 2 ^ (hi + 1 - lo) := by
      rw [Nat.mul_sub_one, Nat.add_sub_cancel' (Nat.le_mul_of_pos_right _ (Nat.two_pow_pos _))]
    _ = 2 ^ (hi + 1) := by rw [← Nat.pow_add]; congr 1; omega
    _ ≤ 2 ^ k := Nat.pow_le_pow_right (by omega) hk

theorem field_put {hi lo : Nat} {v : Int} (hlo : lo ≤ hi) (hhi : hi < 32) (hv : fits (hi + 1 - lo) v = true) :
    (field (packed (put hi lo v)) hi lo : Int) = v := by
  simpa using field_add_put (n := 0) (Nat.two_pow_pos lo) hlo hhi hv

theorem put_lt {hi lo k : Nat} {v : Int} (hlo : lo ≤ hi) (hk : hi < k) : put hi lo v < 2 ^ k := by
  simpa using add_put_lt (n := 0) (v := v) (Nat.two_pow_pos lo) hlo hk

/-- Every row of a legal descriptor fits its width. -/
theorem QDesc.fits_of_legal {t : Int} {d : QDesc} (hd : d.legal t = true) {w : Nat} {v : Int}
    (hr : (w, v) ∈ d.rows.map fun r => r.2.2) : fits w v = true := by
  obtain ⟨r, hr, hwv⟩ := List.mem_map.mp hr
  have h := List.all_eq_true.mp hd r hr
  simp only [Bool.and_eq_true, hwv] at h
  exact h.1

/-- The fields of the flag word (R152). -/
theorem QDesc.flagWord_fields {t : Int} {d : QDesc} (hd : d.legal t = true) :
    (field d.flagWord 0 0 : Int) = d.forcedEn ∧ (field d.flagWord 1 1 : Int) = d.enBypass ∧
    (field d.flagWord 2 2 : Int) = d.irqArm ∧ (field d.flagWord 3 3 : Int) = d.wbiIntvlEn ∧
    (field d.flagWord 4 4 : Int) = d.wbiChk ∧ (field d.flagWord 5 5 : Int) = d.at_ ∧
    (field d.flagWord 6 6 : Int) = d.wbkEn ∧ (field d.flagWord 7 7 : Int) = d.irqEn ∧
    (field d.flagWord 8 8 : Int) = d.pfchEn ∧ (field d.flagWord 9 9 : Int) = d.enBypassPrefetch ∧
    (field d.flagWord 10 10 : Int) = d.disOverflowCheck ∧ (field d.flagWord 11 11 : Int) = d.cmptIntEn ∧
    (field d.flagWord 12 12 : Int) = d.cmptAt ∧ (field d.flagWord 13 13 : Int) = d.cmptColor ∧
    (field d.flagWord 14 14 : Int) = d.cmptFullUpd ∧ (field d.flagWord 15 15 : Int) = d.cmptStatEn ∧
    (field d.flagWord 17 16 : Int) = d.descSz ∧ (field d.flagWord 19 18 : Int) = d.cmptDescSz ∧
    (field d.flagWord 22 20 : Int) = d.triggerMode := by
  have hfit {w : Nat} {v : Int} (hr : (w, v) ∈ d.rows.map fun r => r.2.2) : fits w v = true := fits_of_legal hd hr
  refine ⟨?_, ?_, ?_, ?_, ?_, ?_, ?_, ?_, ?_, ?_, ?_, ?_, ?_, ?_, ?_, ?_, ?_, ?_, ?_⟩
  all_goals simp (disch := decide) only [flagWord, field_add_put_above]
  case refine_1 => exact field_put (by decide) (by decide) (hfit (by simp [rows]))
  all_goals
    refine field_add_put ?_ (by decide) (by decide) (hfit (by simp [rows]))
    repeat refine add_put_lt ?_ (by decide) (by decide)
    exact put_lt (by decide) (by decide)

/-- The fields of words 8 to 10 (R152). -/
theorem QDesc.packedWords_fields {t : Int} {d : QDesc} (hd : d.legal t = true) :
    (field (d.words 8) 7 0 : Int) = d.funcId ∧ (field (d.words 8) 23 16 : Int) = d.cntThres ∧
    (field (d.words 8) 31 24 : Int) = d.timerThres ∧ (field (d.words 9) 10 0 : Int) = d.intrId ∧
    (field (d.words 9) 11 11 : Int) = d.intrAggr ∧ (field (d.words 9) 31 16 : Int) = d.ringSz ∧
    (field (d.words 10) 15 0 : Int) = d.bufSz ∧ (field (d.words 10) 31 16 : Int) = d.cmptRingSz := by
  have hfit {w : Nat} {v : Int} (hr : (w, v) ∈ d.rows.map fun r => r.2.2) : fits w v = true := fits_of_legal hd hr
  refine ⟨?_, ?_, ?_, ?_, ?_, ?_, ?_, ?_⟩
  all_goals simp (disch := decide) only [words, field_add_put_above]
  case refine_1 | refine_4 | refine_7 => exact field_put (by decide) (by decide) (hfit (by simp [rows]))
  all_goals
    refine field_add_put ?_ (by decide) (by decide) (hfit (by simp [rows]))
    repeat refine add_put_lt ?_ (by decide) (by decide)
    exact put_lt (by decide) (by decide)

/-- A 64-bit field reads back from its two words (R66). -/
theorem pair64_u32 {v : Int} (hv : fits 64 v = true) : (pair64 (u32 v) (u32 (v / 2 ^ 32)) : Int) = v := by
  rw [fits_iff] at hv
  simp only [pair64, u32, BitVec.toNat_ofInt]
  omega

/-- The 64-bit addresses (R66, R152). -/
theorem QDesc.addressWords_fields {t : Int} {d : QDesc} (hd : d.legal t = true) :
    (pair64 (d.words 3) (d.words 4) : Int) = d.ringBsAddr ∧ (pair64 (d.words 5) (d.words 6) : Int) = d.cmptRingBsAddr :=
  ⟨pair64_u32 (fits_of_legal hd (by simp [rows])), pair64_u32 (fits_of_legal hd (by simp [rows]))⟩

/-- A field of an excluded group is read as 0, which is what a legal descriptor has there (R153, R155). -/
theorem parseDesc_of_words {t : Int} {d : QDesc} (hd : d.legal t = true) {x : Frame}
    (hx : ∀ k, 3 ≤ k → k ≤ 10 → word x k = d.words k) : parseDesc t x = d := by
  have ht := QDesc.tests_iff.mpr hd
  have h3 := hx 3 (by omega) (by omega)
  have h4 := hx 4 (by omega) (by omega)
  have h5 := hx 5 (by omega) (by omega)
  have h6 := hx 6 (by omega) (by omega)
  have h7 : word x 7 = d.flagWord := hx 7 (by omega) (by omega)
  have h8 := hx 8 (by omega) (by omega)
  have h9 := hx 9 (by omega) (by omega)
  have h10 := hx 10 (by omega) (by omega)
  have hk : DescGroup.common.includedBy t = true := rfl
  rcases DescGroup.includedBy_cases t with ⟨hq, hc⟩ | ⟨hq, hc⟩ | ⟨hq, hc⟩
  · simp only [parseDesc, descValue, hq, hc, hk, if_true, h3, h4, h5, h6, h7, h8, h9, h10, QDesc.addressWords_fields hd,
      QDesc.flagWord_fields hd, QDesc.packedWords_fields hd]
  · have hz := (QDesc.clears_of_tests ht hq).queue
    simp only [parseDesc, descValue, hq, hc, hk, if_true, Bool.false_eq_true, if_false, h5, h6, h7, h8, h9, h10,
      QDesc.addressWords_fields hd, QDesc.flagWord_fields hd, QDesc.packedWords_fields hd]
    cases d
    simp_all only
  · have hz := (QDesc.clears_of_tests ht hc).completion
    simp only [parseDesc, descValue, hq, hc, hk, if_true, Bool.false_eq_true, if_false, h3, h4, h7, h8, h9, h10,
      QDesc.addressWords_fields hd, QDesc.flagWord_fields hd, QDesc.packedWords_fields hd]
    cases d
    simp_all only

theorem parseQCtxt_readsBack : ReadsBack parseQCtxt QCtxt.legal QCtxt.words := by
  intro b x hb hx
  simp only [QCtxt.legal, Bool.and_eq_true] at hb
  obtain ⟨hsel, hdesc⟩ := hb
  have hselector : word x 2 = b.sel.words 2 := hx 2 (by omega) (by omega)
  have hbody : HasBody (frameOf b.sel.words) b.sel.words := fun k _ hk => word_frameOf _ _ hk
  have hsame : parseQSelT x = parseQSelT (frameOf b.sel.words) := by
    simp only [parseQSelT, hselector, word_frameOf b.sel.words 2 (by omega)]
  have hd : parseDesc b.sel.cmptCtxtType x = b.desc :=
    parseDesc_of_words hdesc fun k h3 h10 => by
      rw [hx k (by omega) (by omega), QCtxt.words, if_neg (by omega)]
  rw [parseQCtxt_eq_map, hsame, parseQSelT_readsBack hsel hbody]
  simp only [Except.map, hd]

/-! ## The interrupt-context and the whole-word formats -/

/-- A list is the one its entries make. -/
theorem map_range_eq {α : Type} {l : List α} {n : Nat} (hl : l.length = n) (d : α) {g : Nat → α}
    (h : ∀ i, i < n → g i = l.getD i d) : (List.range n).map g = l := by
  subst hl
  refine List.ext_getElem (by simp) fun i h1 h2 => ?_
  simp only [List.getElem_map, List.getElem_range, h i h2, List.getD_eq_getElem _ _ h2]

theorem getD_fits {w : Nat} {l : List Int} (h : l.all (fits w) = true) {i : Nat} (hi : i < l.length) :
    fits w (l.getD i 0) = true := by
  rw [List.getD_eq_getElem _ _ hi]
  exact List.all_eq_true.mp h _ (List.getElem_mem hi)

/-- What `legal` says of the lists of a message (R170 to R172). -/
theorem IRings.legal_iff {b : IRings} : b.legal = true ↔ ∃ n : Nat, b.numRings = n ∧ 1 ≤ n ∧ n ≤ 8 ∧
    b.ringIndex.length = n ∧ b.ringIndex.all (fits 11) = true := by
  simp only [legal, Bool.and_eq_true, decide_eq_true_eq]
  constructor
  · rintro ⟨⟨⟨h1, h8⟩, hl⟩, hall⟩
    exact ⟨b.ringIndex.length, hl.symm, by omega, by omega, rfl, hall⟩
  · rintro ⟨n, hn, h1, h8, hl, hall⟩
    exact ⟨⟨⟨by omega, by omega⟩, by omega⟩, hall⟩

/-- The count and the index list read back from the words that hold them (R171, R173). -/
theorem rings_of_words {b : IRings} {n : Nat} (hn : b.numRings = n) (h1 : 1 ≤ n) (h8 : n ≤ 8)
    (hl : b.ringIndex.length = n) (hall : b.ringIndex.all (fits 11) = true) {x : Frame}
    (hx : ∀ k, 2 ≤ k → k ≤ 10 → word x k = b.words k) :
    parseNumRings x = .ok n ∧ parseIndices n x = b.ringIndex := by
  have hcount : field (word x 2) 3 0 = n := by
    rw [hx 2 (by omega) (by omega), IRings.words, if_pos rfl, field_packed, put, hn]
    omega
  refine ⟨by simp only [parseNumRings, hcount, if_pos (And.intro h1 h8)], ?_⟩
  refine map_range_eq hl 0 fun i hi => ?_
  rw [hx (3 + i) (by omega) (by omega), IRings.words, if_neg (by omega), if_pos (by omega), Nat.add_sub_cancel_left]
  exact field_put (by decide) (by decide) (getD_fits hall (hl ▸ hi))

theorem parseIRings_readsBack : ReadsBack parseIRings IRings.legal IRings.words := by
  intro b x hb hx
  obtain ⟨n, hn, h1, h8, hl, hall⟩ := IRings.legal_iff.mp hb
  obtain ⟨hcount, hidx⟩ := rings_of_words hn h1 h8 hl hall fun k h2 h10 => hx k (by omega) (by omega)
  rw [parseIRings_eq_map, hcount]
  simp only [Except.map, hidx, ← hn]

theorem parseICtxt_readsBack : ReadsBack parseICtxt ICtxt.legal ICtxt.words := by
  intro b x hb hx
  simp only [ICtxt.legal, Bool.and_eq_true, decide_eq_true_eq] at hb
  obtain ⟨⟨hrings, hcl⟩, hcall⟩ := hb
  obtain ⟨n, hn, h1, h8, hl, hall⟩ := IRings.legal_iff.mp hrings
  dsimp only at hn
  obtain ⟨hcount, hidx⟩ := rings_of_words hn h1 h8 hl hall (x := x) fun k h2 h10 => by
    rw [hx k (by omega) (by omega), ICtxt.words, if_neg (by omega)]
  have hlen : b.ctxt.length = n := by omega
  have hctxt : parseContexts n x = b.ctxt := by
    refine map_range_eq hlen (0, 0) fun i hi => ?_
    have hfit := List.all_eq_true.mp hcall (b.ctxt.getD i (0, 0)) (by
      rw [List.getD_eq_getElem _ _ (hlen ▸ hi)]; exact List.getElem_mem _)
    simp only [Bool.and_eq_true] at hfit
    have hlow : word x (11 + 2 * i) = u32 (b.ctxt.getD i (0, 0)).1 := by
      rw [hx _ (by omega) (by omega), ICtxt.words, if_pos (by omega)]
      simp only [Nat.add_sub_cancel_left, Nat.mul_mod_right, if_true, Nat.mul_div_cancel_left i (show 0 < 2 by decide)]
    have hhigh : word x (12 + 2 * i) = u32 (b.ctxt.getD i (0, 0)).2 := by
      rw [hx _ (by omega) (by omega), ICtxt.words, if_pos (by omega)]
      simp only [show 12 + 2 * i - 11 = 2 * i + 1 by omega, show (2 * i + 1) / 2 = i by omega,
        show ¬(2 * i + 1) % 2 = 0 by omega, if_false]
    rw [hlow, hhigh, uword_u32 hfit.1, uword_u32 hfit.2]
  rw [parseICtxt_eq_map, hcount]
  simp only [Except.map, hidx, hctxt, ← hn]

/-- Words 2 on, written whole, read back (R96). -/
theorem wholeWords_of_words {ws : List Int} {n : Nat} (hl : ws.length = n) (hall : ws.all (fits 32) = true)
    {x : Frame} (hx : ∀ k, 2 ≤ k → k ≤ n + 1 → word x k = u32 (ws.getD (k - 2) 0)) :
    ((List.range n).map fun k => uword (word x (2 + k))) = ws := by
  refine map_range_eq hl 0 fun i hi => ?_
  rw [hx (2 + i) (by omega) (by omega), Nat.add_sub_cancel_left]
  exact uword_u32 (getD_fits hall (hl ▸ hi))

theorem parseDevInfo_readsBack : ReadsBack parseDevInfo DevInfo.legal DevInfo.frameWords := by
  intro b x hb hx
  simp only [DevInfo.legal, Bool.and_eq_true, decide_eq_true_eq] at hb
  rw [parseDevInfo, wholeWords_of_words hb.1 hb.2 fun k h2 h5 => ?_]
  rw [hx k (by omega) (by omega), DevInfo.frameWords, if_pos (by omega)]

theorem parseCsrInfo_readsBack : ReadsBack parseCsrInfo CsrInfo.legal CsrInfo.frameWords := by
  intro b x hb hx
  simp only [CsrInfo.legal, Bool.and_eq_true, decide_eq_true_eq] at hb
  rw [parseCsrInfo, wholeWords_of_words hb.1 hb.2 fun k h2 h5 => ?_]
  rw [hx k (by omega) (by omega), CsrInfo.frameWords, if_pos (by omega)]

theorem parseNoBody_readsBack : ReadsBack parseNoBody (fun _ => true) (fun _ => noWords) := fun _ _ _ _ => rfl

/-- A response: the status decides whether there is a body (R97, R99). -/
theorem parseRsp_of_words {β : Type} {p : Frame → Except Err β} {legal : β → Bool} {words : β → Nat → Word}
    (h : ReadsBack p legal words) {r : Rsp β} {x : Frame} (hr : r.legal legal = true)
    (hx : ∀ k, 1 ≤ k → k < 32 → word x k = r.words words k) : parseRsp p x = .ok r := by
  have h1 := hx 1 le_rfl (by omega)
  cases r with
  | ok b =>
    have hp : p x = .ok b := h hr fun k h2 hk => by rw [hx k (by omega) hk, Rsp.words, if_neg (by omega)]
    have hst : s32 (word x 1) = 0 := by rw [h1]; rfl
    simp [parseRsp, hst, hp, Except.map]
  | fail st =>
    simp only [Rsp.legal, Bool.and_eq_true, decide_eq_true_eq] at hr
    have hst : s32 (word x 1) = st := by rw [h1]; exact s32_u32 hr.1 (by omega)
    simp only [parseRsp, hst, if_neg (show ¬st > 0 by omega), if_pos hr.2]

/-! ## `parse` of what `compose` wrote (R100) -/

theorem ReadsBack.encode {β γ : Type} {p : Frame → Except Err β} {legal : β → Bool} {words : β → Nat → Word}
    (h : ReadsBack p legal words) {b : β} (hb : legal b = true) (f : β → γ) {x : Frame}
    (hx : ∀ k, 1 ≤ k → k < 32 → word x k = words b k) : (p x).map f = .ok (f b) := by
  rw [h hb fun k h2 hk => hx k (by omega) hk]; rfl

theorem ReadsBack.encodeRsp {β γ : Type} {p : Frame → Except Err β} {legal : β → Bool} {words : β → Nat → Word}
    (h : ReadsBack p legal words) {r : Rsp β} (hr : r.legal legal = true) (f : Rsp β → γ) {x : Frame}
    (hx : ∀ k, 1 ≤ k → k < 32 → word x k = r.words words k) : (parseRsp p x).map f = .ok (f r) := by
  rw [parseRsp_of_words h hr hx]; rfl

/-- The body of a request with a legal body reads back. -/
theorem parseRequest_of_words {m : Instr} (hd : m.dir = .req) (hm : m.bodyLegal = true) {x : Frame}
    (hx : ∀ k, 1 ≤ k → k < 32 → word x k = m.bodyWords k) : parseRequest m.op m.header x = .ok m := by
  cases m with
  | vfOnlineReq h | vfOfflineReq h | csrReq h => rfl
  | qreqReq h b => exact parseQRangeReq_readsBack.encode hm _ hx
  | qnotifyAddReq h b | qnotifyDelReq h b => exact parseQSel_readsBack.encode hm _ hx
  | fmapReq h b => exact parseFmap_readsBack.encode hm _ hx
  | qctxtWrtReq h b => exact parseQCtxt_readsBack.encode hm _ hx
  | qctxtRdReq h b | qctxtInvReq h b | qctxtClrReq h b => exact parseQSelT_readsBack.encode hm _ hx
  | intrCtxtWrtReq h b => exact parseICtxt_readsBack.encode hm _ hx
  | intrCtxtRdReq h b | intrCtxtInvReq h b | intrCtxtClrReq h b => exact parseIRings_readsBack.encode hm _ hx
  | _ => cases hd

/-- The body of a response with a legal body reads back. -/
theorem parseResponse_of_words {m : Instr} (hd : m.dir = .rsp) (hm : m.bodyLegal = true) {x : Frame}
    (hx : ∀ k, 1 ≤ k → k < 32 → word x k = m.bodyWords k) : parseResponse m.op m.header x = .ok m := by
  cases m with
  | vfOnlineRsp h r => exact parseDevInfo_readsBack.encodeRsp hm _ hx
  | qreqRsp h r => exact parseQRangeRsp_readsBack.encodeRsp hm _ hx
  | qctxtRdRsp h r => exact parseQCtxt_readsBack.encodeRsp hm _ hx
  | csrRsp h r => exact parseCsrInfo_readsBack.encodeRsp hm _ hx
  | intrCtxtRdRsp h r => exact parseICtxt_readsBack.encodeRsp hm _ hx
  | vfOfflineRsp h r | qnotifyAddRsp h r | qnotifyDelRsp h r | fmapRsp h r | qctxtWrtRsp h r | qctxtInvRsp h r
  | qctxtClrRsp h r | intrCtxtWrtRsp h r | intrCtxtInvRsp h r | intrCtxtClrRsp h r =>
    exact parseNoBody_readsBack.encodeRsp hm _ hx
  | _ => cases hd

theorem parse_encode (ops : Config.OpMap) {m : Instr} (hm : WellFormed m) : parse ops (encode ops m) = .ok m := by
  simp only [WellFormed, wellFormed, Bool.and_eq_true] at hm
  obtain ⟨hheader, hbody⟩ := hm
  have hx (k : Nat) (h1 : 1 ≤ k) (hk : k < 32) : word (encode ops m) k = m.bodyWords k :=
    word_encode_body ops m hk (by omega)
  rw [parse_eq (encode_length ops m) (opcOf_encode ops m), headerOf_encode ops hheader, dirOf_encode]
  cases hd : m.dir with
  | req => exact parseRequest_of_words hd hbody hx
  | rsp => exact parseResponse_of_words hd hbody hx

/-- Settles O2: each parser reads back the words its encoder writes of a legal body. -/
theorem parseOfComposeIsIdentity : Obligations.ParseOfComposeIsIdentity := by
  intro ops m x hx
  obtain ⟨hm, rfl⟩ := compose_ok_iff_wellFormed.mp hx
  have hp := parse_encode ops hm
  exact ⟨hp, Machine.parseAs_of_parse hp rfl rfl⟩

end Sys2Proof
end

section
/-! Proofs of the second half of the round trip (spec/30_encoding.md R100) and of what makes `parse` fail (R103): a message that was
parsed is well formed, and it determines the bits of every field it was read from. -/

namespace Sys2Proof

open Sys2Proof.Machine (frameOf_length word_frameOf frameOf_word)

/-! ## A message that was parsed is well formed -/

/-- What parser `p` gives is legal. -/
def ReadsLegal {β : Type} (p : Frame → Except Err β) (legal : β → Bool) : Prop := ∀ ⦃x : Frame⦄ ⦃b : β⦄, p x = .ok b → legal b = true

theorem ReadsLegal.of_map {β γ : Type} {p : Frame → Except Err β} {legal : β → Bool} (h : ReadsLegal p legal) {f : β → γ}
    {x : Frame} {m : γ} (hm : (p x).map f = .ok m) : ∃ b, legal b = true ∧ m = f b := by
  obtain ⟨b, hb, rfl⟩ := exists_of_map_ok hm
  exact ⟨b, h hb, rfl⟩

theorem parseQRangeReq_legal : ReadsLegal parseQRangeReq QRange.legalReq := by
  intro x b hb
  simp only [parseQRangeReq] at hb
  split at hb
  case isTrue h => cases hb; simp only [QRange.legalReq, h, fits_field (word x 3) 15 0, Bool.and_self]
  case isFalse h => cases hb

theorem parseQRangeRsp_legal : ReadsLegal parseQRangeRsp QRange.legalRsp := by
  intro x b hb
  simp only [parseQRangeRsp] at hb
  split at hb
  case isTrue h => cases hb; simp only [QRange.legalRsp, h, fits_field (word x 3) 15 0, Bool.and_self]
  case isFalse h => cases hb

theorem parseQSel_legal : ReadsLegal parseQSel QSel.legal := by
  intro x b hb
  cases hb
  simp only [QSel.legal, fits_field (word x 2) 15 0, fits_field (word x 2) 16 16, fits_field (word x 2) 17 17, Bool.and_self]

theorem parseQSelT_legal : ReadsLegal parseQSelT QSelT.legal := by
  intro x b hb
  simp only [parseQSelT] at hb
  split at hb
  case isTrue h => cases hb
  case isFalse h =>
    cases hb
    simp only [QSelT.legal, fits_field (word x 2) 15 0, fits_field (word x 2) 16 16, fits_field (word x 2) 17 17,
      fits_field (word x 2) 19 18, h, Bool.and_self, Bool.not_false]

theorem parseFmap_legal : ReadsLegal parseFmap Fmap.legal := by
  intro x b hb
  simp only [parseFmap] at hb
  split at hb
  case isTrue h =>
    cases hb
    simp only [Fmap.legal, fits_field (word x 2) 7 0, h, fits_field (word x 4) 15 0, Bool.and_self]
  case isFalse h => cases hb

/-- A descriptor field that was read fits, and is 0 when its group is excluded (R153, R155). -/
theorem descValue_legal {t : Int} {g : DescGroup} {w n : Nat} (hn : fits w n = true) :
    (fits w (descValue t g n) && (g.includedBy t || decide (descValue t g n = 0))) = true := by
  cases hg : g.includedBy t with
  | true => simp [descValue, hg, hn]
  | false => simp [descValue, hg, fits]

theorem fits_pair64 (lo hi : Word) : fits 64 (pair64 lo hi : Int) = true := by
  have := lo.isLt
  have := hi.isLt
  rw [fits_iff, pair64]
  omega

/-- Every row of a descriptor that was read is a 64-bit address or a field of its width. -/
theorem forall_rows_parseDesc {t : Int} {x : Frame} {P : DescField × DescGroup × Nat × Int → Prop}
    (hpair : ∀ f lo hi g, P (f, g, 64, descValue t g (pair64 lo hi)))
    (hfield : ∀ f w hi lo g k, k = hi + 1 - lo → P (f, g, k, descValue t g (field w hi lo))) :
    ∀ r ∈ (parseDesc t x).rows, P r := by
  simp only [QDesc.rows, parseDesc, List.forall_mem_cons]
  refine ⟨hpair _ _ _ _, hpair _ _ _ _, ?_⟩
  repeat refine ⟨hfield _ _ _ _ _ _ rfl, ?_⟩
  nofun

theorem parseDesc_legal (t : Int) (x : Frame) : (parseDesc t x).legal t = true := by
  refine List.all_eq_true.mpr (forall_rows_parseDesc (fun _ lo hi _ => ?_) fun _ w hi lo _ _ hk => ?_)
  · exact descValue_legal (fits_pair64 lo hi)
  · exact descValue_legal (hk ▸ fits_field w hi lo)

theorem parseQCtxt_legal : ReadsLegal parseQCtxt QCtxt.legal := by
  intro x b hb
  rw [parseQCtxt_eq_map] at hb
  obtain ⟨sel, hsel, rfl⟩ := parseQSelT_legal.of_map hb
  simp only [QCtxt.legal, hsel, parseDesc_legal, Bool.and_self]

theorem parseNumRings_legal {x : Frame} {n : Nat} (h : parseNumRings x = .ok n) : 1 ≤ n ∧ n ≤ 8 := by
  simp only [parseNumRings] at h
  split at h
  case isTrue hn => cases h; exact hn
  case isFalse hn => cases h

/-- Every entry of a list that was read one by one has the property its reader gives. -/
theorem all_map_range {α : Type} {p : α → Bool} {g : Nat → α} (n : Nat) (h : ∀ i, p (g i) = true) :
    ((List.range n).map g).all p = true := by
  rw [List.all_eq_true]
  intro v hv
  obtain ⟨i, -, rfl⟩ := List.mem_map.mp hv
  exact h i

theorem words_fit (n : Nat) (x : Frame) : ((List.range n).map fun k => uword (word x (2 + k))).all (fits 32) = true :=
  all_map_range n fun k => fits_uword (word x (2 + k))

theorem indices_legal {n : Nat} (hn : 1 ≤ n ∧ n ≤ 8) (x : Frame) : IRings.legal ⟨n, parseIndices n x⟩ = true :=
  IRings.legal_iff.mpr ⟨n, rfl, hn.1, hn.2, by simp [parseIndices],
    all_map_range n fun i => fits_field (word x (3 + i)) 10 0⟩

theorem parseIRings_legal : ReadsLegal parseIRings IRings.legal := by
  intro x b hb
  rw [parseIRings_eq_map] at hb
  obtain ⟨n, hn, rfl⟩ := exists_of_map_ok hb
  exact indices_legal (parseNumRings_legal hn) x

theorem contexts_fit (n : Nat) (x : Frame) : (parseContexts n x).all (fun p => fits 32 p.1 && fits 32 p.2) = true :=
  all_map_range n fun i => Bool.and_eq_true _ _ |>.mpr ⟨fits_uword (word x (11 + 2 * i)), fits_uword (word x (12 + 2 * i))⟩

theorem parseICtxt_legal : ReadsLegal parseICtxt ICtxt.legal := by
  intro x b hb
  rw [parseICtxt_eq_map] at hb
  obtain ⟨n, hn, rfl⟩ := exists_of_map_ok hb
  have hlen : (parseContexts n x).length = n := by simp [parseContexts]
  simp only [ICtxt.legal, indices_legal (parseNumRings_legal hn) x, contexts_fit, hlen, decide_true, Bool.and_self]

theorem parseDevInfo_legal : ReadsLegal parseDevInfo DevInfo.legal := by
  intro x b hb
  cases hb
  simp only [DevInfo.legal, words_fit, List.length_map, List.length_range, decide_true, Bool.and_self]

theorem parseCsrInfo_legal : ReadsLegal parseCsrInfo CsrInfo.legal := by
  intro x b hb
  cases hb
  simp only [CsrInfo.legal, words_fit, List.length_map, List.length_range, decide_true, Bool.and_self]

theorem parseNoBody_legal : ReadsLegal parseNoBody fun _ => true := fun _ _ _ => rfl

theorem parseRsp_legal {β : Type} {p : Frame → Except Err β} {legal : β → Bool} (h : ReadsLegal p legal) :
    ReadsLegal (parseRsp p) (Rsp.legal legal) := by
  intro x r hr
  simp only [parseRsp] at hr
  split at hr
  · cases hr
  split at hr
  case isTrue hneg =>
    cases hr
    simp only [Rsp.legal, hneg, decide_true, Bool.and_true, decide_eq_true_eq]
    exact BitVec.le_toInt (word x 1)
  case isFalse =>
    obtain ⟨b, hb, rfl⟩ := h.of_map hr
    exact hb

theorem parseRequest_legal {op : Op} {h : Header} {x : Frame} {m : Instr} (e : parseRequest op h x = .ok m) :
    m.bodyLegal = true := by
  cases op with
  | vfOnline | vfOffline | csr => cases e; rfl
  | qreq => obtain ⟨b, hb, rfl⟩ := parseQRangeReq_legal.of_map e; exact hb
  | qnotifyAdd | qnotifyDel => obtain ⟨b, hb, rfl⟩ := parseQSel_legal.of_map e; exact hb
  | fmap => obtain ⟨b, hb, rfl⟩ := parseFmap_legal.of_map e; exact hb
  | qctxtWrt => obtain ⟨b, hb, rfl⟩ := parseQCtxt_legal.of_map e; exact hb
  | qctxtRd | qctxtInv | qctxtClr => obtain ⟨b, hb, rfl⟩ := parseQSelT_legal.of_map e; exact hb
  | intrCtxtWrt => obtain ⟨b, hb, rfl⟩ := parseICtxt_legal.of_map e; exact hb
  | intrCtxtRd | intrCtxtInv | intrCtxtClr => obtain ⟨b, hb, rfl⟩ := parseIRings_legal.of_map e; exact hb

theorem parseResponse_legal {op : Op} {h : Header} {x : Frame} {m : Instr} (e : parseResponse op h x = .ok m) :
    m.bodyLegal = true := by
  cases op with
  | vfOnline => obtain ⟨b, hb, rfl⟩ := (parseRsp_legal parseDevInfo_legal).of_map e; exact hb
  | qreq => obtain ⟨b, hb, rfl⟩ := (parseRsp_legal parseQRangeRsp_legal).of_map e; exact hb
  | qctxtRd => obtain ⟨b, hb, rfl⟩ := (parseRsp_legal parseQCtxt_legal).of_map e; exact hb
  | csr => obtain ⟨b, hb, rfl⟩ := (parseRsp_legal parseCsrInfo_legal).of_map e; exact hb
  | intrCtxtRd => obtain ⟨b, hb, rfl⟩ := (parseRsp_legal parseICtxt_legal).of_map e; exact hb
  | _ => obtain ⟨b, hb, rfl⟩ := (parseRsp_legal parseNoBody_legal).of_map e; exact hb

/-- What `parse` gives is well formed (R99, R103). -/
theorem parse_wellFormed {ops : Config.OpMap} {x : Frame} {m : Instr} (e : parse ops x = .ok m) : WellFormed m := by
  obtain ⟨hl, hop, -, hheader⟩ := parse_ok e
  rw [parse_eq hl hop] at e
  rw [WellFormed, wellFormed, hheader, headerOf_legal, Bool.true_and]
  split at e
  · exact parseRequest_legal e
  · exact parseResponse_legal e

/-! ## A message that was parsed determines its field bits -/

/-- Two words that agree on these fields agree on a mask made of them. -/
theorem and_eq_of_fields {w v : Word} {mask : Nat} (l : List (Nat × Nat))
    (hm : mask = l.foldr (fun r m => bitMask r.1 r.2 ||| m) 0) (h : ∀ r ∈ l, field w r.1 r.2 = field v r.1 r.2) :
    w &&& packed mask = v &&& packed mask := by
  have hbit (r : Nat × Nat) (hr : r ∈ l) (i : Nat) (hi : (bitMask r.1 r.2).testBit i = true) :
      w.getLsbD i = v.getLsbD i := by
    rw [testBit_bitMask, decide_eq_true_eq] at hi
    have hfield := congrArg (Nat.testBit · (i - r.2)) (h r hr)
    simp only [field, Nat.testBit_mod_two_pow, Nat.testBit_div_two_pow, BitVec.testBit_toNat,
      show i - r.2 + r.2 = i by omega, show i - r.2 < r.1 + 1 - r.2 by omega, decide_true, Bool.true_and] at hfield
    exact hfield
  have hmask (i : Nat) (hi : mask.testBit i = true) : w.getLsbD i = v.getLsbD i := by
    subst hm
    clear h
    induction l with
    | nil => simp at hi
    | cons r rest ih =>
      rw [List.foldr_cons, Nat.testBit_or, Bool.or_eq_true] at hi
      rcases hi with hi | hi
      · exact hbit r (by simp) i hi
      · exact ih (fun q hq => hbit q (by simp [hq])) hi
  apply BitVec.eq_of_getLsbD_eq
  intro i hi
  simp only [BitVec.getLsbD_and, getLsbD_packed, hi, decide_true, Bool.true_and]
  cases hb : mask.testBit i with
  | false => simp
  | true => rw [hmask i hb]

/-- What parser `p` gives determines the bits of its fields. -/
def Determines {β : Type} (p : Frame → Except Err β) (mask : β → Nat → Nat) : Prop :=
  ∀ ⦃x y : Frame⦄ ⦃b : β⦄, p x = .ok b → p y = .ok b → Agree (mask b) x y

theorem Determines.map {β γ : Type} {p : Frame → Except Err β} {mask : β → Nat → Nat} {mask' : γ → Nat → Nat}
    (h : Determines p mask) {f : β → γ} (hf : Function.Injective f) (hm : ∀ b, mask' (f b) = mask b) :
    Determines (fun x => (p x).map f) mask' := by
  intro x y c hx hy
  obtain ⟨b, hb, rfl⟩ := exists_of_map_ok hx
  obtain ⟨b', hb', he⟩ := exists_of_map_ok hy
  cases hf he
  rw [hm]
  exact h hb hb'

/-- Agreement on a mask that has bits in one word only. -/
theorem Agree.of_word {mask : Nat → Nat} {x y : Frame} (j : Nat) (hj : word y j &&& packed (mask j) = word x j &&& packed (mask j))
    (h : ∀ k, k ≠ j → mask k = 0) : Agree mask x y := by
  intro k _ _
  by_cases hk : k = j
  · rw [hk]; exact hj
  · simp [h k hk]

theorem s32_inj {w v : Word} (h : s32 w = s32 v) : w = v := BitVec.eq_of_toInt_eq h

theorem uword_inj {w v : Word} (h : uword w = uword v) : w = v := BitVec.eq_of_toNat_eq (Int.ofNat.inj h)

theorem pair64_inj {a b c d : Word} (h : pair64 a b = pair64 c d) : a = c ∧ b = d := by
  have := a.isLt
  have := c.isLt
  simp only [pair64] at h
  exact ⟨BitVec.eq_of_toNat_eq (by omega), BitVec.eq_of_toNat_eq (by omega)⟩

theorem qrange_determined {x y : Frame} (h2 : s32 (word y 2) = s32 (word x 2))
    (h3 : field (word y 3) 15 0 = field (word x 3) 15 0) : Agree qrangeMask x y
  | 2, _, _ => by rw [s32_inj h2]
  | 3, _, _ => and_eq_of_fields [(15, 0)] (by decide) (by simp [h3])
  | 0, _, _ | 1, _, _ | _ + 4, _, _ => by simp [qrangeMask]

/-- What a successful parser of `P_QREQ` says of the words it read. -/
theorem parseQRangeReq_ok {x : Frame} {b : QRange} (h : parseQRangeReq x = .ok b) :
    b = ⟨s32 (word x 2), field (word x 3) 15 0⟩ := by
  simp only [parseQRangeReq] at h
  split at h
  · exact (Except.ok.inj h).symm
  · cases h

theorem parseQRangeRsp_ok {x : Frame} {b : QRange} (h : parseQRangeRsp x = .ok b) :
    b = ⟨s32 (word x 2), field (word x 3) 15 0⟩ := by
  simp only [parseQRangeRsp] at h
  split at h
  · exact (Except.ok.inj h).symm
  · cases h

theorem parseQSelT_ok {x : Frame} {b : QSelT} (h : parseQSelT x = .ok b) :
    b = ⟨field (word x 2) 15 0, field (word x 2) 16 16, field (word x 2) 17 17, field (word x 2) 19 18⟩ := by
  simp only [parseQSelT] at h
  split at h
  · cases h
  · exact (Except.ok.inj h).symm

theorem parseFmap_ok {x : Frame} {b : Fmap} (h : parseFmap x = .ok b) :
    b = ⟨field (word x 2) 7 0, s32 (word x 3), field (word x 4) 15 0⟩ := by
  simp only [parseFmap] at h
  split at h
  · exact (Except.ok.inj h).symm
  · cases h

theorem parseQRangeReq_determines : Determines parseQRangeReq fun _ => qrangeMask := by
  intro x y b hx hy
  obtain ⟨h2, h3⟩ := QRange.mk.inj ((parseQRangeReq_ok hy).symm.trans (parseQRangeReq_ok hx))
  exact qrange_determined h2 (Int.ofNat.inj h3)

theorem parseQRangeRsp_determines : Determines parseQRangeRsp fun _ => qrangeMask := by
  intro x y b hx hy
  obtain ⟨h2, h3⟩ := QRange.mk.inj ((parseQRangeRsp_ok hy).symm.trans (parseQRangeRsp_ok hx))
  exact qrange_determined h2 (Int.ofNat.inj h3)

theorem selMask_of_ne (hi : Nat) {k : Nat} (h : k ≠ 2) : selMask hi k = 0 := if_neg h

theorem parseQSel_determines : Determines parseQSel fun _ => selMask 17 := by
  intro x y b hx hy
  obtain ⟨hq, hc, hs⟩ := QSel.mk.inj (Except.ok.inj (hy.trans hx.symm))
  refine Agree.of_word (mask := selMask 17) 2 (and_eq_of_fields [(15, 0), (16, 16), (17, 17)] (by decide) ?_) fun k => selMask_of_ne 17
  simp [Int.ofNat.inj hq, Int.ofNat.inj hc, Int.ofNat.inj hs]

theorem parseQSelT_determines : Determines parseQSelT fun _ => selMask 19 := by
  intro x y b hx hy
  obtain ⟨hq, hc, hs, ht⟩ := QSelT.mk.inj ((parseQSelT_ok hy).symm.trans (parseQSelT_ok hx))
  refine Agree.of_word (mask := selMask 19) 2
    (and_eq_of_fields [(15, 0), (16, 16), (17, 17), (19, 18)] (by decide) ?_) fun k => selMask_of_ne 19
  simp [Int.ofNat.inj hq, Int.ofNat.inj hc, Int.ofNat.inj hs, Int.ofNat.inj ht]

theorem parseFmap_determines : Determines parseFmap fun _ => fmapMask := by
  intro x y b hx hy
  obtain ⟨h2, h3, h4⟩ := Fmap.mk.inj ((parseFmap_ok hy).symm.trans (parseFmap_ok hx))
  show Agree fmapMask x y
  exact fun
    | 2, _, _ => and_eq_of_fields [(7, 0)] (by decide) (by simp [Int.ofNat.inj h2])
    | 3, _, _ => by rw [s32_inj h3]
    | 4, _, _ => and_eq_of_fields [(15, 0)] (by decide) (by simp [Int.ofNat.inj h4])
    | 0, _, _ | 1, _, _ | _ + 5, _, _ => by simp [fmapMask]

/-! ## The descriptor -/

/-- The fields of words 7 to 10 with their groups (R152). -/
def descFields : Nat → List (DescGroup × Nat × Nat)
  | 7 => [(.queue, 0, 0), (.queue, 1, 1), (.queue, 2, 2), (.queue, 3, 3), (.queue, 4, 4), (.queue, 5, 5), (.queue, 6, 6),
      (.queue, 7, 7), (.queue, 8, 8), (.queue, 9, 9), (.completion, 10, 10), (.completion, 11, 11), (.completion, 12, 12),
      (.completion, 13, 13), (.completion, 14, 14), (.completion, 15, 15), (.queue, 17, 16), (.completion, 19, 18),
      (.completion, 22, 20)]
  | 8 => [(.common, 7, 0), (.completion, 23, 16), (.completion, 31, 24)]
  | 9 => [(.common, 10, 0), (.common, 11, 11), (.queue, 31, 16)]
  | 10 => [(.queue, 15, 0), (.completion, 31, 16)]
  | _ => []

/-- The fields of word `k` that type `t` includes. -/
def includedFields (t : Int) (k : Nat) : List (Nat × Nat) :=
  ((descFields k).filter fun r => r.1.includedBy t).map Prod.snd

/-- The mask of a word of several fields is made of the fields the type includes. -/
theorem descMask_eq_fields (t : Int) {k : Nat} (hk : 7 ≤ k ∧ k ≤ 10) :
    descMask t k = (includedFields t k).foldr (fun r m => bitMask r.1 r.2 ||| m) 0 := by
  have hcommon : DescGroup.common.includedBy t = true := rfl
  have hk' : k = 7 ∨ k = 8 ∨ k = 9 ∨ k = 10 := by omega
  rcases DescGroup.includedBy_cases t with ⟨hq, hc⟩ | ⟨hq, hc⟩ | ⟨hq, hc⟩
  all_goals
    rcases hk' with rfl | rfl | rfl | rfl
    all_goals
      simp only [descMask, includedFields, descFields, List.filter_cons, hq, hc, hcommon, if_true, Bool.false_eq_true,
        if_false, List.filter_nil]
      decide

/-- Every field that `parse_desc` reads of a group the type includes is determined. -/
theorem descFields_determined {t : Int} {x y : Frame} (h : parseDesc t y = parseDesc t x) {k : Nat} (hk : 7 ≤ k ∧ k ≤ 10) :
    ∀ r ∈ includedFields t k, field (word y k) r.1 r.2 = field (word x k) r.1 r.2 := by
  have hcommon : DescGroup.common.includedBy t = true := rfl
  have hk' : k = 7 ∨ k = 8 ∨ k = 9 ∨ k = 10 := by omega
  rcases DescGroup.includedBy_cases t with ⟨hq, hc⟩ | ⟨hq, hc⟩ | ⟨hq, hc⟩
  all_goals
    simp only [parseDesc, descValue, hq, hc, hcommon, if_true, Bool.false_eq_true, if_false, QDesc.mk.injEq, Nat.cast_inj,
      true_and, and_true] at h
    rcases hk' with rfl | rfl | rfl | rfl
    all_goals simp [includedFields, descFields, hq, hc, hcommon, h]

/-- The 64-bit addresses are determined when their group is included. -/
theorem descAddresses_determined {t : Int} {x y : Frame} (h : parseDesc t y = parseDesc t x) :
    (DescGroup.queue.includedBy t = true → word y 3 = word x 3 ∧ word y 4 = word x 4) ∧
      (DescGroup.completion.includedBy t = true → word y 5 = word x 5 ∧ word y 6 = word x 6) := by
  have hring := congrArg QDesc.ringBsAddr h
  have hcmpt := congrArg QDesc.cmptRingBsAddr h
  simp only [parseDesc, descValue] at hring hcmpt
  refine ⟨fun hq => ?_, fun hc => ?_⟩
  · rw [if_pos hq, if_pos hq] at hring
    exact pair64_inj (Int.ofNat.inj hring)
  · rw [if_pos hc, if_pos hc] at hcmpt
    exact pair64_inj (Int.ofNat.inj hcmpt)

/-- Agreement on a word whose group may be excluded. -/
theorem and_eq_of_group {w v : Word} {b : Bool} {n : Nat} (h : b = true → w = v) :
    w &&& packed (if b then n else 0) = v &&& packed (if b then n else 0) := by
  cases b with
  | true => rw [h rfl]
  | false => simp

theorem parseDesc_determines {t : Int} {x y : Frame} (h : parseDesc t y = parseDesc t x) : Agree (descMask t) x y := by
  obtain ⟨hq, hc⟩ := descAddresses_determined h
  have hpacked (k : Nat) (hk : 7 ≤ k ∧ k ≤ 10) : word y k &&& packed (descMask t k) = word x k &&& packed (descMask t k) :=
    and_eq_of_fields _ (descMask_eq_fields t hk) (descFields_determined h hk)
  exact fun
    | 3, _, _ => and_eq_of_group fun hg => (hq hg).1
    | 4, _, _ => and_eq_of_group fun hg => (hq hg).2
    | 5, _, _ => and_eq_of_group fun hg => (hc hg).1
    | 6, _, _ => and_eq_of_group fun hg => (hc hg).2
    | 7, _, _ | 8, _, _ | 9, _, _ | 10, _, _ => hpacked _ (by omega)
    | 0, _, _ | 1, _, _ | 2, _, _ | _ + 11, _, _ => by simp [descMask]

theorem parseQCtxt_determines : Determines parseQCtxt fun b => qctxtMask b.sel.cmptCtxtType := by
  intro x y b hx hy
  rw [parseQCtxt_eq_map] at hx hy
  obtain ⟨sel, hsx, rfl⟩ := exists_of_map_ok hx
  obtain ⟨sel', hsy, he⟩ := exists_of_map_ok hy
  obtain ⟨rfl, hdesc⟩ := QCtxt.mk.inj he
  show Agree (qctxtMask sel'.cmptCtxtType) x y
  intro k h1 hk
  by_cases h2 : k = 2
  · subst h2
    exact parseQSelT_determines hsx hsy 2 h1 hk
  · rw [qctxtMask, if_neg h2]
    exact parseDesc_determines hdesc k h1 hk

/-! ## The interrupt-context and the whole-word formats -/

/-- `NUM_RINGS` of a frame that parses is the count. -/
theorem parseNumRings_eq {x : Frame} {n : Nat} (h : parseNumRings x = .ok n) : field (word x 2) 3 0 = n := by
  simp only [parseNumRings] at h
  split at h
  · exact Except.ok.inj h
  · cases h

theorem getD_parseIndices {n i : Nat} (hi : i < n) (x : Frame) :
    (parseIndices n x).getD i 0 = (field (word x (3 + i)) 10 0 : Int) := Machine.getD_map_range _ _ hi

theorem getD_parseContexts {n i : Nat} (hi : i < n) (x : Frame) :
    (parseContexts n x).getD i (0, 0) = (uword (word x (11 + 2 * i)), uword (word x (12 + 2 * i))) :=
  Machine.getD_map_range _ _ hi

/-- The count and the index list are determined (R171). -/
theorem rings_determined {n : Nat} {x y : Frame} (hx : parseNumRings x = .ok n) (hy : parseNumRings y = .ok n)
    (hidx : parseIndices n y = parseIndices n x) : Agree (ringMask false n) x y := by
  intro k h1 hk
  by_cases h2 : k = 2
  · subst h2
    exact and_eq_of_fields [(3, 0)] (by simp [ringMask]) (by simp [parseNumRings_eq hx, parseNumRings_eq hy])
  by_cases hi : 3 ≤ k ∧ k ≤ 10 ∧ k - 3 < n
  · have hmask : ringMask false n k = bitMask 10 0 := by
      rw [ringMask, if_neg h2, if_pos (by omega), if_pos (by omega)]
    have hentry := congrArg (List.getD · (k - 3) 0) hidx
    simp only [getD_parseIndices hi.2.2, show 3 + (k - 3) = k by omega, Nat.cast_inj] at hentry
    rw [hmask]
    exact and_eq_of_fields [(10, 0)] (by simp) (by simp [hentry])
  · have hmask : ringMask false n k = 0 := by
      simp only [ringMask, Bool.false_eq_true, false_and, if_false, ite_self, if_neg h2]
      split
      · rw [if_neg (by omega)]
      · rfl
    simp [hmask]

theorem parseIRings_determines : Determines parseIRings fun b => ringMask false b.numRings := by
  intro x y b hx hy
  rw [parseIRings_eq_map] at hx hy
  obtain ⟨n, hnx, rfl⟩ := exists_of_map_ok hx
  obtain ⟨n', hny, he⟩ := exists_of_map_ok hy
  obtain ⟨hn, hidx⟩ := IRings.mk.inj he
  obtain rfl := Int.ofNat.inj hn
  exact rings_determined hnx hny hidx

/-- The contexts are determined with the rings (R171). -/
theorem contexts_determined {n : Nat} {x y : Frame} (hrings : Agree (ringMask false n) x y)
    (hctxt : parseContexts n y = parseContexts n x) : Agree (ringMask true n) x y := by
  intro k h1 hk
  by_cases hc : 11 ≤ k ∧ k ≤ 26
  · have hmask : ringMask true n k = if (((k - 11) / 2 : Nat) : Int) < n then bitMask 31 0 else 0 := by
      rw [ringMask, if_neg (by omega), if_neg (by omega), if_pos hc]
      simp only [true_and]
    rw [hmask]
    split
    case isFalse => simp
    case isTrue hlt =>
      have hentry := congrArg (List.getD · ((k - 11) / 2) (0, 0)) hctxt
      simp only [getD_parseContexts (Int.ofNat_lt.mp hlt), Prod.mk.injEq] at hentry
      obtain ⟨hlow, hhigh⟩ := hentry
      rcases Nat.mod_two_eq_zero_or_one (k - 11) with hpar | hpar
      · rw [show 11 + 2 * ((k - 11) / 2) = k by omega] at hlow
        rw [uword_inj hlow]
      · rw [show 12 + 2 * ((k - 11) / 2) = k by omega] at hhigh
        rw [uword_inj hhigh]
  · have hmask : ringMask true n k = ringMask false n k := by simp only [ringMask, if_neg hc]
    rw [hmask]
    exact hrings k h1 hk

theorem parseICtxt_determines : Determines parseICtxt fun b => ringMask true b.numRings := by
  intro x y b hx hy
  rw [parseICtxt_eq_map] at hx hy
  obtain ⟨n, hnx, rfl⟩ := exists_of_map_ok hx
  obtain ⟨n', hny, he⟩ := exists_of_map_ok hy
  obtain ⟨hn, hidx, hctxt⟩ := ICtxt.mk.inj he
  obtain rfl := Int.ofNat.inj hn
  exact contexts_determined (rings_determined hnx hny hidx) hctxt

/-- Words 2 to `n + 1` read whole are determined (R96). -/
theorem wholeWords_determined {n : Nat} {x y : Frame}
    (h : ((List.range n).map fun k => uword (word y (2 + k))) = (List.range n).map fun k => uword (word x (2 + k))) :
    Agree (wholeMask (n + 1)) x y := by
  intro k _ _
  rw [wholeMask]
  split
  case isFalse => simp
  case isTrue hk =>
    have hentry := congrArg (List.getD · (k - 2) 0) h
    simp only [Machine.getD_map_range _ _ (show k - 2 < n by omega), show 2 + (k - 2) = k by omega] at hentry
    rw [uword_inj hentry]

theorem parseDevInfo_determines : Determines parseDevInfo fun _ => wholeMask 5 := fun _ _ _ hx hy =>
  wholeWords_determined (DevInfo.mk.inj (Except.ok.inj (hy.trans hx.symm)))

theorem parseCsrInfo_determines : Determines parseCsrInfo fun _ => wholeMask 26 := fun _ _ _ hx hy =>
  wholeWords_determined (CsrInfo.mk.inj (Except.ok.inj (hy.trans hx.symm)))

theorem Determines.nothing {β : Type} (p : Frame → Except Err β) : Determines p fun _ _ => 0 := fun _ _ _ _ _ _ _ _ => by simp

/-- What a successful parser of a response says of the status it read (R97, R99). -/
theorem parseRsp_ok {β : Type} {p : Frame → Except Err β} {x : Frame} {r : Rsp β} (h : parseRsp p x = .ok r) :
    (s32 (word x 1) < 0 ∧ r = .fail (s32 (word x 1))) ∨ (s32 (word x 1) = 0 ∧ ∃ b, p x = .ok b ∧ r = .ok b) := by
  simp only [parseRsp] at h
  split at h
  · cases h
  split at h
  · exact .inl ⟨by assumption, (Except.ok.inj h).symm⟩
  · obtain ⟨b, hb, rfl⟩ := exists_of_map_ok h
    exact .inr ⟨by omega, b, hb, rfl⟩

theorem parseRsp_determines {β : Type} {p : Frame → Except Err β} {mask : β → Nat → Nat} (h : Determines p mask) :
    Determines (parseRsp p) (rspMask mask) := by
  intro x y r hx hy k h1 hk
  rcases parseRsp_ok hx with ⟨-, rfl⟩ | ⟨hx0, b, hbx, rfl⟩
  · rcases parseRsp_ok hy with ⟨-, he⟩ | ⟨-, b, -, he⟩
    · rw [rspMask]
      split
      case isTrue hk1 => rw [hk1, s32_inj (Rsp.fail.inj he)]
      case isFalse => simp
    · cases he
  · rcases parseRsp_ok hy with ⟨-, he⟩ | ⟨hy0, b', hby, he⟩
    · cases he
    · obtain rfl := Rsp.ok.inj he
      rw [rspMask]
      split
      case isTrue hk1 => rw [hk1, s32_inj (hx0.trans hy0.symm)]
      case isFalse => exact h hbx hby k h1 hk

theorem parseRequest_determines (op : Op) (h : Header) : Determines (parseRequest op h) bodyMask := by
  cases op with
  | vfOnline | vfOffline | csr => rintro x y m hx -; cases hx; exact fun _ _ _ => by simp [bodyMask]
  | qreq => exact parseQRangeReq_determines.map (fun _ _ e => (Instr.qreqReq.inj e).2) fun _ => rfl
  | qnotifyAdd => exact parseQSel_determines.map (fun _ _ e => (Instr.qnotifyAddReq.inj e).2) fun _ => rfl
  | qnotifyDel => exact parseQSel_determines.map (fun _ _ e => (Instr.qnotifyDelReq.inj e).2) fun _ => rfl
  | fmap => exact parseFmap_determines.map (fun _ _ e => (Instr.fmapReq.inj e).2) fun _ => rfl
  | qctxtWrt => exact parseQCtxt_determines.map (fun _ _ e => (Instr.qctxtWrtReq.inj e).2) fun _ => rfl
  | qctxtRd => exact parseQSelT_determines.map (fun _ _ e => (Instr.qctxtRdReq.inj e).2) fun _ => rfl
  | qctxtInv => exact parseQSelT_determines.map (fun _ _ e => (Instr.qctxtInvReq.inj e).2) fun _ => rfl
  | qctxtClr => exact parseQSelT_determines.map (fun _ _ e => (Instr.qctxtClrReq.inj e).2) fun _ => rfl
  | intrCtxtWrt => exact parseICtxt_determines.map (fun _ _ e => (Instr.intrCtxtWrtReq.inj e).2) fun _ => rfl
  | intrCtxtRd => exact parseIRings_determines.map (fun _ _ e => (Instr.intrCtxtRdReq.inj e).2) fun _ => rfl
  | intrCtxtInv => exact parseIRings_determines.map (fun _ _ e => (Instr.intrCtxtInvReq.inj e).2) fun _ => rfl
  | intrCtxtClr => exact parseIRings_determines.map (fun _ _ e => (Instr.intrCtxtClrReq.inj e).2) fun _ => rfl

theorem parseResponse_determines (op : Op) (h : Header) : Determines (parseResponse op h) bodyMask := by
  cases op with
  | vfOnline =>
    exact (parseRsp_determines parseDevInfo_determines).map (fun _ _ e => (Instr.vfOnlineRsp.inj e).2) fun _ => rfl
  | qreq => exact (parseRsp_determines parseQRangeRsp_determines).map (fun _ _ e => (Instr.qreqRsp.inj e).2) fun _ => rfl
  | qctxtRd => exact (parseRsp_determines parseQCtxt_determines).map (fun _ _ e => (Instr.qctxtRdRsp.inj e).2) fun _ => rfl
  | csr => exact (parseRsp_determines parseCsrInfo_determines).map (fun _ _ e => (Instr.csrRsp.inj e).2) fun _ => rfl
  | intrCtxtRd =>
    exact (parseRsp_determines parseICtxt_determines).map (fun _ _ e => (Instr.intrCtxtRdRsp.inj e).2) fun _ => rfl
  | _ =>
    refine (parseRsp_determines (Determines.nothing parseNoBody)).map (fun _ _ e => ?_) fun _ => rfl
    injection e

/-- Two frames that parse to the same message agree on its field bits (R100, R101). -/
theorem parse_determines {ops : Config.OpMap} {x y : Frame} {m : Instr} (hx : parse ops x = .ok m) (hy : parse ops y = .ok m)
    {k : Nat} (hk : k < 32) : word y k &&& fieldMask m k = word x k &&& fieldMask m k := by
  obtain ⟨hlx, hopx, hdx, hhx⟩ := parse_ok hx
  obtain ⟨hly, hopy, hdy, hhy⟩ := parse_ok hy
  rw [fieldMask]
  split
  case isTrue h0 =>
    have hheader := Header.mk.inj (hhy.symm.trans hhx)
    obtain ⟨htag, hsrc, hdst⟩ := hheader
    have hword : word y 0 = word x 0 := BitVec.eq_of_toNat_eq (by
      rw [Machine.word_zero_eq_header, Machine.word_zero_eq_header, hopx, hopy, hdx, hdy, Int.ofNat.inj htag,
        Int.ofNat.inj hsrc, Int.ofNat.inj hdst])
    rw [h0, hword]
  case isFalse h0 =>
    rw [parse_eq hlx hopx, ← hhx] at hx
    rw [parse_eq hly hopy, ← hhy, hdy, ← hdx] at hy
    split at hx
    case isTrue hd => rw [if_pos hd] at hy; exact parseRequest_determines _ _ hx hy k (by omega) hk
    case isFalse hd => rw [if_neg hd] at hy; exact parseResponse_determines _ _ hx hy k (by omega) hk

/-- A word with no bit outside the mask is its part within the mask. -/
theorem and_eq_self_of_filler {w mask : Word} (h : w &&& ~~~mask = 0) : w &&& mask = w := by
  apply BitVec.eq_of_getLsbD_eq
  intro i hi
  have hbit := congrArg (BitVec.getLsbD · i) h
  simp only [BitVec.getLsbD_and, BitVec.getLsbD_not, hi, decide_true, Bool.true_and] at hbit ⊢
  cases hw : w.getLsbD i <;> simp_all

/-- Settles O3: the composed frame parses to the same message, so it agrees with the frame on the field bits; its other bits are 0. -/
theorem composeOfParseClearsFiller : Obligations.ComposeOfParseClearsFiller := by
  intro ops x m hx
  have hm := parse_wellFormed hx
  have hc := compose_of_wellFormed ops hm
  rw [hc]
  congr 1
  have hword (k : Nat) (hk : k < 32) : word (encode ops m) k = word x k &&& fieldMask m k := by
    rw [← parse_determines hx (parse_encode ops hm) hk]
    exact (and_eq_self_of_filler (compose_filler hc hk)).symm
  rw [← frameOf_word (encode_length ops m)]
  exact List.map_congr_left fun k hk => hword k (List.mem_range.mp hk)

end Sys2Proof
end

section
/-! Proofs of what makes `parse` fail (spec/30_encoding.md R99, R103), of the byte image (spec/20_memory.md R65) and of the words the
vectors write out. -/

namespace Sys2Proof

open Sys2Proof.Machine

/-! ## Reserved values (R103) -/

/-- The result is a `MalformedMessage`. -/
def Fails {α : Type} (r : Except Err α) : Prop := ∃ i, r = .error (.malformedMessage i)

theorem not_fails_ok {α : Type} (a : α) : ¬Fails (.ok a : Except Err α) := by rintro ⟨i, h⟩; cases h

theorem fails_error {α : Type} (i : Info) : Fails (.error (.malformedMessage i) : Except Err α) := ⟨i, rfl⟩

theorem fails_map {α β : Type} {r : Except Err α} {f : α → β} : Fails (r.map f) ↔ Fails r := by
  cases r with
  | error e => simp [Fails, Except.map]
  | ok a => exact iff_of_false (not_fails_ok _) (not_fails_ok _)

theorem fails_if {α : Type} {c : Prop} [Decidable c] {a : α} {i : Info} :
    Fails (if c then .ok a else .error (.malformedMessage i)) ↔ ¬c := by
  split
  case isTrue h => exact iff_of_false (not_fails_ok _) (not_not.mpr h)
  case isFalse h => exact iff_of_true (fails_error _) h

/-- A base outside `lo`..65535 (R103 (a)). -/
def ReservedBase (w : Word) (lo : Int) : Prop := s32 w < lo ∨ 65535 < s32 w

/-- A contradictory pair of type and mode (R103 (c)). -/
def HoldsReservedPair (x : Frame) : Prop :=
  (field (word x 2) 19 18 = 1 ∧ field (word x 2) 17 17 = 1) ∨ (field (word x 2) 19 18 = 2 ∧ field (word x 2) 17 17 = 0)

/-- A ring count outside 1..8 (R103 (b)). -/
def HoldsReservedRings (x : Frame) : Prop := field (word x 2) 3 0 = 0 ∨ 9 ≤ field (word x 2) 3 0

section
variable {x : Frame}

theorem fails_parseQRangeReq : Fails (parseQRangeReq x) ↔ ReservedBase (word x 2) (-1) := by
  simp only [parseQRangeReq, fails_if, legalBaseOrNone_iff, ReservedBase]
  omega

theorem fails_parseQRangeRsp : Fails (parseQRangeRsp x) ↔ ReservedBase (word x 2) 0 := by
  simp only [parseQRangeRsp, fails_if, legalBase_iff, ReservedBase]
  omega

theorem fails_parseFmap : Fails (parseFmap x) ↔ ReservedBase (word x 3) 0 := by
  simp only [parseFmap, fails_if, legalBase_iff, ReservedBase]
  omega

theorem fails_parseQSelT : Fails (parseQSelT x) ↔ HoldsReservedPair x := by
  simp only [parseQSelT, reservedPair_iff]
  split
  case isTrue h => exact iff_of_true (fails_error _) h
  case isFalse h => exact iff_of_false (not_fails_ok _) h

theorem fails_parseQCtxt : Fails (parseQCtxt x) ↔ HoldsReservedPair x := by
  rw [parseQCtxt_eq_map, fails_map, fails_parseQSelT]

theorem fails_parseNumRings : Fails (parseNumRings x) ↔ HoldsReservedRings x := by
  simp only [parseNumRings, fails_if, HoldsReservedRings]
  omega

theorem fails_parseIRings : Fails (parseIRings x) ↔ HoldsReservedRings x := by
  rw [parseIRings_eq_map, fails_map, fails_parseNumRings]

theorem fails_parseICtxt : Fails (parseICtxt x) ↔ HoldsReservedRings x := by
  rw [parseICtxt_eq_map, fails_map, fails_parseNumRings]

/-- A response fails for a positive status, or for its body where the status is 0 (R99). -/
theorem fails_parseRsp {β : Type} {p : Frame → Except Err β} :
    Fails (parseRsp p x) ↔ 0 < s32 (word x 1) ∨ (s32 (word x 1) = 0 ∧ Fails (p x)) := by
  simp only [parseRsp]
  split
  case isTrue hpos => exact iff_of_true (fails_error _) (.inl hpos)
  case isFalse hpos =>
    split
    case isTrue hneg => exact iff_of_false (not_fails_ok _) (by omega)
    case isFalse hneg =>
      rw [fails_map]
      have h0 : s32 (word x 1) = 0 := by omega
      simp [h0]

end

theorem fails_parseRequest {op : Op} {h : Header} {x : Frame} (hd : dirOf x = 0) :
    Fails (parseRequest op h x) ↔ HoldsReserved op x := by
  dsimp only [HoldsReserved]
  rw [if_pos hd]
  cases op with
  | vfOnline | vfOffline | qnotifyAdd | qnotifyDel | csr => exact iff_of_false (not_fails_ok _) id
  | qreq => exact fails_map.trans fails_parseQRangeReq
  | fmap => exact fails_map.trans fails_parseFmap
  | qctxtWrt => exact fails_map.trans fails_parseQCtxt
  | qctxtRd | qctxtInv | qctxtClr => exact fails_map.trans fails_parseQSelT
  | intrCtxtWrt => exact fails_map.trans fails_parseICtxt
  | intrCtxtRd | intrCtxtInv | intrCtxtClr => exact fails_map.trans fails_parseIRings

theorem fails_parseResponse {op : Op} {h : Header} {x : Frame} (hd : dirOf x ≠ 0) :
    Fails (parseResponse op h x) ↔ HoldsReserved op x := by
  dsimp only [HoldsReserved]
  rw [if_neg hd]
  have hrsp {β γ : Type} {p : Frame → Except Err β} {f : Rsp β → γ} {P : Prop} (hp : Fails (p x) ↔ P) :
      Fails ((parseRsp p x).map f) ↔ 0 < s32 (word x 1) ∨ (s32 (word x 1) = 0 ∧ P) := by
    rw [fails_map, fails_parseRsp, hp]
  cases op with
  | qreq => exact hrsp fails_parseQRangeRsp
  | qctxtRd => exact hrsp fails_parseQCtxt
  | intrCtxtRd => exact hrsp fails_parseICtxt
  | _ => exact hrsp (iff_of_false (not_fails_ok _) id)

/-- Settles O7: format by format, the parser of the body fails exactly on the reserved values of its fields. -/
theorem parseFailsExactlyOnReservedValues : Obligations.ParseFailsExactlyOnReservedValues := by
  intro ops x op hl hop
  rw [parse_eq hl hop]
  split
  case isTrue hd => exact fails_parseRequest hd
  case isFalse hd => exact fails_parseResponse hd

/-! ## The byte image (R65) -/

/-- The four bytes of a word, the first byte lowest. -/
def wordBytes (w : Word) : List (BitVec 8) := [byteOf w 0, byteOf w 1, byteOf w 2, byteOf w 3]

theorem byteImage_cons (w : Word) (x : Frame) : byteImage (w :: x) = wordBytes w ++ byteImage x := rfl

theorem byteImage_length (x : Frame) : (byteImage x).length = 4 * x.length := by
  induction x with
  | nil => rfl
  | cons w rest ih =>
    rw [byteImage_cons, List.length_append, ih, List.length_cons, show (wordBytes w).length = 4 from rfl]
    omega

/-- The image determines the frame. -/
theorem wordsOfBytes_byteImage (x : Frame) : wordsOfBytes (byteImage x) = x := by
  induction x with
  | nil => rfl
  | cons w rest ih =>
    rw [byteImage_cons]
    show wordOfBytes _ _ _ _ :: wordsOfBytes (byteImage rest) = w :: rest
    rw [wordOfBytes_byteOf, ih]

/-- Byte `4*i + k` of the image is byte `k` of word `i`. -/
theorem getD_byteImage {x : Frame} {i k : Nat} (hi : i < x.length) (hk : k < 4) :
    (byteImage x).getD (4 * i + k) 0 = byteOf (word x i) k := by
  induction x generalizing i with
  | nil => simp at hi
  | cons w rest ih =>
    rw [byteImage_cons]
    cases i with
    | zero =>
      rw [List.getD_append _ _ _ _ (by simp [wordBytes]; omega)]
      obtain rfl | rfl | rfl | rfl : k = 0 ∨ k = 1 ∨ k = 2 ∨ k = 3 := by omega
      all_goals rfl
    | succ i =>
      rw [List.getD_append_right _ _ _ _ (by simp [wordBytes]; omega),
        show 4 * (i + 1) + k - (wordBytes w).length = 4 * i + k by simp [wordBytes]; omega]
      exact ih (by simpa using hi)

/-- A byte is a field of eight bits. -/
theorem toNat_byteOf (w : Word) (k : Nat) : (byteOf w k).toNat = field w (8 * k + 7) (8 * k) := by
  have h : field w (8 * k + 7) (8 * k) < 256 :=
    lt_of_lt_of_eq (Nat.mod_lt _ (Nat.two_pow_pos _)) (by rw [show 8 * k + 7 + 1 - 8 * k = 8 by omega]; rfl)
  rw [byteOf, BitVec.toNat_ofNat, Nat.mod_eq_of_lt h]

/-- A byte of a slot after a frame was written to it. -/
theorem read_writeSlot {m : Memory} (f : FuncId) {x : Frame} (hm : m.wf = true) {i k : Nat} (hi : i < x.length) (hk : k < 4) :
    (writeSlot m f x).read (slotBase f + (4 * i + k)) = byteOf (word x i) k := by
  rw [writeSlot]
  generalize slotBase f = a
  induction x generalizing m a i with
  | nil => simp at hi
  | cons w rest ih =>
    rw [Memory.writeWords]
    cases i with
    | zero =>
      rw [Memory.read_writeWords_other _ _ _ (by omega)]
      obtain ⟨h0, h1, h2, h3⟩ := Memory.read_writeWord_byte a w hm
      obtain rfl | rfl | rfl | rfl : k = 0 ∨ k = 1 ∨ k = 2 ∨ k = 3 := by omega
      exacts [h0, h1, h2, h3]
    | succ i =>
      rw [show a + (4 * (i + 1) + k) = a + 4 + (4 * i + k) by omega]
      exact ih (Memory.writeWord_wf a w hm) (by simpa using hi) _

/-- Settles O9: image and slot hold the bytes of each word in the same order. -/
theorem byteImageIsLittleEndian : Obligations.ByteImageIsLittleEndian := by
  intro x hx
  refine ⟨by rw [byteImage_length, hx], wordsOfBytes_byteImage x, fun i k hi hk => ?_⟩
  rw [getD_byteImage (hx ▸ hi) hk]
  exact ⟨toNat_byteOf _ _, fun m f hm => read_writeSlot f hm (hx ▸ hi) hk⟩

/-! ## Written words -/

/-- Settles O1: each of the six frames is evaluated. -/
theorem writtenWordsDecode : Obligations.WrittenWordsDecode := by
  refine ⟨?_, ?_, ?_, ?_, ?_, ?_⟩
  all_goals decide +kernel

end Sys2Proof
end

section
/-! T3 and the second half of `handle_request` (spec/45_pf_dispatch.md R240, R249 to R255): the answer to a decoded request as one
function, what it can be, and that the meanings of the messages compute it. -/

namespace Sys2Proof.Machine

open Sys2Proof

/-! ## The answer to a decoded request -/

/-- The half of `handle_request` that follows the decoder: the response to the request `m` and the call of `PRIV`, if any (R255). -/
def answerRequest (cfg : Config.Params) (f : FuncId) (g : Grant) (m : Instr) (a : PrivAnswer) : Frame × Option PrivCall :=
  if authorised cfg.pfFuncId f g m then
    match normalise cfg.ops (successReply (replyHeader cfg.pfFuncId f m.header) m) a with
    | .ok r => (r, some ⟨f, m⟩)
    | .error st => (statusRsp cfg.pfFuncId f (m.op.code cfg.ops) m.header.tag.toNat st, some ⟨f, m⟩)
  else (statusRsp cfg.pfFuncId f (m.op.code cfg.ops) m.header.tag.toNat statusUnauthorized, none)

section
variable {cfg : Config.Params} {f : FuncId} {g : Grant} {y : Frame} {m : Instr} {a : PrivAnswer}

theorem handleRequest_of_request (hp : parse cfg.ops y = .ok m) (hm : m.dir = .req) :
    handleRequest cfg f g y a = answerRequest cfg f g m a := by
  simp only [handleRequest, hp, hm, reduceCtorEq, if_false]
  rfl

theorem handleRequest_of_rejected (hp : ∀ m, parse cfg.ops y = .ok m → m.dir = .rsp) :
    handleRequest cfg f g y a = (malformedRsp cfg.pfFuncId f y, none) := by
  cases he : parse cfg.ops y with
  | error e => simp only [handleRequest, he]
  | ok m => simp only [handleRequest, he, hp m he, if_true]

/-- A frame parses as a request or is rejected by T2. -/
theorem parses_request_or_rejected (ops : Config.OpMap) (y : Frame) :
    (∃ m, parse ops y = .ok m ∧ m.dir = .req) ∨ ∀ m, parse ops y = .ok m → m.dir = .rsp := by
  cases he : parse ops y with
  | error e => exact .inr fun m hm => by cases hm
  | ok m =>
    cases hm : m.dir with
    | req => exact .inl ⟨m, rfl, hm⟩
    | rsp => exact .inr fun m' h => by cases h; exact hm

/-- Only a request is permitted. -/
theorem Permitted.dir {pf : FuncId} (h : Permitted pf f g m) : m.dir = .req := by
  obtain ⟨-, -, hrow⟩ := h
  cases m <;> first | rfl | exact hrow.elim

theorem answerRequest_refused (h : ¬Permitted cfg.pfFuncId f g m) :
    answerRequest cfg f g m a =
      (statusRsp cfg.pfFuncId f (m.op.code cfg.ops) m.header.tag.toNat statusUnauthorized, none) := by
  rw [answerRequest, if_neg (by rwa [authorised_iff])]

theorem answerRequest_failed {st : Int} (h : Permitted cfg.pfFuncId f g m)
    (hn : normalise cfg.ops (successReply (replyHeader cfg.pfFuncId f m.header) m) a = .error st) :
    answerRequest cfg f g m a =
      (statusRsp cfg.pfFuncId f (m.op.code cfg.ops) m.header.tag.toNat st, some ⟨f, m⟩) := by
  rw [answerRequest, if_pos (authorised_iff.mpr h), hn]

theorem answerRequest_served {data : PrivData} {r : Instr} (h : Permitted cfg.pfFuncId f g m)
    (hr : successReply (replyHeader cfg.pfFuncId f m.header) m data = some r) (hw : WellFormed r) :
    answerRequest cfg f g m (.answer 0 data) = (encode cfg.ops r, some ⟨f, m⟩) := by
  rw [answerRequest, if_pos (authorised_iff.mpr h)]
  simp only [normalise, if_true, hr, compose_of_wellFormed cfg.ops hw]

/-- The answer to a decoded request: refused, failed with a status of R252, or served (R246, R252). -/
theorem answerRequest_cases (cfg : Config.Params) (f : FuncId) (g : Grant) (m : Instr) (a : PrivAnswer) :
    (¬Permitted cfg.pfFuncId f g m ∧ answerRequest cfg f g m a =
      (statusRsp cfg.pfFuncId f (m.op.code cfg.ops) m.header.tag.toNat statusUnauthorized, none)) ∨
    (Permitted cfg.pfFuncId f g m ∧
      ((∃ st, -7 ≤ st ∧ st ≤ -1 ∧ answerRequest cfg f g m a =
        (statusRsp cfg.pfFuncId f (m.op.code cfg.ops) m.header.tag.toNat st, some ⟨f, m⟩)) ∨
      (∃ data r, successReply (replyHeader cfg.pfFuncId f m.header) m data = some r ∧
        answerRequest cfg f g m a = (encode cfg.ops r, some ⟨f, m⟩)))) := by
  by_cases h : Permitted cfg.pfFuncId f g m
  · refine .inr ⟨h, ?_⟩
    rcases normalise_cases cfg.ops (successReply (replyHeader cfg.pfFuncId f m.header) m) a with
      ⟨data, r, y, rfl, hr, hc, -⟩ | ⟨st, -, -, hst, hn⟩ | hn
    · exact .inr ⟨data, r, hr, answerRequest_served h hr (compose_ok_iff_wellFormed.mp hc).1⟩
    · obtain ⟨hlo, hhi⟩ := mem_privStatuses.mp hst
      exact .inl ⟨st, by omega, hhi, answerRequest_failed h hn⟩
    · exact .inl ⟨statusFailure, by decide, by decide, answerRequest_failed h hn⟩
  · exact .inl ⟨h, answerRequest_refused h⟩

/-- `PRIV` is called exactly on a permitted request, and with it (R246, R250). -/
theorem answerRequest_priv {c : PrivCall} :
    (answerRequest cfg f g m a).2 = some c ↔ c = ⟨f, m⟩ ∧ Permitted cfg.pfFuncId f g m := by
  rcases answerRequest_cases cfg f g m a with ⟨h, he⟩ | ⟨h, ⟨st, -, -, he⟩ | ⟨data, r, -, he⟩⟩ <;>
    simp [he, h, eq_comm]

end

/-! ## The header and the status of an answer (R243) -/

/-- What the success reply is, whatever the opcode (R243, R254). -/
theorem successReply_some {h : Header} {m r : Instr} {d : PrivData} (hr : successReply h m d = some r) :
    r.op = m.op ∧ r.dir = .rsp ∧ r.header = h ∧ r.bodyWords 1 = 0 := by
  cases m <;> cases d <;> first | (cases hr; done) | (cases hr; exact ⟨rfl, rfl, rfl, rfl⟩)

/-- The header of a response to `f` that echoes the opcode `o` and the tag `t`, and a status of R292 that is not positive. -/
structure Echoes (pf f : FuncId) (o t : Nat) (y : Frame) : Prop where
  len : y.length = 32
  header : word y 0 = headerWord o 1 ⟨t, pf.toNat, f.toNat⟩
  statusLow : -7 ≤ s32 (word y 1)
  statusHigh : s32 (word y 1) ≤ 0

theorem statusRsp_echoes (pf f : FuncId) (o t : Nat) {st : Int} (hlo : -7 ≤ st) (hhi : st ≤ 0) :
    Echoes pf f o t (statusRsp pf f o t st) := by
  have h1 : s32 (word (statusRsp pf f o t st) 1) = st := by
    rw [statusRsp, word_frameOf _ _ (by decide)]
    exact s32_u32 (by omega) (by omega)
  exact ⟨statusRsp_length _ _ _ _ _, word_frameOf _ _ (by decide), by rw [h1]; exact hlo, by rw [h1]; exact hhi⟩

theorem headerWord_toNat_tag (o d : Nat) (t src dst : Int) : headerWord o d ⟨t.toNat, src, dst⟩ = headerWord o d ⟨t, src, dst⟩ := by
  simp only [headerWord, put, Int.toNat_natCast]

theorem answerRequest_echoes (cfg : Config.Params) (f : FuncId) (g : Grant) (m : Instr) (a : PrivAnswer) :
    Echoes cfg.pfFuncId f (m.op.code cfg.ops) m.header.tag.toNat (answerRequest cfg f g m a).1 := by
  rcases answerRequest_cases cfg f g m a with ⟨-, he⟩ | ⟨-, ⟨st, hlo, hhi, he⟩ | ⟨data, r, hr, he⟩⟩
  · rw [he]; exact statusRsp_echoes _ _ _ _ (by decide) (by decide)
  · rw [he]; exact statusRsp_echoes _ _ _ _ hlo (by omega)
  · obtain ⟨hop, hdir, hheader, h1⟩ := successReply_some hr
    have hstatus : s32 (word (encode cfg.ops r) 1) = 0 := by rw [word_encode_body _ _ (by decide) (by decide), h1, s32_zero]
    rw [he]
    refine ⟨encode_length _ _, ?_, by rw [hstatus]; decide, hstatus.le⟩
    rw [word_encode_zero, hop, hdir, hheader, headerWord_toNat_tag]
    rfl

theorem malformedRsp_echoes (pf f : FuncId) (y : Frame) : Echoes pf f (opcOf y) (tagOf y) (malformedRsp pf f y) :=
  statusRsp_echoes _ _ _ _ (by decide) (by decide)

/-- Every answer of `handle_request` echoes the opcode and the tag of the frame (R243, R255). -/
theorem handleRequest_echoes (cfg : Config.Params) (f : FuncId) (g : Grant) (y : Frame) (a : PrivAnswer) :
    Echoes cfg.pfFuncId f (opcOf y) (tagOf y) (handleRequest cfg f g y a).1 := by
  rcases parses_request_or_rejected cfg.ops y with ⟨m, hp, hm⟩ | hp
  · obtain ⟨-, hop, -, hheader⟩ := parse_ok hp
    have h := answerRequest_echoes cfg f g m a
    rw [hheader, headerOf, Int.toNat_natCast, ← hop] at h
    rwa [handleRequest_of_request hp hm]
  · rw [handleRequest_of_rejected hp]
    exact malformedRsp_echoes _ _ _

section
variable {pf f : FuncId} {o t : Nat} {y : Frame}

/-- The five header fields of a response (R81, R243). -/
theorem Echoes.fields (h : Echoes pf f o t y) (ho : o < 128) (ht : t < 256) :
    opcOf y = o ∧ dirOf y = 1 ∧ tagOf y = t ∧ srcOf y = pf.toNat ∧ dstOf y = f.toNat := by
  have := pf.isLt
  have := f.isLt
  obtain ⟨hopc, hdir, htag, hsrc, hdst⟩ :=
    header_fields (h := ⟨t, pf.toNat, f.toNat⟩) ho (show 1 < 2 by decide) (by simp only [Header.legal, Bool.and_eq_true, fits_iff]; omega)
  simp only [opcOf, dirOf, tagOf, srcOf, dstOf, h.header]
  exact ⟨hopc, hdir, Int.ofNat.inj htag, Int.ofNat.inj hsrc, Int.ofNat.inj hdst⟩

/-- Source, destination and direction do not depend on what is echoed (R243). -/
theorem Echoes.isReply (h : Echoes pf f o t y) : IsReply pf f y where
  len := h.len
  status := h.statusHigh
  dir := by rw [dirOf, h.header]; simp only [headerWord, field_packed, put]; omega
  src := by
    have := pf.isLt
    rw [srcOf, h.header]; simp only [headerWord, field_packed, put]; omega
  dst := by
    have := f.isLt
    rw [dstOf, h.header]; simp only [headerWord, field_packed, put]; omega

end

/-! ## T3 computes the answer -/

section
variable {s : State} {f : FuncId} {a : PrivAnswer} {g : GrantTable} {i : Instr}

/-- The state T3 leaves: the answer is in `RESP[f]`, and the grant rows change exactly when `PRIV` was called (R240). -/
def answeredState (f : FuncId) (a : PrivAnswer) (g : GrantTable) (i : Instr) (s : State) : State :=
  let r := answerRequest s.cfg f (s.chan f).grant i a
  ((if r.2.isSome then s.setGrants g else s).respondWith f r.1).retire .ok r.2

theorem answeredState_of_refused {y : Frame} (h : answerRequest s.cfg f (s.chan f).grant i a = (y, none)) :
    answeredState f a g i s = (s.respondWith f y).retire .ok none := by
  simp only [answeredState, h, Option.isSome_none, Bool.false_eq_true, if_false]

theorem answeredState_of_called {y : Frame} {c : PrivCall}
    (h : answerRequest s.cfg f (s.chan f).grant i a = (y, some c)) :
    answeredState f a g i s = ((s.setGrants g).respondWith f y).retire .ok (some c) := by
  simp only [answeredState, h, Option.isSome_some, if_true]

theorem answered_answeredState (hf : s.hasChan f = true) :
    Answered f (answerRequest s.cfg f (s.chan f).grant i a).1
      (if (answerRequest s.cfg f (s.chan f).grant i a).2.isSome then g else [])
      (answerRequest s.cfg f (s.chan f).grant i a).2 s (answeredState f a g i s) := by
  cases hr : answerRequest s.cfg f (s.chan f).grant i a with
  | mk y p =>
    cases p with
    | none => rw [answeredState_of_refused hr]; exact answered_refused hf
    | some c => rw [answeredState_of_called hr]; exact answered_setGrants hf

/-- T3 on a request computes its answer. -/
theorem exec_execute (hi : i.dir = .req) (h : Due (.execute f a g) f s) (hd : (s.chan f).dstate = .executing) :
    exec i s = .next (answeredState f a g i s) := by
  obtain ⟨allowed, reply, hexec, hallowed, hreply⟩ := exec_request_rows hi
  have hrow : reply (replyHeader s.cfg.pfFuncId f i.header) = successReply (replyHeader s.cfg.pfFuncId f i.header) i :=
    funext fun d => hreply _ d
  rw [hexec, runRequest_execute (stageOf_execute h hd)]
  congr 1
  rcases executeRequest_cases (m := i) (allowed := allowed) (reply := reply) (s := s) (f := f) a g with
    ⟨hno, he⟩ | ⟨hyes, ⟨y, hn, he⟩ | ⟨st, hn, he⟩⟩
  · rw [hallowed, ← authorised, ← Bool.not_eq_true, authorised_iff] at hno
    exact he.trans (answeredState_of_refused (answerRequest_refused hno)).symm
  · rw [hallowed, ← authorised] at hyes
    rw [hrow] at hn
    exact he.trans (answeredState_of_called (by rw [answerRequest, if_pos hyes, hn])).symm
  · rw [hallowed, ← authorised] at hyes
    rw [hrow] at hn
    exact he.trans (answeredState_of_called (answerRequest_failed (authorised_iff.mp hyes) hn)).symm

theorem exec_answers (hi : i.dir = .req) (h : Due (.execute f a g) f s) (hd : (s.chan f).dstate = .executing) :
    ∃ t, exec i s = .next t ∧
      Answered f (answerRequest s.cfg f (s.chan f).grant i a).1
        (if (answerRequest s.cfg f (s.chan f).grant i a).2.isSome then g else [])
        (answerRequest s.cfg f (s.chan f).grant i a).2 s t :=
  ⟨_, exec_execute hi h hd, answered_answeredState h.vfset⟩

/-- T3 on a request that is not permitted (R245, R246). -/
theorem exec_refused (hi : i.dir = .req) (h : Due (.execute f a g) f s) (hd : (s.chan f).dstate = .executing)
    (h0 : 0 ≤ i.header.tag) (h1 : i.header.tag ≤ 255) (hp : ¬Permitted s.cfg.pfFuncId f (s.chan f).grant i) :
    ∃ t, exec i s = .next t ∧
      Answered f (statusFrame (i.op.code s.cfg.ops) i.header.tag s.cfg.pfFuncId f (-5)) [] none s t := by
  have he := exec_answers hi h hd
  rwa [answerRequest_refused hp, statusRsp_eq _ _ _ (Op.code_lt _ _) h0 h1] at he

/-- T3 on a permitted request for which the answer of `PRIV` gives a negative status (R252). -/
theorem exec_failed {st : Int} (h : Due (.execute f a g) f s) (hd : (s.chan f).dstate = .executing)
    (h0 : 0 ≤ i.header.tag) (h1 : i.header.tag ≤ 255) (hp : Permitted s.cfg.pfFuncId f (s.chan f).grant i)
    (hn : normalise s.cfg.ops (successReply (replyHeader s.cfg.pfFuncId f i.header) i) a = .error st) :
    ∃ t, exec i s = .next t ∧
      Answered f (statusFrame (i.op.code s.cfg.ops) i.header.tag s.cfg.pfFuncId f st) g (some ⟨f, i⟩) s t := by
  have he := exec_answers hp.dir h hd
  rwa [answerRequest_failed hp hn, statusRsp_eq _ _ _ (Op.code_lt _ _) h0 h1] at he

/-- T3 on a permitted request that `PRIV` served: the success response of R254 (R240). -/
theorem exec_served {data : PrivData} {r : Instr} (h : Due (.execute f (.answer 0 data) g) f s)
    (hd : (s.chan f).dstate = .executing) (hp : Permitted s.cfg.pfFuncId f (s.chan f).grant i)
    (hr : successReply (replyHeader s.cfg.pfFuncId f i.header) i data = some r) (hw : WellFormed r) :
    ∃ t, exec i s = .next t ∧ Answered f (encode s.cfg.ops r) g (some ⟨f, i⟩) s t := by
  have he := exec_answers hp.dir h hd
  rwa [answerRequest_served hp hr hw] at he

end

/-- Settles O26: T3 computes the answer, which is the refusal. -/
theorem unauthorisedRequestsRefused : Obligations.UnauthorisedRequestsRefused :=
  fun _ _ _ _ _ hi h hd h0 h1 hp => exec_refused hi h hd h0 h1 hp

theorem normalise_of_privStatus (ops : Config.OpMap) (reply : PrivData → Option Instr) (data : PrivData) {st : Int}
    (hlo : -4 ≤ st) (hhi : st ≤ -1) : normalise ops reply (.answer st data) = .error st := by
  have hmem := mem_privStatuses.mpr ⟨hlo, hhi⟩
  simp [normalise, show st ≠ 0 by omega, hmem]

theorem normalise_of_outOfContract (ops : Config.OpMap) (reply : PrivData → Option Instr) (data : PrivData) {st : Int}
    (h : st < -4 ∨ 0 < st) : normalise ops reply (.answer st data) = .error statusFailure := by
  have hmem : st ∉ privStatuses := fun hm => by have := mem_privStatuses.mp hm; omega
  simp [normalise, show st ≠ 0 by omega, hmem]

theorem normalise_of_unencodable (ops : Config.OpMap) {reply : PrivData → Option Instr} {data : PrivData}
    (h : ∀ r, reply data = some r → ¬WellFormed r) : normalise ops reply (.answer 0 data) = .error statusFailure := by
  rcases normalise_cases ops reply (.answer 0 data) with ⟨data', r, y, he, hr, hc, -⟩ | ⟨st, data', he, hst, -⟩ | hn
  · cases he
    exact absurd (compose_ok_iff_wellFormed.mp hc).1 (h r hr)
  · cases he
    exact absurd (mem_privStatuses.mp hst) (by decide)
  · exact hn

/-- Settles O27: the four kinds of answer that are no success, each as `normalise` maps it. -/
theorem privOutcomesNormalised : Obligations.PrivOutcomesNormalised := by
  intro s f a g i _ h hd h0 h1 hp
  refine ⟨?throw, ?inContract, ?outOfContract, ?unencodable⟩
  case throw => rintro rfl; exact exec_failed h hd h0 h1 hp rfl
  case inContract => rintro st data rfl hlo hhi; exact exec_failed h hd h0 h1 hp (normalise_of_privStatus _ _ _ hlo hhi)
  case outOfContract => rintro st data rfl hst; exact exec_failed h hd h0 h1 hp (normalise_of_outOfContract _ _ _ hst)
  case unencodable => rintro data rfl hno; exact exec_failed h hd h0 h1 hp (normalise_of_unencodable _ hno)

end Sys2Proof.Machine
end

section
/-! Proofs of the statements on served requests (spec/45_pf_dispatch.md R240, R249, R254): T3 answers with the encoded success response,
whose words are the ones the rules write out. -/

namespace Sys2Proof.Machine

open Sys2Proof

/-! ## The words of a success response -/

/-- A response whose words 1 to 31 are these integers is the frame the rules write out (R81, R98, R243). -/
theorem encode_response {r : Instr} {t : Int} {pf f : FuncId} {body : Nat → Int} (ops : Config.OpMap) (hd : r.dir = .rsp)
    (hh : r.header = ⟨t, pf.toNat, f.toNat⟩) (h0 : 0 ≤ t) (h1 : t ≤ 255)
    (hw : ∀ k, k ≠ 0 → r.bodyWords k = BitVec.ofInt 32 (body k)) :
    encode ops r = rspFrame (r.op.code ops) t pf f body := by
  rw [encode, rspFrame]
  congr 1
  funext k
  by_cases hk : k = 0
  · rw [if_pos hk, if_pos hk, hd, hh]
    exact headerWord_rsp pf f (Op.code_lt _ _) h0 h1
  · rw [if_neg hk, if_neg hk, hw k hk]

theorem replyHeader_legal {pf f : FuncId} {h : Header} (h0 : 0 ≤ h.tag) (h1 : h.tag ≤ 255) :
    (replyHeader pf f h).legal = true := by
  have := pf.isLt
  have := f.isLt
  simp only [Header.legal, replyHeader, Bool.and_eq_true, fits_iff]
  omega

/-- A success response with a legal body is well formed (R83). -/
theorem wellFormed_reply {r : Instr} {pf f : FuncId} {h : Header} (hh : r.header = replyHeader pf f h) (h0 : 0 ≤ h.tag)
    (h1 : h.tag ≤ 255) (hb : r.bodyLegal = true) : WellFormed r := by
  rw [WellFormed, wellFormed, hh, replyHeader_legal h0 h1, hb, Bool.and_self]

/-- What `put` adds is the value times the weight of its lowest bit, when the value fits. -/
theorem put_eq {hi lo : Nat} {v : Int} (hv : fits (hi + 1 - lo) v = true) : (put hi lo v : Int) = v * 2 ^ lo := by
  obtain ⟨h0, h1⟩ := fits_iff.mp hv
  have hlt : v.toNat < 2 ^ (hi + 1 - lo) := by
    rw [Int.toNat_lt h0]; exact_mod_cast h1
  rw [put, Nat.mod_eq_of_lt hlt]
  push_cast
  rw [Int.toNat_of_nonneg h0, Int.mul_comm]

theorem packed_eq_ofInt {n : Nat} {v : Int} (h : (n : Int) = v) : packed n = BitVec.ofInt 32 v := by
  rw [← h, BitVec.ofInt_natCast]; rfl

theorem all_fits {w : Nat} {l : List Int} (h : ∀ v ∈ l, 0 ≤ v ∧ v < 2 ^ w) : l.all (fits w) = true :=
  List.all_eq_true.mpr fun v hv => fits_iff.mpr (h v hv)

section
variable {s : State} {f : FuncId} {g : GrantTable} {i r : Instr} {data : PrivData}

/-- T3 on a permitted request that `PRIV` served, with the words of the response (R240, R254). -/
theorem exec_served_words (h : Due (.execute f (.answer 0 data) g) f s) (hd : (s.chan f).dstate = .executing)
    (hp : Permitted s.cfg.pfFuncId f (s.chan f).grant i) (h0 : 0 ≤ i.header.tag) (h1 : i.header.tag ≤ 255)
    (hr : successReply (replyHeader s.cfg.pfFuncId f i.header) i data = some r) (hb : r.bodyLegal = true)
    {body : Nat → Int} (hw : ∀ k, k ≠ 0 → r.bodyWords k = BitVec.ofInt 32 (body k)) :
    ∃ t, exec i s = .next t ∧
      Answered f (rspFrame (i.op.code s.cfg.ops) i.header.tag s.cfg.pfFuncId f body) g (some ⟨f, i⟩) s t := by
  obtain ⟨hop, hdir, hheader, -⟩ := successReply_some hr
  have he := exec_served h hd hp hr (wellFormed_reply hheader h0 h1 hb)
  rwa [encode_response s.cfg.ops hdir hheader h0 h1 hw, hop] at he

end

/-! ## Responses that carry data -/

/-- Settles O17: words 2 to 5 of the response are the device-info words. -/
theorem vfOnlineServed : Obligations.VfOnlineServed := by
  intro s f g h b hdue hd hp h0 h1 hl hb
  refine exec_served_words hdue hd hp h0 h1 rfl ?legal fun k hk => ?words
  case legal => simp only [Instr.bodyLegal, Rsp.legal, DevInfo.legal, hl, all_fits hb, decide_true, Bool.and_self]
  case words =>
    simp only [Instr.bodyWords, Rsp.words, DevInfo.frameWords]
    split
    · rw [if_neg (by omega)]; rfl
    · split <;> rfl

/-- Settles O18: words 2 and 3 of the response are the range. -/
theorem qreqServed : Obligations.QreqServed := by
  intro s f g h b r hdue hd hp h0 h1 hb0 hb1 hm0 hm1
  have hmax : fits 16 r.qmax = true := fits_iff.mpr (by omega)
  have hbase : legalBase r.qbase = true := legalBase_iff.mpr ⟨hb0, hb1⟩
  refine exec_served_words hdue hd hp h0 h1 rfl ?legal fun k hk => ?words
  case legal => simp only [Instr.bodyLegal, Rsp.legal, QRange.legalRsp, hbase, hmax, Bool.and_self]
  case words =>
    match k with
    | 1 | 2 | _ + 4 => rfl
    | 3 =>
      show packed (put 15 0 r.qmax) = BitVec.ofInt 32 r.qmax
      exact packed_eq_ofInt (by rw [put_eq hmax]; ring)

/-- Settles O19: words 2 to 26 of the response are the 25 words. -/
theorem csrServed : Obligations.CsrServed := by
  intro s f g h b hdue hd hp h0 h1 hl hb
  refine exec_served_words hdue hd hp h0 h1 rfl ?legal fun k hk => ?words
  case legal => simp only [Instr.bodyLegal, Rsp.legal, CsrInfo.legal, hl, all_fits hb, decide_true, Bool.and_self]
  case words =>
    simp only [Instr.bodyWords, Rsp.words, CsrInfo.frameWords]
    split
    · rw [if_neg (by omega)]; rfl
    · split <;> rfl

/-- The selector word is the sum of its fields (R91). -/
theorem selector_word {b : QSelT} (hb : b.legal = true) : b.words 2 = BitVec.ofInt 32 (selectorWord b) := by
  simp only [QSelT.legal, Bool.and_eq_true] at hb
  obtain ⟨⟨⟨⟨hq, hc⟩, hs⟩, ht⟩, -⟩ := hb
  refine packed_eq_ofInt ?_
  push_cast
  rw [put_eq hq, put_eq hc, put_eq hs, put_eq ht, selectorWord]
  ring

theorem u32_emod (v : Int) : u32 v = BitVec.ofInt 32 (v % 2 ^ 32) := by
  apply BitVec.eq_of_toNat_eq
  simp only [u32, BitVec.toNat_ofInt]
  omega

/-- The words of a legal descriptor are the sums of their fields (R152, R154). -/
theorem desc_word {t : Int} {d : QDesc} (hd : d.legal t = true) (k : Nat) : d.words k = BitVec.ofInt 32 (descWord d k) := by
  have hput {hi lo : Nat} {v : Int} (hr : (hi + 1 - lo, v) ∈ d.rows.map fun r => r.2.2) : (put hi lo v : Int) = v * 2 ^ lo :=
    put_eq (QDesc.fits_of_legal hd hr)
  match k with
  | 3 | 5 => exact u32_emod _
  | 4 | 6 => rfl
  | 7 | 8 | 9 | 10 =>
    refine packed_eq_ofInt ?_
    push_cast
    simp (disch := simp [QDesc.rows]) only [hput]
    simp only [descWord]
    ring
  | 0 | 1 | 2 | _ + 11 => rfl

/-- The tag of a well-formed message is a byte (R83). -/
theorem tag_of_wellFormed {i : Instr} (h : WellFormed i) : 0 ≤ i.header.tag ∧ i.header.tag ≤ 255 := by
  simp only [WellFormed, wellFormed, Header.legal, Bool.and_eq_true, fits_iff] at h
  omega

theorem body_of_wellFormed {i : Instr} (h : WellFormed i) : i.bodyLegal = true := by
  simp only [WellFormed, wellFormed, Bool.and_eq_true] at h
  exact h.2

/-- Settles O20: word 2 of the response is the selector, words 3 to 10 are the descriptor. -/
theorem qctxtRdServed : Obligations.QctxtRdServed := by
  intro s f g h b d hdue hd hp hw hdesc
  obtain ⟨h0, h1⟩ := tag_of_wellFormed hw
  have hb : b.legal = true := body_of_wellFormed hw
  refine exec_served_words hdue hd hp h0 h1 rfl ?legal fun k hk => ?words
  case legal => simp only [Instr.bodyLegal, Rsp.legal, QCtxt.legal, hb, hdesc, Bool.and_self]
  case words =>
    simp only [Instr.bodyWords, Rsp.words, QCtxt.words]
    by_cases h2 : k = 2
    · rw [if_neg (by omega), if_pos h2, if_pos h2, selector_word hb]
    · rw [if_neg h2, if_neg h2, desc_word hdesc]
      split
      case isTrue hk1 => rw [hk1]; rfl
      case isFalse => rfl

/-- Settles O21: the count and the index list are echoed, the contexts follow them. -/
theorem intrCtxtRdServed : Obligations.IntrCtxtRdServed := by
  intro s f g h b c hdue hd hp hw hl hc
  obtain ⟨h0, h1⟩ := tag_of_wellFormed hw
  have hb : b.legal = true := body_of_wellFormed hw
  have hfit : c.all (fun p => fits 32 p.1 && fits 32 p.2) = true := by
    refine List.all_eq_true.mpr fun p hp => ?_
    obtain ⟨l0, l1, r0, r1⟩ := hc p hp
    rw [Bool.and_eq_true, fits_iff, fits_iff]
    exact ⟨⟨l0, l1⟩, r0, r1⟩
  obtain ⟨n, hn, hn1, hn8, hlen, hall⟩ := IRings.legal_iff.mp hb
  refine exec_served_words hdue hd hp h0 h1 rfl ?legal fun k hk => ?words
  case legal => simp only [Instr.bodyLegal, Rsp.legal, ICtxt.legal, hb, hl, hfit, decide_true, Bool.and_self]
  case words =>
    have hindex : fits 11 (b.ringIndex.getD (k - 3) 0) = true := by
      by_cases hi : k - 3 < b.ringIndex.length
      · exact getD_fits hall hi
      · rw [List.getD_eq_default _ _ (by omega)]; rfl
    simp only [Instr.bodyWords, Rsp.words, ICtxt.words, IRings.words]
    by_cases h2 : k = 2
    · rw [if_neg (by omega), if_neg (by omega), if_pos h2, if_pos h2]
      exact packed_eq_ofInt (by rw [put_eq (fits_iff.mpr (by omega))]; ring)
    rw [if_neg h2, if_neg h2]
    by_cases h3 : 3 ≤ k ∧ k ≤ 10
    · rw [if_neg (by omega), if_neg (by omega), if_pos h3, if_pos h3]
      exact packed_eq_ofInt (by rw [put_eq hindex]; ring)
    rw [if_neg h3, if_neg h3]
    by_cases h11 : 11 ≤ k ∧ k ≤ 26
    · rw [if_neg (by omega), if_pos h11, if_pos h11]
      split <;> rfl
    · rw [if_neg h11, if_neg h11, ite_self]
      rfl

/-! ## Responses that carry a status only -/

/-- The opcodes whose success response has a body (R88). -/
def carriesData : Op → Bool
  | .vfOnline | .qreq | .qctxtRd | .csr | .intrCtxtRd => true
  | _ => false

/-- The success reply to a request of the other ten opcodes has no body, whatever data came with the answer (R254; log 10). -/
theorem successReply_statusOnly {i : Instr} (hd : i.dir = .req) (hi : carriesData i.op = false) (h : Header) (d : PrivData) :
    ∃ r, successReply h i d = some r ∧ r.bodyLegal = true ∧ ∀ k, r.bodyWords k = 0 := by
  have hwords (k : Nat) : (Rsp.ok NoBody.none).words (fun _ => noWords) k = 0 := by
    simp only [Rsp.words, noWords, ite_self]
  cases i <;> first
    | (cases hd; done)
    | (cases hi; done)
    | exact ⟨_, rfl, rfl, hwords⟩

section
variable {s : State} {f : FuncId} {g : GrantTable} {i : Instr} {data : PrivData}

/-- T3 on a permitted request whose success response is a status alone (R240, R245, R254). -/
theorem exec_statusOnly (hi : carriesData i.op = false) (h : Due (.execute f (.answer 0 data) g) f s)
    (hd : (s.chan f).dstate = .executing) (h0 : 0 ≤ i.header.tag) (h1 : i.header.tag ≤ 255)
    (hp : Permitted s.cfg.pfFuncId f (s.chan f).grant i) :
    ∃ t, exec i s = .next t ∧
      Answered f (statusFrame (i.op.code s.cfg.ops) i.header.tag s.cfg.pfFuncId f 0) g (some ⟨f, i⟩) s t := by
  obtain ⟨r, hr, hb, hw⟩ := successReply_statusOnly hp.dir hi (replyHeader s.cfg.pfFuncId f i.header) data
  exact exec_served_words h hd hp h0 h1 hr hb fun k _ => by rw [hw, ite_self]; rfl

end

/-- Settles O22: neither opcode's success response has a body. -/
theorem vfOfflineAndFmapServed : Obligations.VfOfflineAndFmapServed := fun _ _ _ _ _ hdue hd h0 h1 =>
  ⟨exec_statusOnly rfl hdue hd h0 h1, fun _ => exec_statusOnly rfl hdue hd h0 h1⟩

/-- Settles O23: none of the four success responses has a body. -/
theorem queueSelectorRequestsServed : Obligations.QueueSelectorRequestsServed := fun _ _ _ _ _ hdue hd h0 h1 =>
  ⟨fun _ => exec_statusOnly rfl hdue hd h0 h1, fun _ => exec_statusOnly rfl hdue hd h0 h1,
    fun _ => exec_statusOnly rfl hdue hd h0 h1, fun _ => exec_statusOnly rfl hdue hd h0 h1⟩

/-- Settles O24: the success response has no body. -/
theorem qctxtWrtServed : Obligations.QctxtWrtServed := fun _ _ _ _ _ _ hdue hd h0 h1 => exec_statusOnly rfl hdue hd h0 h1

/-- Settles O25: none of the three success responses has a body. -/
theorem interruptContextRequestsServed : Obligations.InterruptContextRequestsServed := fun _ _ _ _ _ hdue hd h0 h1 =>
  ⟨fun _ => exec_statusOnly rfl hdue hd h0 h1, fun _ => exec_statusOnly rfl hdue hd h0 h1,
    fun _ => exec_statusOnly rfl hdue hd h0 h1⟩

end Sys2Proof.Machine
end

section
/-! Proofs of the statements on `handle_request` (spec/45_pf_dispatch.md R243, R255, R256, spec/43_correlator.md R187): it always answers,
its answers correlate with honest requests alone, and T1 to T4 compute it. -/

namespace Sys2Proof.Machine

open Sys2Proof

/-! ## `handle_request` as a function and as a step of the host (R255, R305) -/

/-- Word 0 of every answer is the word the rules write out (R243). -/
theorem handleRequest_word_zero (cfg : Config.Params) (f : FuncId) (g : Grant) (y : Frame) (a : PrivAnswer) :
    word (handleRequest cfg f g y a).1 0 = rspHeader (opcOf y) (tagOf y) cfg.pfFuncId f := by
  obtain ⟨hopc, _, htag, _⟩ := header_bounds y
  rw [(handleRequest_echoes cfg f g y a).header]
  exact headerWord_rsp cfg.pfFuncId f hopc (by omega) (by omega)

/-- `handle_request` calls `PRIV` exactly on a frame that parses as a permitted request, and with that request. -/
theorem handleRequest_priv {cfg : Config.Params} {f : FuncId} {g : Grant} {y : Frame} {a : PrivAnswer} {c : PrivCall} :
    (handleRequest cfg f g y a).2 = some c ↔
      c.f = f ∧ parse cfg.ops y = .ok c.m ∧ c.m.dir = .req ∧ Permitted cfg.pfFuncId f g c.m := by
  rcases parses_request_or_rejected cfg.ops y with ⟨m, hp, hm⟩ | hp
  · rw [handleRequest_of_request hp hm, answerRequest_priv]
    constructor
    · rintro ⟨rfl, h⟩
      exact ⟨rfl, hp, hm, h⟩
    · rintro ⟨rfl, he, -, h⟩
      obtain rfl := Except.ok.inj (hp.symm.trans he)
      exact ⟨rfl, h⟩
  · rw [handleRequest_of_rejected hp]
    refine iff_of_false (by simp) ?_
    rintro ⟨-, he, hm, -⟩
    simp [hp _ he] at hm

section
variable {s : State} {f : FuncId} {y : Frame} {a : PrivAnswer} {g : GrantTable}

/-- A step that replaces the rows a table names, and nothing else. -/
theorem regranted_setGrants (s : State) (g : GrantTable) (r : Result) (p : Option PrivCall) :
    Regranted g r p s ((s.setGrants g).retire r p) where
  chans k hk := by rw [retire_chan, setGrants_chan s g k hk]
  mem := sameMem_of_eq rfl
  rest := ⟨rfl, rfl, rfl, fun k => by simp⟩
  sched := rfl
  result := rfl
  priv := rfl

theorem regranted_retire (s : State) (r : Result) (p : Option PrivCall) : Regranted [] r p s (s.retire r p) where
  chans _ _ := rfl
  mem := sameMem_of_eq rfl
  rest := ⟨rfl, rfl, rfl, fun _ => rfl⟩
  sched := rfl
  result := rfl
  priv := rfl

/-- The host's call answers with `handle_request`, and the rows change exactly when `PRIV` was called (R305; log 23, 24). -/
theorem step_handleRequest (h : Due (.handleRequest f y a g) f s) (hy : y.length = 32) :
    step s = .next (State.retire
      (if (handleRequest s.cfg f (s.chan f).grant y a).2.isSome then s.setGrants g else s)
      (.frame none (handleRequest s.cfg f (s.chan f).grant y a).1) (handleRequest s.cfg f (s.chan f).grant y a).2) := by
  rw [step_own h.head (by simp) (by simp) (by simp), agentStep]
  rcases hr : handleRequest s.cfg f (s.chan f).grant y a with ⟨r, _ | c⟩ <;> simp [hostHandleRequest, h.vfset, hy, hr]

end

/-- Settles O51: an answer echoes its frame, and the host's step is the function with the grant change of a called `PRIV`. -/
theorem handleRequestAlwaysAnswers : Obligations.HandleRequestAlwaysAnswers := by
  refine ⟨fun cfg f g y a _ => ?function, fun s f y a g h hy => ?step⟩
  case function =>
    have he := handleRequest_echoes cfg f g y a
    exact ⟨he.len, handleRequest_word_zero cfg f g y a, he.statusLow, he.statusHigh, fun c => handleRequest_priv⟩
  case step =>
    refine ⟨_, step_handleRequest h hy, ?_⟩
    split
    · exact regranted_setGrants s g _ _
    · exact regranted_retire s _ _

/-! ## Correlation (R187) -/

theorem correlates_of_isResponse {q r : Frame} (h : isResponse q r = .ok true) : correlates q r = true := by
  simp only [isResponse] at h
  split at h
  · cases h
  · exact Except.ok.inj h

/-- Settles O11: the direction bit, the echoed header, and the tag each decide one clause. -/
theorem correlationConsequences : Obligations.CorrelationConsequences := by
  refine ⟨fun m hm => ?self, fun cfg f g q a hq hd => ?forged, fun q q' r h h' => ?tags⟩
  case self =>
    have hno : correlates m m = false := by
      cases hc : correlates m m with
      | false => rfl
      | true => obtain ⟨h0, -, h1, -⟩ := correlates_iff.mp hc; omega
    rw [isResponse_eq hm hm, hno]
  case forged =>
    have he := handleRequest_echoes cfg f g q a
    obtain ⟨hopc, _, htag, _⟩ := header_bounds q
    obtain ⟨ho, hdir, ht, hsrc, hdst⟩ := he.fields hopc htag
    rw [isResponse_eq hq he.len, Except.ok.injEq, correlates_iff, ho, hdir, ht, hsrc, hdst]
    simp only [hd, true_and]
    constructor
    · rintro ⟨h1, h2⟩; exact ⟨h2.symm, h1.symm⟩
    · rintro ⟨h1, h2⟩; exact ⟨h2.symm, h1.symm⟩
  case tags =>
    obtain ⟨-, -, -, ht, -⟩ := correlates_iff.mp (correlates_of_isResponse h)
    obtain ⟨-, -, -, ht', -⟩ := correlates_iff.mp (correlates_of_isResponse h')
    exact ht.symm.trans ht'

/-! ## T2 and T3 together (R255) -/

/-- T2 and T3 of function `f` left the response `r`: `RESP[f]` holds it, of the rest of channel `f` at most `REQ[f]` and the grant
changed, of the other channels at most the grants. -/
structure Handled (f : FuncId) (r : Frame) (s t : State) : Prop where
  chan : ∃ q gr, t.chan f = { s.chan f with req := q, grant := gr, resp := r, dstate := .responding }
  others : ∀ k, k ≠ f → s.hasChan k = true → ∃ gr, t.chan k = { s.chan k with grant := gr }
  mem : t.mem = s.mem
  cfg : t.cfg = s.cfg
  vfset : ∀ k, t.hasChan k = s.hasChan k

section
variable {s : State} {f : FuncId} {a : PrivAnswer} {g : GrantTable} {rest : List Action}

theorem due_of_sched {act : Action} {f : FuncId} {tail : List Action} (hs : s.sched = act :: tail) (hf : s.hasChan f = true) :
    Due act f s := ⟨by rw [hs]; rfl, hf⟩

/-- The scheduled T3 of a function that is not executing is not enabled (log 2). -/
theorem step_execute_off (h : Due (.execute f a g) f s) (hd : (s.chan f).dstate ≠ .executing) :
    step s = .next (s.retire .notEnabled none) := by
  refine step_channel h ?_ rfl
  rw [stageOf_eq h.head]
  simp only [h.vfset, if_true, if_neg hd]

/-- What T3 leaves, as `Handled` says it. -/
theorem handled_answeredState (hf : s.hasChan f = true) (i : Instr) :
    Handled f (answerRequest s.cfg f (s.chan f).grant i a).1 s (answeredState f a g i s) := by
  have ha := answered_answeredState (a := a) (g := g) (i := i) hf
  refine ⟨⟨_, _, ha.chan⟩, fun k hk hkf => ⟨_, ha.others k hk hkf⟩, ?_, ha.rest.cfg, ha.rest.vfset⟩
  rw [answeredState]
  split <;> rfl

/-- A request latched before does not matter to what T3 leaves. -/
theorem Handled.of_latched {r : Frame} {t : State} {m : Instr} {d : DState} {x : Result} {p : Option PrivCall}
    (hf : s.hasChan f = true)
    (h : Handled f r ((s.updChan f fun c => { c with req := m, dstate := d }).retire x p) t) : Handled f r s t := by
  obtain ⟨⟨q, gr, hchan⟩, hothers, hmem, hcfg, hvfset⟩ := h
  refine ⟨⟨q, gr, ?_⟩, fun k hk hkf => ?_, hmem, hcfg, fun k => ?_⟩
  · rwa [retire_updChan_chan hf] at hchan
  · obtain ⟨gr', hk'⟩ := hothers k hk (by rwa [retire_hasChan, updChan_hasChan])
    rw [retire_chan, updChan_chan_other _ _ _ _ hk] at hk'
    exact ⟨gr', hk'⟩
  · rw [hvfset, retire_hasChan, updChan_hasChan]

/-- T2 on a request and then T3 (R238, R240). -/
theorem decode_execute_of_request (hs : s.sched = .decode f :: .execute f a g :: rest) (hf : s.hasChan f = true)
    (hd : (s.chan f).dstate = .decoding) {m : Instr} (hp : parse s.cfg.ops (s.chan f).rxbuf = .ok m) (hm : m.dir = .req) :
    ∃ u t, step s = .next u ∧ step u = .next t ∧ t.sched = rest ∧
      t.priv = (answerRequest s.cfg f (s.chan f).grant m a).2 ∧
      Handled f (answerRequest s.cfg f (s.chan f).grant m a).1 s t := by
  let u := (s.updChan f fun c => { c with req := m, dstate := .executing }).retire .ok none
  have hus : u.sched = .execute f a g :: rest := by rw [retire_sched, updChan_sched, hs]; rfl
  have huf : u.hasChan f = true := by rw [retire_hasChan, updChan_hasChan, hf]
  have huc : u.chan f = { s.chan f with req := m, dstate := .executing } := retire_updChan_chan hf _ _ _
  have hdue := due_of_sched hus huf
  have hexec : step u = .next (answeredState f a g m u) := by
    rw [step_execute hdue (by rw [huc]), huc, exec_execute hm hdue (by rw [huc])]
  have hh := handled_answeredState (a := a) (g := g) huf m
  have ha := answered_answeredState (a := a) (g := g) (i := m) huf
  rw [show u.cfg = s.cfg from rfl, huc] at hh ha
  exact ⟨u, _, step_decode_request (due_of_sched hs hf) hd hp hm, hexec, by rw [ha.sched, hus]; rfl, ha.priv, hh.of_latched hf⟩

/-- T2 on a frame that is no request, and then the T3 that is not enabled (R238, R244; log 2). -/
theorem decode_execute_of_rejected (hs : s.sched = .decode f :: .execute f a g :: rest) (hf : s.hasChan f = true)
    (hd : (s.chan f).dstate = .decoding) (hp : ∀ m, parse s.cfg.ops (s.chan f).rxbuf = .ok m → m.dir = .rsp) :
    ∃ u t, step s = .next u ∧ step u = .next t ∧ t.sched = rest ∧ t.priv = none ∧
      Handled f (malformedRsp s.cfg.pfFuncId f (s.chan f).rxbuf) s t := by
  let u := (s.respondWith f (malformedRsp s.cfg.pfFuncId f (s.chan f).rxbuf)).retire .ok none
  have hus : u.sched = .execute f a g :: rest := by
    rw [retire_sched, State.respondWith, updChan_sched, hs]; rfl
  have huf : u.hasChan f = true := by rw [retire_hasChan, State.respondWith, updChan_hasChan, hf]
  have huc : u.chan f = { s.chan f with resp := malformedRsp s.cfg.pfFuncId f (s.chan f).rxbuf, dstate := .responding } :=
    retire_updChan_chan hf _ _ _
  have hoff : step u = .next (u.retire .notEnabled none) :=
    step_execute_off (due_of_sched hus huf) (by simp [huc])
  refine ⟨u, _, step_decode_rejected (due_of_sched hs hf) hd hp, hoff, by rw [retire_sched, hus]; rfl, rfl, ?_⟩
  refine ⟨⟨(s.chan f).req, (s.chan f).grant, huc⟩, fun k hk _ => ⟨(s.chan k).grant, ?_⟩, rfl, rfl, fun k => ?_⟩
  · rw [retire_chan, retire_chan, State.respondWith, updChan_chan_other _ _ _ _ hk]
  · rw [retire_hasChan, retire_hasChan, State.respondWith, updChan_hasChan]

/-- T2 and T3 compute `handle_request` (R255). -/
theorem decode_execute_handles (hs : s.sched = .decode f :: .execute f a g :: rest) (hf : s.hasChan f = true)
    (hd : (s.chan f).dstate = .decoding) :
    ∃ u t, step s = .next u ∧ step u = .next t ∧ t.sched = rest ∧
      t.priv = (handleRequest s.cfg f (s.chan f).grant (s.chan f).rxbuf a).2 ∧
      Handled f (handleRequest s.cfg f (s.chan f).grant (s.chan f).rxbuf a).1 s t := by
  rcases parses_request_or_rejected s.cfg.ops (s.chan f).rxbuf with ⟨m, hp, hm⟩ | hp
  · rw [handleRequest_of_request hp hm]
    exact decode_execute_of_request hs hf hd hp hm
  · rw [handleRequest_of_rejected hp]
    exact decode_execute_of_rejected hs hf hd hp

end

/-- Settles O52: T2 leaves T3 the request that `handle_request` parses, or the response it gives. -/
theorem machineComputesHandleRequest : Obligations.MachineComputesHandleRequest := by
  intro s f a g rest hs hf hd _
  obtain ⟨u, t, hu, ht, hsched, hpriv, hh⟩ := decode_execute_handles hs hf hd
  obtain ⟨q, gr, hchan⟩ := hh.chan
  exact ⟨u, t, hu, ht, hsched, by rw [hchan], by rw [hchan], hpriv, sameMem_of_eq hh.mem⟩

/-! ## T1 to T4 (R340) -/

section
variable {s : State} {f : FuncId}

/-- T4 on a response to `f` with the slot free (R241). -/
theorem step_respond_sends (h : Due (.respond f false) f s) (hd : (s.chan f).dstate = .responding)
    (hp : (s.chan f).pend = false) (ha : (s.chan f).ack = false) (hwf : Memory.wf s.mem = true)
    (hl : (s.chan f).resp.length = 32) (hdst : dstOf (s.chan f).resp = f.toNat) :
    ∃ t, step s = .next t ∧ Took f s t ∧ readSlot t.mem f = (s.chan f).resp ∧ SameMemBut f s t ∧ t.result = .ok ∧
      t.chan f = { s.chan f with ackShadow := true, ack := true, dstate := .idle } := by
  obtain ⟨t, hstep, htook, hsent⟩ := respondSendsHoldsOrFaults s f false h hd hwf hl hdst
  rw [if_neg (by simp [hp, ha])] at hsent
  exact ⟨t, hstep, htook, hsent⟩

/-- T1 on a pending frame with the machine idle (R237). -/
theorem step_accept_takes (h : Due (.accept f false) f s) (hd : (s.chan f).dstate = .idle) (hp : (s.chan f).pend = true) :
    step s = .next (State.retire
      (s.updChan f fun c => { c with
        ackShadow := false, pend := false, ack := false, rxbuf := readSlot s.mem f, dstate := .decoding }) .ok none) := by
  rcases accept_cases f false s with ⟨hoff, _⟩ | ⟨_, _, hhs, _⟩ | ⟨_, _, _, he⟩
  · exact absurd ⟨hd, hp⟩ hoff
  · cases hhs
  · exact step_accept h he

end

/-- Settles O53: T1 takes the frame out of the slot, T2 and T3 compute the response, T4 sends it. -/
theorem pendingRequestAnsweredInFourSteps : Obligations.PendingRequestAnsweredInFourSteps := by
  intro s f a g rest hs hf hd hp hwf
  let s1 := State.retire (s.updChan f fun c => { c with
    ackShadow := false, pend := false, ack := false, rxbuf := readSlot s.mem f, dstate := .decoding }) .ok none
  have hsched1 : s1.sched = .decode f :: .execute f a g :: .respond f false :: rest := by
    rw [retire_sched, updChan_sched, hs]; rfl
  have hf1 : s1.hasChan f = true := by rw [retire_hasChan, updChan_hasChan, hf]
  have hc1 : s1.chan f = { s.chan f with
      ackShadow := false, pend := false, ack := false, rxbuf := readSlot s.mem f, dstate := .decoding } :=
    retire_updChan_chan hf _ _ _
  obtain ⟨s2, s3, h2, h3, hsched3, -, hh⟩ := decode_execute_handles hsched1 hf1 (by rw [hc1])
  have hreply := (handleRequest_echoes s1.cfg f (s1.chan f).grant (s1.chan f).rxbuf a).isReply
  obtain ⟨q, gr, hc3⟩ := hh.chan
  rw [hc1] at hc3 hreply
  have hf3 : s3.hasChan f = true := by rw [hh.vfset, hf1]
  have hmem3 : s3.mem = s.mem := hh.mem
  obtain ⟨t, h4, htook, hslot, hframe, hres, hc4⟩ := step_respond_sends (due_of_sched hsched3 hf3) (by rw [hc3])
    (by rw [hc3]) (by rw [hc3]) (by rw [hmem3, hwf]) (by rw [hc3]; exact hreply.len) (by rw [hc3]; exact hreply.dst)
  rw [hc3] at hslot hc4
  refine ⟨s1, s2, s3, t, step_accept_takes (due_of_sched hs hf) hd hp, h2, h3, h4, by rw [htook.sched, hsched3]; rfl, hres,
    by rw [hc4], by rw [hc4], by rw [hc4], by rw [hc4], hslot, fun b hb => by rw [hframe b hb, hmem3], fun k hk hkf => ?_⟩
  obtain ⟨gr', hk3⟩ := hh.others k hk (by rw [retire_hasChan, updChan_hasChan, hkf])
  rw [retire_chan, updChan_chan_other _ _ _ _ hk] at hk3
  exact ⟨gr', (htook.only.others k hk).trans hk3⟩

end Sys2Proof.Machine
end

section
/-! Proofs of the statements on which message a step runs, on reading a response (spec/46_vf_requester.md R286, spec/43_correlator.md
R188), on the interrupt lines (spec/60_exceptions.md R300), on initialisation (spec/70_reset_and_hazards.md R322, R323) and on the steps
that stop. -/

namespace Sys2Proof.Machine

open Sys2Proof

/-! ## The message at hand -/

/-- Settles O14: the fetch of each of the three places. -/
theorem stepRunsTheDecodedMessage : Obligations.StepRunsTheDecodedMessage := fun _ _ =>
  ⟨fun _ h hd hp => step_decode h hd hp, fun _ _ h hd => step_execute h hd, fun _ h hp => step_read h hp⟩

theorem frameOfBits_length (nbits w : Nat) : (frameOfBits nbits w).length = 32 := frameOf_length _

/-- What the decoder reads of a word is what `parse` reads of its frame. -/
theorem parse_of_decodeWord {ops : Config.OpMap} {nbits w : Nat} {i : Instr} (h : decodeWord ops nbits w = some i) :
    parse ops (frameOfBits nbits w) = .ok i := by
  have hbytes : parseBytes ops (byteImage (frameOfBits nbits w)) = parse ops (frameOfBits nbits w) := by
    rw [parseBytes, wordsOfBytes_byteImage, if_pos (by rw [byteImage_length, frameOfBits_length])]
  rw [decodeWord, hbytes] at h
  cases hp : parse ops (frameOfBits nbits w) with
  | error e => rw [hp] at h; cases h
  | ok m => rw [hp] at h; cases h; rfl

theorem hasChan_firstChan {s : State} (h : s.chans ≠ []) : s.hasChan (firstChan s) = true := by
  cases hc : s.chans with
  | nil => exact absurd hc h
  | cons p rest => simp [State.hasChan, firstChan, hc, findChan]

section
variable {s : State} {f : FuncId} {x : Frame} {i : Instr}

theorem withFrame_request (hp : parse s.cfg.ops x = .ok i) (hd : i.dir = .req) :
    withFrame f x s = { s.updChan f (fun c => { c with rxbuf := x, req := i, dstate := .executing }) with
      sched := [.execute f (.answer 0 .none) []] } := by
  simp only [withFrame, hp, hd]

theorem withFrame_response (hp : parse s.cfg.ops x = .ok i) (hd : i.dir = .rsp) :
    withFrame f x s = { s.updChan f (fun c => { c with vfRxbuf := x }) with sched := [.readResponse f] } := by
  simp only [withFrame, hp, hd]

/-- A frame that parses runs where it was placed. -/
theorem step_withFrame (hf : s.hasChan f = true) (hp : parse s.cfg.ops x = .ok i) :
    step (withFrame f x s) = exec i (withFrame f x s) := by
  have hhas (u : Chan → Chan) (l : List Action) : State.hasChan { s.updChan f u with sched := l } f = true :=
    (updChan_hasChan s f f u).trans hf
  have hchan (u : Chan → Chan) (l : List Action) : State.chan { s.updChan f u with sched := l } f = u (s.chan f) :=
    updChan_chan_same s f u hf
  cases hd : i.dir with
  | req =>
    rw [withFrame_request hp hd, step_execute ⟨rfl, hhas _ _⟩ (by rw [hchan]), hchan]
  | rsp =>
    rw [withFrame_response hp hd, step_read ⟨rfl, hhas _ _⟩ (by rw [hchan]; exact hp)]

end

/-- Settles O15: the decoder's word is the frame's `parse`, and the frame is placed where its message runs. -/
theorem placedWordRunsNext : Obligations.PlacedWordRunsNext := fun _ _ _ _ hs hw =>
  step_withFrame (hasChan_firstChan hs) (parse_of_decodeWord hw)

/-! ## The steps that stop (R60) -/

section
variable {s : State} {a : Action} {f : FuncId}

/-- A step that names an absent channel stops. -/
theorem step_absent (h : s.sched.head? = some a) (hc : channelOf a = some f) (hf : s.hasChan f = false) :
    step s = .fault .noSuchChannel := by
  have hstage : stageOf s = .off ∨ stageOf s = .absent := by
    rw [stageOf_eq h]
    cases a with
    | decode g | execute g x t | readResponse g => cases hc; simp [hf]
    | _ => exact .inl rfl
  rw [step_agent h hstage]
  cases a with
  | enableInterrupts r | disableInterrupts r | hwInit r =>
    cases r with
    | pf => cases hc
    | vf g => cases hc; exact onChannel_absent hf
  | handleRequest g y p t => cases hc; simp [agentStep, hostHandleRequest, hf]
  | sendPf x hs | setGrants g | compose m | parse x | parseAs op d x | isResponse x y | status x | get g x | powerOn => cases hc
  | _ => cases hc; exact onChannel_absent hf

theorem finish_next (p : State × Result) : ∃ t, finish p = .next t := ⟨_, rfl⟩

theorem onChannel_next (hf : s.hasChan f = true) (p : State × Result) : ∃ t, onChannel f s p = .next t := by
  rw [onChannel_of hf]; exact finish_next p

/-- A due step whose channel exists answers a next state when it works on no message. -/
theorem agentStep_next (hc : ∀ f, channelOf a = some f → s.hasChan f = true) : ∃ t, agentStep a s = .next t := by
  cases a with
  | enableInterrupts r | disableInterrupts r | hwInit r =>
    cases r with
    | pf => exact ⟨_, rfl⟩
    | vf g => exact onChannel_next (hc g rfl) _
  | handleRequest g y p t =>
    have hg := hc g rfl
    simp only [agentStep, hostHandleRequest, hg, Bool.not_true, Bool.false_eq_true, if_false]
    split
    · exact ⟨_, rfl⟩
    · split <;> exact ⟨_, rfl⟩
  | sendPf x hs | setGrants g | get g x | powerOn => exact ⟨_, rfl⟩
  | compose m | parse x | parseAs op d x | isResponse x y | status x => simp only [agentStep]; split <;> exact ⟨_, rfl⟩
  | _ => exact onChannel_next (hc _ rfl) _

/-- The meaning of a message stops at an absent channel alone. -/
theorem exec_next (i : Instr) (h : stageOf s ≠ .absent) : ∃ t, exec i s = .next t := by
  cases hd : i.dir with
  | req =>
    obtain ⟨allowed, reply, he⟩ := exec_request hd
    rw [he, runRequest]
    cases hs : stageOf s with
    | absent => exact absurd hs h
    | _ => exact ⟨_, rfl⟩
  | rsp =>
    obtain ⟨view, he⟩ := exec_response hd
    rw [he, runResponse]
    cases hs : stageOf s with
    | absent => exact absurd hs h
    | _ => exact ⟨_, rfl⟩

theorem stageOf_ne_absent (h : s.sched.head? = some a) (hc : ∀ f, channelOf a = some f → s.hasChan f = true) :
    stageOf s ≠ .absent := by
  rw [stageOf_eq h]
  cases a with
  | decode f | execute f x g => simp only [hc f rfl, if_true]; split <;> simp
  | readResponse f => simp [hc f rfl]
  | _ => simp

/-- A step whose channel exists answers a next state. -/
theorem step_next (h : s.sched.head? = some a) (hc : ∀ f, channelOf a = some f → s.hasChan f = true) : ∃ t, step s = .next t := by
  rw [step_eq h]
  cases fetch s with
  | message i => exact exec_next i (stageOf_ne_absent h hc)
  | malformed f => exact finish_next _
  | unparsed f e => exact finish_next _
  | nothing => exact agentStep_next hc

end

/-- Settles O16: an absent channel is tested first, and nothing else stops. -/
theorem onlyAnAbsentChannelStopsAStep : Obligations.OnlyAnAbsentChannelStopsAStep := by
  intro s
  refine ⟨fun ⟨a, f, ha, hc, hf⟩ => step_absent ha hc hf, fun hno => ?_⟩
  cases hs : s.sched.head? with
  | none => exact ⟨_, step_nil (List.head?_eq_none_iff.mp hs)⟩
  | some a =>
    refine step_next hs fun f hc => ?_
    cases hf : s.hasChan f with
    | true => rfl
    | false => exact absurd ⟨a, f, hs, hc, hf⟩ hno

/-! ## Reading a response (R286, R188) -/

/-- Settles O29: each of the five responses shows the reader its view. -/
theorem dataResponsesRead : Obligations.DataResponsesRead := fun _ _ _ hdue =>
  have hread := stageOf_read hdue
  ⟨fun _ => runResponse_read hread, fun _ => runResponse_read hread, fun _ => runResponse_read hread,
    fun _ => runResponse_read hread, fun _ => runResponse_read hread,
    fun _ => ⟨runResponse_read hread, runResponse_read hread, runResponse_read hread, runResponse_read hread,
      runResponse_read hread⟩⟩

section
variable {x : Frame} {e : Err}

theorem viewUnparsed_of_wrongLength (hl : x.length ≠ 32) : viewUnparsed x e = .error (.malformedMessage .length) := by
  simp only [viewUnparsed, status_wrongLength hl]

theorem viewUnparsed_of_request (hl : x.length = 32) (hd : dirOf x = 0) :
    viewUnparsed x e = .error (.malformedMessage .notAResponse) := by
  simp only [viewUnparsed, status_of_request hl hd]

theorem viewUnparsed_of_positive (hl : x.length = 32) (hd : dirOf x = 1) (hst : 0 < s32 (word x 1)) :
    viewUnparsed x e = .error (.malformedMessage .positiveStatus) := by
  simp only [viewUnparsed, status_of_positive hl hd hst]

theorem viewUnparsed_of_negative (hl : x.length = 32) (hd : dirOf x = 1) (hst : s32 (word x 1) < 0) :
    viewUnparsed x e = .status (.failed (kindOf (s32 (word x 1)))) := by
  simp only [viewUnparsed, status_of_negative hl hd hst]

theorem viewUnparsed_of_zero (hl : x.length = 32) (hd : dirOf x = 1) (hst : s32 (word x 1) = 0) :
    viewUnparsed x e = .error e := by
  simp only [viewUnparsed, status_of_zero hl hd hst]

end

/-- The generic malformed-request response, whatever it echoes, is a response with status −6 (R244). -/
theorem statusFrame_malformed (o : Nat) {tag : Int} (pf f : FuncId) (ho : o ≤ 127) (h0 : 0 ≤ tag) (h1 : tag ≤ 255) :
    (statusFrame o tag pf f (-6)).length = 32 ∧ dirOf (statusFrame o tag pf f (-6)) = 1 ∧
      s32 (word (statusFrame o tag pf f (-6)) 1) = -6 := by
  rw [← statusRsp_eq pf f (-6) (Nat.lt_succ_of_le ho) h0 h1]
  have he := statusRsp_echoes pf f o tag.toNat (show -7 ≤ -6 by decide) (by decide)
  refine ⟨he.len, he.isReply.dir, ?_⟩
  rw [statusRsp, word_frameOf _ _ (by decide)]
  rfl

/-- Reading a malformed-request response, parsed or not, gives `Failed(Malformed)` (R188, R189). -/
theorem step_read_malformed {s : State} {f : FuncId} (h : Due (.readResponse f) f s)
    (hl : (s.chan f).vfRxbuf.length = 32) (hd : dirOf (s.chan f).vfRxbuf = 1)
    (hst : s32 (word (s.chan f).vfRxbuf 1) = -6) :
    step s = .next (s.retire (.status (.failed .malformed)) none) := by
  cases hp : parse s.cfg.ops (s.chan f).vfRxbuf with
  | error e =>
    rw [step_read_unparsed h hp, viewUnparsed_of_negative hl hd (by rw [hst]; decide), hst]
    rfl
  | ok m =>
    obtain ⟨-, hop, -, -⟩ := parse_ok hp
    have hparse := hp
    rw [parse_eq hl hop, if_neg (by omega)] at hparse
    have hfail {β : Type} {p : Frame → Except Err β} {mk : Rsp β → Instr}
        (hm : (parseRsp p (s.chan f).vfRxbuf).map mk = .ok m) : mk (.fail (-6)) = m := by
      simpa [parseRsp, hst, Except.map] using hm
    have hread := stageOf_read h
    rw [step_read h hp]
    generalize m.op = op at hparse
    cases op
    all_goals
      obtain rfl := hfail hparse
      exact runResponse_read hread

/-- Settles O30: each of the ten responses shows the reader its view, and a frame that does not parse is read by `status`. -/
theorem statusResponsesRead : Obligations.StatusResponsesRead := by
  intro s f h hdue x
  have hread := stageOf_read hdue
  refine ⟨?success, fun st => ?failure, fun e hp => ?unparsed, fun o tag ho h0 h1 hx => ?malformed⟩
  case success =>
    refine ⟨?_, ?_, ?_, ?_, ?_, ?_, ?_, ?_, ?_, ?_⟩ <;> exact runResponse_read hread
  case failure =>
    refine ⟨?_, ?_, ?_, ?_, ?_, ?_, ?_, ?_, ?_, ?_⟩ <;> exact runResponse_read hread
  case unparsed =>
    rw [step_read_unparsed hdue hp]
    exact ⟨fun hl => by rw [viewUnparsed_of_wrongLength hl], fun hl hd => by rw [viewUnparsed_of_request hl hd],
      fun hl hd hst => by rw [viewUnparsed_of_positive hl hd hst], fun hl hd hst => by rw [viewUnparsed_of_negative hl hd hst],
      fun hl hd hst => by rw [viewUnparsed_of_zero hl hd hst]⟩
  case malformed =>
    obtain ⟨hl, hd, hst⟩ := statusFrame_malformed o s.cfg.pfFuncId f ho h0 h1
    rw [← hx] at hl hd hst
    exact step_read_malformed hdue hl hd hst

/-- Settles O31: a response at T2 and a request at the reader, whatever the kind. -/
theorem misdirectedMessagesRejected : Obligations.MisdirectedMessagesRejected := by
  refine fun s f i => ⟨fun hi hdue hd h0 h1 => ?response, fun hi hdue => ?request⟩
  case response =>
    obtain ⟨view, hexec⟩ := exec_response hi
    refine ⟨_, (hexec s).trans (runResponse_decode (stageOf_decode hdue hd)), took_updChan f s _ _, sameMem_of_eq rfl, ?_⟩
    rw [← statusRsp_eq _ _ _ (Op.code_lt _ _) h0 h1]
    exact retire_updChan_chan hdue.vfset _ _ _
  case request =>
    obtain ⟨allowed, reply, hexec⟩ := exec_request hi
    rw [hexec, runRequest_read (stageOf_read hdue)]

/-! ## The interrupt lines (R300) -/

/-- With each function listed once, a listed channel is the channel of its function. -/
theorem chan_of_mem {s : State} (hkeys : (s.chans.map Prod.fst).Nodup) {p : FuncId × Chan} (hp : p ∈ s.chans) :
    s.hasChan p.1 = true ∧ s.chan p.1 = p.2 := by
  have hfind : findChan s.chans p.1 = some p.2 := by
    generalize s.chans = l at hkeys hp
    induction l with
    | nil => cases hp
    | cons q rest ih =>
      rw [List.map_cons, List.nodup_cons] at hkeys
      obtain ⟨hq, hrest⟩ := hkeys
      rcases List.mem_cons.mp hp with rfl | htail
      · simp [findChan]
      · have hne : q.1 ≠ p.1 := fun he => hq (he ▸ List.mem_map_of_mem htail)
        simpa [findChan, hne] using ih hrest htail
  simp [State.hasChan, State.chan, hfind]

/-- Settles O43: the line of the PF is a search of the listed channels, each of which is the channel of its function. -/
theorem interruptLinesFollowTheFlags : Obligations.InterruptLinesFollowTheFlags := by
  intro s hi
  refine ⟨?pf, fun f => by simp [irqVf]⟩
  case pf =>
    simp only [irqPf, List.any_eq_true, Bool.and_eq_true]
    constructor
    · rintro ⟨p, hp, hpend, hen⟩
      obtain ⟨hf, hc⟩ := chan_of_mem hi.keys hp
      exact ⟨p.1, hf, by rw [hc]; exact hpend, by rw [hc]; exact hen⟩
    · rintro ⟨f, hf, hpend, hen⟩
      exact ⟨_, chan_mem hf, hpend, hen⟩

/-! ## Initialisation (R322, R323) -/

/-- What `hw_init(false)` makes of a channel (R322), when `n` values were free before. -/
def initPfChan (n : Nat) (f : FuncId) (c : Chan) : Chan :=
  { c with
    pend := false, ack := false, ackShadow := false, intrEnPf := false, dstate := .idle, outstanding := false
    rxbuf := freeFrame n f .rxbuf
    req := Config.freeMessage n f
    resp := freeFrame n f .resp }

/-- What `hw_init(true)` makes of its channel (R323), when `n` values were free before. -/
def initVfChan (n : Nat) (f : FuncId) (c : Chan) : Chan :=
  { c with
    pend := false, ack := false, outstanding := false, intrEnVf := false, tagNext := 0
    vstate := .idle, vfPolls := 0, vfRetry := 0, vfHf := false, vfFaulted := false
    sent := freeFrame n f .sent
    vfRxbuf := freeFrame n f .vfRxbuf
    vfReq := Config.freeRequest n f
    vfBase := Config.mboxBase (.vf f) }

section
variable {s : State} {f : FuncId}

theorem step_hwInitPf (h : s.sched.head? = some (.hwInit .pf)) : step s = .next ((hwInitPf s).retire .ok none) := by
  rw [step_own h (by simp) (by simp) (by simp)]; rfl

theorem step_hwInitVf (h : Due (.hwInit (.vf f)) f s) : step s = .next ((hwInitVf f s).retire .ok none) := by
  rw [step_own h.head (by simp) (by simp) (by simp)]
  exact onChannel_of h.vfset

/-- A channel after `hw_init(false)` (R322). -/
theorem hwInitPf_chan (hf : s.hasChan f = true) : (hwInitPf s).chan f = initPfChan s.inits f (s.chan f) :=
  updAll_chan s f (initPfChan s.inits) hf

/-- Channel `f` after its `hw_init(true)` (R323). -/
theorem hwInitVf_chan (hf : s.hasChan f = true) : (hwInitVf f s).chan f = initVfChan s.inits f (s.chan f) :=
  updChan_chan_same s f (initVfChan s.inits f) hf

theorem hwInitVf_chan_other {k : FuncId} (hk : k ≠ f) : (hwInitVf f s).chan k = s.chan k :=
  updChan_chan_other s f k (initVfChan s.inits f) hk

theorem hwInitPf_hasChan (s : State) (k : FuncId) : (hwInitPf s).hasChan k = s.hasChan k :=
  updAll_hasChan s k (initPfChan s.inits)

theorem hwInitVf_hasChan (f : FuncId) (s : State) (k : FuncId) : (hwInitVf f s).hasChan k = s.hasChan k :=
  updChan_hasChan s f k (initVfChan s.inits f)

end

/-- Settles O44: one update of every channel. -/
theorem pfInitialisation : Obligations.PfInitialisation := by
  intro s h
  refine ⟨_, step_hwInitPf h, rfl, rfl, hwInitPf_hasChan s, sameMem_of_eq rfl, rfl, fun f hf => ?_⟩
  rw [retire_chan, hwInitPf_chan hf]
  exact ⟨rfl, rfl, rfl, rfl, rfl, rfl, rfl, ⟨rfl, rfl, rfl, rfl, rfl, rfl, rfl, rfl, rfl, rfl, rfl⟩⟩

/-- Settles O45: one update of channel `f`. -/
theorem vfInitialisation : Obligations.VfInitialisation := by
  intro s f h
  refine ⟨_, step_hwInitVf h, rfl, rfl, rfl, hwInitVf_hasChan f s, fun k hk => hwInitVf_chan_other hk, sameMem_of_eq rfl, ?_⟩
  rw [retire_chan, hwInitVf_chan h.vfset]
  exact ⟨rfl, rfl, rfl, rfl, rfl, rfl, rfl, rfl, rfl, rfl, rfl, ⟨rfl, rfl, rfl, rfl, rfl, rfl, rfl⟩⟩

/-! ## Reset -/

/-- The reset channel satisfies its invariant, whatever the parameters and the function. -/
theorem chanInv_reset (cfg : Config.Params) (f : FuncId) : ChanInv cfg f Chan.reset where
  flags := by simp [Chan.reset]
  rxbufLen := List.length_replicate
  respLen := List.length_replicate
  sentLen := List.length_replicate
  vfRxbufLen := List.length_replicate
  req h := by cases h
  resp h := by cases h
  polls h := by cases h
  retries h := by cases h
  vfReq h := by cases h
  sent h := by cases h

/-- Settles O56: the one channel is reset and is not the PF's, the memory is empty. -/
theorem resetSatisfiesTheInvariant : Obligations.ResetSatisfiesTheInvariant where
  mem := reset_mem_wf
  slots p hp := by cases hp
  keys := List.nodup_singleton _
  pfNoChan := by decide
  chans p hp := by
    obtain rfl := List.mem_singleton.mp hp
    exact chanInv_reset _ _

end Sys2Proof.Machine
end

section
/-! What one step can do, said once (spec/10_state.md section 5, spec/60_exceptions.md R307): on the flags of a channel, on the dispatch
machine of a channel, on the requester of a channel and on the memory. The statements on every step are read off this. -/

namespace Sys2Proof.Machine

open Sys2Proof

/-! ## The effect of a step on one channel -/

/-- The transitions of function `f` whose handshakes can fail (R257). -/
def MayFault (a : Action) (f : FuncId) : Prop :=
  ∃ hs hs', a = .accept f hs ∨ a = .respond f hs ∨ a = .busyReject f hs hs'

/-- What any step does to the flags: it sets no second flag (R43), and unless a handshake fails a pending frame stays outstanding
(R44). -/
structure FlagMove (a : Action) (c d : Chan) : Prop where
  exclusive : d.pend = true → d.ack = true → c.pend = true ∧ c.ack = true
  tracked : noHsFail a = true → ¬(c.pend = true ∧ c.ack = true) → (c.pend = true → c.outstanding = true) →
    d.pend = true → d.outstanding = true

/-- The three buffers of the dispatch machine are unchanged. -/
structure SameBuffers (c d : Chan) : Prop where
  rxbuf : d.rxbuf = c.rxbuf
  req : d.req = c.req
  resp : d.resp = c.resp

/-- What a step of the PF does to the dispatch machine of function `k` (R235). -/
inductive MachineMove (s : State) (a : Action) (k : FuncId) (c d : Chan) : Prop where
  | keep (state : d.dstate = c.dstate) (buffers : SameBuffers c d)
  | accepted (before : c.dstate = .idle) (state : d.dstate = .decoding) (rxbuf : d.rxbuf.length = 32) (resp : d.resp = c.resp)
  | latched (before : c.dstate = .decoding) (state : d.dstate = .executing) (req : d.req.dir = .req ∧ WellFormed d.req)
      (rxbuf : d.rxbuf = c.rxbuf) (resp : d.resp = c.resp)
  | answered (before : c.dstate = .decoding ∨ c.dstate = .executing) (state : d.dstate = .responding)
      (resp : IsReply s.cfg.pfFuncId k d.resp) (rxbuf : d.rxbuf = c.rxbuf)
  | returned (before : c.dstate = .responding) (state : d.dstate = .idle) (buffers : SameBuffers c d)
  | faulted (before : c.dstate ≠ .faulted) (state : d.dstate = .faulted) (cause : MayFault a k) (buffers : SameBuffers c d)
  | initialised (cause : keepsService a = false) (state : d.dstate = .idle) (rxbuf : d.rxbuf.length = 32)
      (resp : d.resp.length = 32)

/-- What a step of the PF does to channel `k` (R307). -/
structure PfMove (s : State) (a : Action) (k : FuncId) (c d : Chan) : Prop where
  side : SameVfSide c d
  pend : d.pend = true → c.pend = true
  outstanding : d.outstanding = true → c.outstanding = true
  flags : FlagMove a c d
  machine : MachineMove s a k c d

/-- What a step of VF `k` does to its requester (spec/46_vf_requester.md). -/
inductive RequesterMove (s : State) (k : FuncId) (c d : Chan) : Prop where
  | keep (state : d.vstate = c.vstate) (sent : d.sent = c.sent) (req : d.vfReq = c.vfReq) (polls : d.vfPolls = c.vfPolls)
      (retries : d.vfRetry = c.vfRetry)
  | ended (state : d.vstate = .idle) (sent : d.sent = c.sent ∨ d.sent.length = 32)
  | started (before : c.vstate = .idle) (sent : compose s.cfg.ops (d.vfReq.withHeader (requestHeader s k)) = .ok d.sent)
      (polls : d.vfPolls ≤ s.cfg.pollMax) (retries : d.vfRetry = 0)
  | polled (before : c.vstate = .wait) (sent : d.sent = c.sent) (req : d.vfReq = c.vfReq) (polls : d.vfPolls ≤ s.cfg.pollMax)
      (retries : d.vfRetry = c.vfRetry)
  | retried (before : c.vstate = .wait) (req : d.vfReq = c.vfReq)
      (sent : compose s.cfg.ops (c.vfReq.withHeader (requestHeader s k)) = .ok d.sent)
      (polls : d.vfPolls ≤ s.cfg.pollMax) (retries : d.vfRetry ≤ s.cfg.retryMax)
  /-- V5 "cannot fail" under the invariant (R282) -/
  | uncomposed (before : c.vstate = .wait) (e : Err)
      (sent : compose s.cfg.ops (c.vfReq.withHeader (requestHeader s k)) = .error e)

/-- What a step of VF `k` does to its channel (R307). -/
structure VfMove (s : State) (a : Action) (k : FuncId) (c d : Chan) : Prop where
  side : SamePfSide c d
  ack : d.ack = true → c.ack = true
  flags : FlagMove a c d
  vfRxbuf : d.vfRxbuf = c.vfRxbuf ∨ d.vfRxbuf.length = 32
  requester : RequesterMove s k c d

/-- What a step does to channel `k`: it is the PF's, or it is VF `k`'s. -/
inductive Move (s : State) (a : Action) (k : FuncId) (c d : Chan) : Prop where
  | pf (side : sideOf a = .pf) (move : PfMove s a k c d)
  | vf (side : sideOf a = .vf k) (move : VfMove s a k c d)

/-- What a step other than power-on reset leaves: the parameters and `VFSET`, at most one slot written, which is the VF's own if a VF
took the step, and on every channel a move of the side that took the step. -/
structure Effect (s : State) (a : Action) (t : State) : Prop where
  cfg : t.cfg = s.cfg
  keys : t.chans.map Prod.fst = s.chans.map Prod.fst
  mem : t.mem = s.mem ∨
    ∃ f x, s.hasChan f = true ∧ (sideOf a = .pf ∨ sideOf a = .vf f) ∧ x.length = 32 ∧ t.mem = writeSlot s.mem f x
  moves : ∀ k, t.chan k = s.chan k ∨ (s.hasChan k = true ∧ Move s a k (s.chan k) (t.chan k))

/-! ## Building an effect -/

theorem hasChan_iff_mem_keys {s : State} {k : FuncId} : s.hasChan k = true ↔ k ∈ s.chans.map Prod.fst := by
  rw [State.hasChan]
  induction s.chans with
  | nil => simp [findChan]
  | cons p rest ih =>
    by_cases hk : p.1 = k
    · simp [findChan, hk]
    · simp [findChan, hk, ih, Ne.symm hk]

theorem hasChan_of_keys {s t : State} (h : t.chans.map Prod.fst = s.chans.map Prod.fst) (k : FuncId) :
    t.hasChan k = s.hasChan k := by
  rw [Bool.eq_iff_iff, hasChan_iff_mem_keys, hasChan_iff_mem_keys, h]

section
variable {s t : State} {a : Action} {f : FuncId} {c d : Chan} {u : Chan → Chan}

theorem Effect.hasChan (h : Effect s a t) (k : FuncId) : t.hasChan k = s.hasChan k := hasChan_of_keys h.keys k

theorem Move.side (h : Move s a f c d) : sideOf a = .pf ∨ sideOf a = .vf f := by
  cases h with
  | pf side => exact .inl side
  | vf side => exact .inr side

theorem Effect.refl (s : State) (a : Action) : Effect s a s := ⟨rfl, rfl, .inl rfl, fun _ => .inl rfl⟩

theorem Effect.retire (h : Effect s a t) (r : Result) (p : Option PrivCall) : Effect s a (t.retire r p) :=
  ⟨h.cfg, h.keys, h.mem, h.moves⟩

/-- A write of a slot. -/
theorem Effect.write (h : Effect s a t) (hf : s.hasChan f = true) (hside : sideOf a = .pf ∨ sideOf a = .vf f) {x : Frame}
    (hx : x.length = 32) : Effect s a { t with mem := writeSlot s.mem f x } :=
  ⟨h.cfg, h.keys, .inr ⟨f, x, hf, hside, hx, rfl⟩, h.moves⟩

/-- An update of one channel, whose move is measured from the start of the step. -/
theorem Effect.updChan (h : Effect s a t) (hf : s.hasChan f = true) (hm : Move s a f (s.chan f) (u (t.chan f))) :
    Effect s a (t.updChan f u) where
  cfg := h.cfg
  keys := (updChan_keys t f u).trans h.keys
  mem := h.mem
  moves k := by
    by_cases hk : k = f
    · subst hk
      rw [updChan_chan_same t k u ((h.hasChan k).trans hf)]
      exact .inr ⟨hf, hm⟩
    · rw [updChan_chan_other t f k u hk]
      exact h.moves k

theorem chan_of_absent {k : FuncId} (h : s.hasChan k = false) : s.chan k = Chan.reset := by
  simp only [State.hasChan, Option.isSome_eq_false_iff, Option.isNone_iff_eq_none] at h
  rw [State.chan, h]
  rfl

/-- An update of every channel. -/
theorem effect_updAll {u : FuncId → Chan → Chan} (hm : ∀ k, Move s a k (s.chan k) (u k (s.chan k))) :
    Effect s a (s.updAll u) where
  cfg := rfl
  keys := updAll_keys s u
  mem := .inl rfl
  moves k := by
    cases hk : s.hasChan k with
    | true => rw [updAll_chan s k u hk]; exact .inr ⟨rfl, hm k⟩
    | false => rw [chan_of_absent hk, chan_of_absent ((updAll_hasChan s k u).trans hk)]; exact .inl rfl

end

end Sys2Proof.Machine
end

section
/-! The effect of each operation and of each transition, from the list of its cases. -/

namespace Sys2Proof.Machine

open Sys2Proof

section
variable {s t : State} {a : Action} {f : FuncId} {c d : Chan} {hs hs' : Bool} {x : Frame}

/-! ## The moves of the flags -/

theorem FlagMove.keep (hp : d.pend = c.pend) (ha : d.ack = c.ack) (ho : d.outstanding = c.outstanding) : FlagMove a c d where
  exclusive h h' := ⟨hp ▸ h, ha ▸ h'⟩
  tracked _ _ h h' := by rw [ho]; exact h (hp ▸ h')

/-- No frame is pending after the step. -/
theorem FlagMove.notPending (hp : d.pend = false) : FlagMove a c d where
  exclusive h := by simp [hp] at h
  tracked _ _ _ h := by simp [hp] at h

/-- A VF's `send`, which sets `PEND` and `OUTSTANDING` together. -/
theorem FlagMove.outstanding (ha : d.ack = false) (ho : d.outstanding = true) : FlagMove a c d where
  exclusive _ h := by simp [ha] at h
  tracked _ _ _ _ := ho

/-- A VF's `receive`: no frame is pending beside the acknowledged one. -/
theorem FlagMove.received (hc : c.ack = true) (hp : d.pend = c.pend) (ha : d.ack = false) : FlagMove a c d where
  exclusive _ h := by simp [ha] at h
  tracked _ hx _ h := absurd ⟨hp ▸ h, hc⟩ hx

/-- A `clear_ack` whose handshake fails before the flags are written. -/
theorem FlagMove.failed (ha : noHsFail a = false) (hp : d.pend = c.pend) (hack : d.ack = c.ack) : FlagMove a c d where
  exclusive h h' := ⟨hp ▸ h, hack ▸ h'⟩
  tracked h := by simp [ha] at h

/-! ## The handshake (R207 to R214) -/

theorem sendVf_effect (hf : s.hasChan f = true) : Effect s (.sendVf f x hs) (sendVf f x hs s).1 := by
  rcases sendVf_cases f x hs s with ⟨-, he⟩ | ⟨-, -, he⟩ | ⟨hx, -, -, -, -, he⟩ | ⟨hx, -, -, ha, -, he⟩ <;> simp only [he]
  · exact .refl _ _
  · exact .refl _ _
  · exact .write (.refl _ _) hf (.inr rfl) hx
  · refine .updChan (.write (.refl _ _) hf (.inr rfl) hx) hf (.vf rfl ?_)
    exact ⟨by constructor <;> rfl, id, .outstanding ha rfl, .inl rfl, .keep rfl rfl rfl rfl rfl⟩

theorem sendPf_effect (ha : sideOf a = .pf) : Effect s a (sendPf x hs s).1 := by
  rcases sendPf_cases x hs s with
    ⟨-, he⟩ | ⟨-, -, he⟩ | ⟨-, -, -, he⟩ | ⟨hx, hf, hp, -, -, he⟩ | ⟨hx, hf, hp, -, -, he⟩ <;> simp only [he]
  · exact .refl _ _
  · exact .refl _ _
  · exact .refl _ _
  all_goals
    refine .updChan (.write (.refl _ _) hf (.inl ha) hx) hf (.pf ha ?_)
    exact ⟨by constructor <;> rfl, id, id, .notPending hp, .keep rfl ⟨rfl, rfl, rfl⟩⟩

/-- What `send(PF, x)` makes of a channel, whichever channel the frame names. -/
theorem sendPf_chan (f : FuncId) : (sendPf x hs s).1.chan f = s.chan f ∨
    ((s.chan f).pend = false ∧ ∃ b, (sendPf x hs s).1.chan f = { s.chan f with ackShadow := true, ack := b }) := by
  rcases sendPf_cases x hs s with
    ⟨-, he⟩ | ⟨-, -, he⟩ | ⟨-, -, -, he⟩ | ⟨-, hf, hp, -, -, he⟩ | ⟨-, hf, hp, -, -, he⟩ <;> simp only [he]
  · exact .inl trivial
  · exact .inl trivial
  · exact .inl trivial
  all_goals
    by_cases hk : f = dstChan x
    · subst hk
      exact .inr ⟨hp, _, updChan_chan_same _ _ _ hf⟩
    · exact .inl (updChan_chan_other _ _ _ _ hk)

theorem receivePf_effect (hf : s.hasChan f = true) : Effect s (.receivePf f hs) (receivePf f hs s).1 := by
  rcases receivePf_cases f hs s with ⟨-, he⟩ | ⟨-, -, he⟩ | ⟨-, -, he⟩ <;> simp only [he]
  · exact .refl _ _
  all_goals refine .updChan (.refl _ _) hf (.pf rfl ?_)
  · exact ⟨by constructor <;> rfl, id, id, .keep rfl rfl rfl, .keep rfl ⟨rfl, rfl, rfl⟩⟩
  · exact ⟨by constructor <;> rfl, nofun, id, .notPending rfl, .keep rfl ⟨rfl, rfl, rfl⟩⟩

theorem receiveVf_effect (hf : s.hasChan f = true) : Effect s (.receiveVf f hs) (receiveVf f hs s).1 := by
  rcases receiveVf_cases f hs s with ⟨-, he⟩ | ⟨-, -, he⟩ | ⟨ha, -, he⟩ <;> simp only [he]
  · exact .refl _ _
  · exact .refl _ _
  · refine .updChan (.refl _ _) hf (.vf rfl ?_)
    exact ⟨by constructor <;> rfl, nofun, .received ha rfl rfl, .inr (frameOf_length _), .keep rfl rfl rfl rfl rfl⟩

theorem clearAckPf_effect (hf : s.hasChan f = true) : Effect s (.clearAckPf f hs) (clearAckPf f hs s).1 := by
  rcases clearAckPf_cases f hs s with ⟨rfl, he⟩ | ⟨rfl, he⟩ <;> simp only [he] <;>
    refine .updChan (.refl _ _) hf (.pf rfl ?_)
  · exact ⟨by constructor <;> rfl, id, nofun, .failed rfl rfl rfl, .keep rfl ⟨rfl, rfl, rfl⟩⟩
  · exact ⟨by constructor <;> rfl, nofun, nofun, .notPending rfl, .keep rfl ⟨rfl, rfl, rfl⟩⟩

theorem clearAckVf_effect (hf : s.hasChan f = true) : Effect s (.clearAckVf f hs) (clearAckVf f hs s).1 := by
  rcases clearAckVf_cases f hs s with ⟨rfl, he⟩ | ⟨rfl, he⟩ <;> simp only [he] <;>
    refine .updChan (.refl _ _) hf (.vf rfl ?_)
  · exact ⟨by constructor <;> rfl, id, .failed rfl rfl rfl, .inl rfl, .keep rfl rfl rfl rfl rfl⟩
  · exact ⟨by constructor <;> rfl, nofun, .notPending rfl, .inl rfl, .keep rfl rfl rfl rfl rfl⟩

/-! ## The enables, the initialisations and the grants -/

theorem setIntrPf_effect (ha : sideOf a = .pf) (b : Bool) (s : State) : Effect s a (setIntrPf b s) :=
  effect_updAll fun _ => .pf ha
    ⟨by constructor <;> rfl, id, id, .keep rfl rfl rfl, .keep rfl ⟨rfl, rfl, rfl⟩⟩

theorem setIntrVf_effect (hf : s.hasChan f = true) (ha : sideOf a = .vf f) (b : Bool) : Effect s a (setIntrVf f b s) :=
  .updChan (.refl _ _) hf <| .vf ha
    ⟨by constructor <;> rfl, id, .keep rfl rfl rfl, .inl rfl, .keep rfl rfl rfl rfl rfl⟩

theorem hwInitPf_effect (s : State) : Effect s (.hwInit .pf) (hwInitPf s) := by
  have h : Effect s (.hwInit .pf) (s.updAll (initPfChan s.inits)) := effect_updAll fun _ => .pf rfl
    ⟨by constructor <;> rfl, nofun, nofun, .notPending rfl, .initialised rfl rfl (frameOf_length _) (frameOf_length _)⟩
  exact ⟨h.cfg, h.keys, h.mem, h.moves⟩

theorem hwInitVf_effect (hf : s.hasChan f = true) : Effect s (.hwInit (.vf f)) (hwInitVf f s) := by
  have h : Effect s (.hwInit (.vf f)) (s.updChan f (initVfChan s.inits f)) := .updChan (.refl _ _) hf <| .vf rfl
    ⟨by constructor <;> rfl, nofun, .notPending rfl, .inr (frameOf_length _), .ended rfl (.inr (frameOf_length _))⟩
  exact ⟨h.cfg, h.keys, h.mem, h.moves⟩

theorem setGrants_effect (ha : sideOf a = .pf) (s : State) (g : GrantTable) : Effect s a (s.setGrants g) :=
  effect_updAll fun _ => .pf ha
    ⟨by constructor <;> rfl, id, id, .keep rfl rfl rfl, .keep rfl ⟨rfl, rfl, rfl⟩⟩

/-! ## The dispatcher (T1 to T5) -/

theorem accept_effect (hf : s.hasChan f = true) : Effect s (.accept f hs) (accept f hs s).1 := by
  rcases accept_cases f hs s with ⟨-, he⟩ | ⟨hd, -, -, he⟩ | ⟨hd, -, -, he⟩ <;> simp only [he]
  · exact .refl _ _
  all_goals refine .updChan (.refl _ _) hf (.pf rfl ?_)
  · exact ⟨by constructor <;> rfl, id, id, .keep rfl rfl rfl,
      .faulted (by simp [hd]) rfl ⟨hs, hs, .inl rfl⟩ ⟨rfl, rfl, rfl⟩⟩
  · exact ⟨by constructor <;> rfl, nofun, id, .notPending rfl, .accepted hd rfl (frameOf_length _) rfl⟩

/-- A response is ready for a function that was decoding or executing, whose grant may have changed in the step (R238, R240). -/
theorem Effect.respondWith (h : Effect s a t) (hf : s.hasChan f = true) (ha : sideOf a = .pf)
    (hd : (s.chan f).dstate = .decoding ∨ (s.chan f).dstate = .executing)
    (ht : ∃ gr, t.chan f = { s.chan f with grant := gr }) (hx : IsReply s.cfg.pfFuncId f x) :
    Effect s a (t.respondWith f x) := by
  obtain ⟨gr, hchan⟩ := ht
  refine .updChan h hf (.pf ha ?_)
  rw [hchan]
  exact ⟨by constructor <;> rfl, id, id, .keep rfl rfl rfl, .answered hd rfl hx rfl⟩

theorem respond_effect (hf : s.hasChan f = true) : Effect s (.respond f hs) (respond f hs s).1 := by
  by_cases hd : (s.chan f).dstate = .responding
  swap
  · simp only [respond, if_neg hd]
    exact .refl _ _
  have hsent : Effect s (.respond f hs) (sendPf (s.chan f).resp hs s).1 := sendPf_effect rfl
  have hchan := sendPf_chan (s := s) (x := (s.chan f).resp) (hs := hs) f
  rcases hr : sendPf (s.chan f).resp hs s with ⟨t, e | _⟩ <;> rw [hr] at hsent hchan
  case ok =>
    simp only [respond, if_pos hd, hr]
    refine .updChan hsent hf (.pf rfl ?_)
    rcases hchan with hc | ⟨hp, b, hc⟩ <;> rw [hc]
    · exact ⟨by constructor <;> rfl, id, id, .keep rfl rfl rfl, .returned hd rfl ⟨rfl, rfl, rfl⟩⟩
    · exact ⟨by constructor <;> rfl, id, id, .notPending hp, .returned hd rfl ⟨rfl, rfl, rfl⟩⟩
  case error =>
    cases e with
    | hardwareFault =>
      simp only [respond, if_pos hd, hr]
      refine .updChan hsent hf (.pf rfl ?_)
      have hne : (s.chan f).dstate ≠ .faulted := by simp [hd]
      have hcause : MayFault (.respond f hs) f := ⟨hs, hs, .inr (.inl rfl)⟩
      rcases hchan with hc | ⟨hp, b, hc⟩ <;> rw [hc]
      · exact ⟨by constructor <;> rfl, id, id, .keep rfl rfl rfl, .faulted hne rfl hcause ⟨rfl, rfl, rfl⟩⟩
      · exact ⟨by constructor <;> rfl, id, id, .notPending hp, .faulted hne rfl hcause ⟨rfl, rfl, rfl⟩⟩
    | _ => simp only [respond, if_pos hd, hr]; exact hsent

theorem busyReject_effect (hf : s.hasChan f = true) : Effect s (.busyReject f hs hs') (busyReject f hs hs' s).1 := by
  have hlen := statusRsp_length s.cfg.pfFuncId f (opcOf (readSlot s.mem f)) (tagOf (readSlot s.mem f)) statusBusy
  have hne (h : busy f s = true) : (s.chan f).dstate ≠ .faulted := by
    intro hd
    simp [busy, hd] at h
  have hcause : MayFault (.busyReject f hs hs') f := ⟨hs, hs', .inr (.inr rfl)⟩
  have hcases := busyReject_cases f hs hs' s hf
  generalize statusRsp _ _ _ _ _ = b at hlen hcases
  rcases hcases with ⟨-, he⟩ | ⟨hb, -, -, he⟩ | ⟨hb, -, -, -, he⟩ | ⟨-, -, -, -, he⟩ <;> simp only [he]
  · exact .refl _ _
  · refine .updChan (.refl _ _) hf (.pf rfl ?_)
    exact ⟨by constructor <;> rfl, id, id, .keep rfl rfl rfl, .faulted (hne hb) rfl hcause ⟨rfl, rfl, rfl⟩⟩
  all_goals refine .updChan (.write (.refl _ _) hf (.inl rfl) hlen) hf (.pf rfl ?_)
  · exact ⟨by constructor <;> rfl, nofun, id, .notPending rfl, .faulted (hne hb) rfl hcause ⟨rfl, rfl, rfl⟩⟩
  · exact ⟨by constructor <;> rfl, nofun, id, .notPending rfl, .keep rfl ⟨rfl, rfl, rfl⟩⟩

/-- T2 (R238). -/
theorem decode_effect (h : Due (.decode f) f s) (ht : step s = .next t) : Effect s (.decode f) t := by
  by_cases hd : (s.chan f).dstate = .decoding
  · rcases parses_request_or_rejected s.cfg.ops (s.chan f).rxbuf with ⟨m, hp, hm⟩ | hp
    · cases (step_decode_request h hd hp hm).symm.trans ht
      refine .retire (.updChan (.refl _ _) h.vfset (.pf rfl ?_)) _ _
      exact ⟨by constructor <;> rfl, id, id, .keep rfl rfl rfl, .latched hd rfl ⟨hm, parse_wellFormed hp⟩ rfl rfl⟩
    · cases (step_decode_rejected h hd hp).symm.trans ht
      exact .retire (.respondWith (.refl _ _) h.vfset rfl (.inl hd) ⟨_, rfl⟩ (malformedRsp_echoes _ _ _).isReply) _ _
  · have hoff : stageOf s = .off := by
      rw [stageOf_eq h.head]
      simp only [h.vfset, if_true, if_neg hd]
    cases (step_channel h hoff rfl).symm.trans ht
    exact .retire (.refl _ _) _ _

/-- T3 on a latched response, which the invariant excludes, answers it as malformed. -/
theorem exec_execute_response {i : Instr} {p : PrivAnswer} {g : GrantTable} (hi : i.dir = .rsp) (h : Due (.execute f p g) f s)
    (hd : (s.chan f).dstate = .executing) :
    exec i s = .next ((s.takeStatus f (i.op.code s.cfg.ops) i.header.tag.toNat statusMalformed).retire .ok none) := by
  obtain ⟨view, hexec⟩ := exec_response hi
  rw [hexec, runResponse, stageOf_execute h hd]

/-- T3 (R240). -/
theorem execute_effect {p : PrivAnswer} {g : GrantTable} (h : Due (.execute f p g) f s) (ht : step s = .next t) :
    Effect s (.execute f p g) t := by
  by_cases hd : (s.chan f).dstate = .executing
  swap
  · cases (step_execute_off h hd).symm.trans ht
    exact .retire (.refl _ _) _ _
  rw [step_execute h hd] at ht
  cases hi : (s.chan f).req.dir with
  | req =>
    cases (exec_execute hi h hd).symm.trans ht
    have hx := (answerRequest_echoes s.cfg f (s.chan f).grant (s.chan f).req p).isReply
    rw [answeredState]
    refine .retire ?_ _ _
    split
    · exact .respondWith (setGrants_effect rfl s g) h.vfset rfl (.inr hd) ⟨_, setGrants_chan s g f h.vfset⟩ hx
    · exact .respondWith (.refl _ _) h.vfset rfl (.inr hd) ⟨_, rfl⟩ hx
  | rsp =>
    cases (exec_execute_response hi h hd).symm.trans ht
    exact .retire (.respondWith (.refl _ _) h.vfset rfl (.inr hd) ⟨_, rfl⟩
      (statusRsp_echoes _ _ _ _ (by decide) (by decide)).isReply) _ _

/-- The host's call (R305; log 24). -/
theorem handleRequest_effect {p : PrivAnswer} {g : GrantTable} (h : Due (.handleRequest f x p g) f s) (ht : step s = .next t) :
    Effect s (.handleRequest f x p g) t := by
  by_cases hx : x.length = 32
  · cases (step_handleRequest h hx).symm.trans ht
    refine .retire ?_ _ _
    split
    · exact setGrants_effect rfl s g
    · exact .refl _ _
  · cases (step_handleRequest_wrongLength hx h).symm.trans ht
    exact .retire (.refl _ _) _ _

/-! ## The requester (V1 to V6) -/

theorem SamePfSide.trans {e : Chan} (h : SamePfSide c d) (h' : SamePfSide d e) : SamePfSide c e :=
  ⟨h'.dstate.trans h.dstate, h'.rxbuf.trans h.rxbuf, h'.req.trans h.req, h'.resp.trans h.resp,
    h'.ackShadow.trans h.ackShadow, h'.intrEnPf.trans h.intrEnPf, h'.grant.trans h.grant⟩

/-- V1's drain (R278). -/
theorem afterDrain_move : VfMove s a f (s.chan f) (afterDrain s f (s.chan f)) := by
  by_cases hs : (s.chan f).ack = true ∧ (s.chan f).outstanding = false
  · rw [afterDrain_of_stale hs]
    exact ⟨by constructor <;> rfl, nofun, .received hs.1 rfl rfl, .inr (frameOf_length _), .keep rfl rfl rfl rfl rfl⟩
  · rw [afterDrain_of_not_stale hs]
    exact ⟨by constructor <;> rfl, id, .keep rfl rfl rfl, .inl rfl, .keep rfl rfl rfl rfl rfl⟩

theorem start_effect {req : Request} (hf : s.hasChan f = true) :
    Effect s (.start f req hs hs') (start f req hs hs' s).1 := by
  rcases start_cases f req hs hs' s hf with
    ⟨-, he⟩ | ⟨hv, ⟨-, he⟩ | ⟨-, ⟨e, -, he⟩ | ⟨x, hc, ⟨-, -, he⟩ |
      ⟨-, ⟨-, he⟩ | ⟨-, -, ha, -, he⟩ | ⟨-, -, ha, -, he⟩⟩⟩⟩⟩ <;> simp only [he]
  · exact .refl _ _
  · exact .refl _ _
  · exact .refl _ _
  · exact .refl _ _
  · exact .updChan (.refl _ _) hf (.vf rfl afterDrain_move)
  all_goals
    have hdrain := afterDrain_move (s := s) (f := f) (a := .start f req hs hs')
    refine .updChan (.write (.refl _ _) hf (.inr rfl) (compose_length hc)) hf (.vf rfl ?_)
  · exact ⟨hdrain.side.trans (by constructor <;> rfl), hdrain.ack, ⟨hdrain.flags.exclusive, hdrain.flags.tracked⟩,
      hdrain.vfRxbuf, .started hv hc le_rfl rfl⟩
  · exact ⟨hdrain.side.trans (by constructor <;> rfl), hdrain.ack, .outstanding ha rfl, hdrain.vfRxbuf,
      .started hv hc (Nat.zero_le _) rfl⟩

theorem poll_effect (hf : s.hasChan f = true) : Effect s (.poll f hs) (poll f hs s).1 := by
  rcases poll_cases f hs s with
    ⟨-, he⟩ | ⟨⟨hv, hpolls⟩, ⟨-, he⟩ | ⟨-, -, he⟩ | ⟨ha, -, -, he⟩ | ⟨ha, -, -, he⟩⟩ <;> simp only [he]
  · exact .refl _ _
  all_goals refine .updChan (.refl _ _) hf (.vf rfl ?_)
  · exact ⟨by constructor <;> rfl, id, .keep rfl rfl rfl, .inl rfl, .polled hv rfl rfl hpolls rfl⟩
  · exact ⟨by constructor <;> rfl, id, .keep rfl rfl rfl, .inl rfl, .polled hv rfl rfl le_rfl rfl⟩
  · exact ⟨by constructor <;> rfl, nofun, .received ha rfl rfl, .inr (frameOf_length _), .ended rfl (.inl rfl)⟩
  · exact ⟨by constructor <;> rfl, nofun, .received ha rfl rfl, .inr (frameOf_length _), .polled hv rfl rfl hpolls rfl⟩

theorem giveUp_effect (hf : s.hasChan f = true) : Effect s (.giveUp f hs) (giveUp f hs s).1 := by
  rcases giveUp_cases f hs s hf with ⟨-, he⟩ | ⟨-, ⟨rfl, he⟩ | ⟨-, -, he⟩ | ⟨-, -, he⟩⟩ <;> simp only [he]
  · exact .refl _ _
  all_goals refine .updChan (.refl _ _) hf (.vf rfl ?_)
  · exact ⟨by constructor <;> rfl, id, .failed rfl rfl rfl, .inl rfl, .ended rfl (.inl rfl)⟩
  all_goals exact ⟨by constructor <;> rfl, nofun, .notPending rfl, .inl rfl, .ended rfl (.inl rfl)⟩

/-- V5 when the request does not compose, which the invariant excludes. -/
theorem retry_of_error {e : Err} (hf : s.hasChan f = true)
    (hc : compose s.cfg.ops ((s.chan f).vfReq.withHeader (requestHeader s f)) = .error e)
    (hw : waitOver f s = true ∧ (s.chan f).vfRetry < s.cfg.retryMax) :
    retry f hs hs' s = (s.updChan f fun c => { afterExpire hs c with vfRetry := c.vfRetry + 1 }, .error e) := by
  have hexpire : (expire f hs s).updChan f (fun c => { c with vfRetry := c.vfRetry + 1 }) =
      s.updChan f fun c => { afterExpire hs c with vfRetry := c.vfRetry + 1 } := by
    rcases expire_cases f hs s with ⟨rfl, he⟩ | ⟨rfl, he⟩ <;> rw [he, updChan_updChan] <;> rfl
  have hchan : (s.updChan f fun c => { afterExpire hs c with vfRetry := c.vfRetry + 1 }).chan f =
      { afterExpire hs (s.chan f) with vfRetry := (s.chan f).vfRetry + 1 } := updChan_chan_same _ _ _ hf
  have hcompose : compose s.cfg.ops
      ((afterExpire hs (s.chan f)).vfReq.withHeader
        ⟨(afterExpire hs (s.chan f)).tagNext.toNat, f.toNat, s.cfg.pfFuncId.toNat⟩) = .error e := by
    cases hs <;> exact hc
  simp only [retry, if_pos hw, hexpire, hchan, requestHeader, updChan_cfg, hcompose]

/-- The `clear_ack` of V5 (R281, R282). -/
theorem afterExpire_move (hs hs' : Bool) (c : Chan) : VfMove s (.retry f hs hs') f c (afterExpire hs c) := by
  cases hs with
  | true => exact ⟨by constructor <;> rfl, id, .failed rfl rfl rfl, .inl rfl, .keep rfl rfl rfl rfl rfl⟩
  | false => exact ⟨by constructor <;> rfl, nofun, .notPending rfl, .inl rfl, .keep rfl rfl rfl rfl rfl⟩

theorem retry_effect (hf : s.hasChan f = true) : Effect s (.retry f hs hs') (retry f hs hs' s).1 := by
  by_cases hw : waitOver f s = true ∧ (s.chan f).vfRetry < s.cfg.retryMax
  swap
  · simp only [retry, if_neg hw]
    exact .refl _ _
  have hv : (s.chan f).vstate = .wait := (waitOver_iff.mp hw.1).1
  have hexpire := afterExpire_move (s := s) (f := f) hs hs' (s.chan f)
  have hreq : (afterExpire hs (s.chan f)).vfReq = (s.chan f).vfReq := by cases hs <;> rfl
  cases hc : compose s.cfg.ops ((s.chan f).vfReq.withHeader (requestHeader s f)) with
  | error e =>
    simp only [retry_of_error hf hc hw]
    refine .updChan (.refl _ _) hf (.vf rfl ?_)
    exact ⟨hexpire.side.trans (by constructor <;> rfl), hexpire.ack, ⟨hexpire.flags.exclusive, hexpire.flags.tracked⟩,
      hexpire.vfRxbuf, .uncomposed hv e hc⟩
  | ok x =>
    rcases retry_cases f hs hs' s hf hc with ⟨hoff, -⟩ | ⟨-, ⟨-, -, he⟩ | ⟨-, -, he⟩ | ⟨hfree, -, he⟩⟩
    · exact absurd hw hoff
    · simp only [he]
      refine .updChan (.refl _ _) hf (.vf rfl ?_)
      exact ⟨hexpire.side.trans (by constructor <;> rfl), hexpire.ack, ⟨hexpire.flags.exclusive, hexpire.flags.tracked⟩,
        hexpire.vfRxbuf, .retried hv hreq hc le_rfl hw.2⟩
    all_goals
      simp only [he]
      refine .updChan (.write (.refl _ _) hf (.inr rfl) (compose_length hc)) hf (.vf rfl ?_)
    · exact ⟨hexpire.side.trans (by constructor <;> rfl), hexpire.ack, ⟨hexpire.flags.exclusive, hexpire.flags.tracked⟩,
        hexpire.vfRxbuf, .retried hv hreq hc le_rfl hw.2⟩
    · have hack : (afterExpire hs (s.chan f)).ack = false := by rw [afterExpire_of_free hfree]
      exact ⟨hexpire.side.trans (by constructor <;> rfl), hexpire.ack, .outstanding hack rfl, hexpire.vfRxbuf,
        .retried hv hreq hc (Nat.zero_le _) hw.2⟩

/-! ## Every step -/

/-- A pure operation only returns a result. -/
theorem step_neither (h : s.sched.head? = some a) (hside : sideOf a = .neither) (ha : a ≠ .powerOn) :
    ∃ r, step s = .next (s.retire r none) := by
  cases a with
  | compose m | parse x | parseAs op d x | isResponse x y | status x =>
    rw [step_own h (by simp) (by simp) (by simp)]
    simp only [agentStep]
    split <;> exact ⟨_, rfl⟩
  | get g x => exact ⟨_, step_own h (by simp) (by simp) (by simp)⟩
  | powerOn => exact absurd rfl ha
  | enableInterrupts r | disableInterrupts r | hwInit r => cases r <;> cases hside
  | _ => cases hside

/-- Reading a response only returns a result (R286). -/
theorem step_readResponse (h : Due (.readResponse f) f s) : ∃ r, step s = .next (s.retire r none) := by
  cases hp : parse s.cfg.ops (s.chan f).vfRxbuf with
  | error e => exact ⟨_, step_read_unparsed h hp⟩
  | ok i =>
    cases hi : i.dir with
    | req =>
      obtain ⟨allowed, reply, hexec⟩ := exec_request hi
      exact ⟨_, (step_read h hp).trans ((hexec s).trans (runRequest_read (stageOf_read h)))⟩
    | rsp =>
      obtain ⟨view, hexec⟩ := exec_response hi
      exact ⟨_, (step_read h hp).trans ((hexec s).trans (runResponse_read (stageOf_read h)))⟩

theorem Effect.of_step_eq {t' : State} {r : Result} (h : Effect s a t') (he : step s = .next (t'.retire r none))
    (ht : step s = .next t) : Effect s a t := by
  cases he.symm.trans ht
  exact h.retire _ _

/-- A step that answers a next state names a channel that exists, if it names one (R60). -/
theorem due_of_step (h : s.sched.head? = some a) (hc : channelOf a = some f) (ht : step s = .next t) : Due a f s := by
  refine ⟨h, ?_⟩
  cases hf : s.hasChan f with
  | true => rfl
  | false => cases (step_absent h hc hf).symm.trans ht

/-- The step of an operation on one channel. -/
theorem Effect.ofChannel {p : State × Result} (h : s.sched.head? = some a) (hc : channelOf a = some f)
    (hoff : stageOf s = .off) (ha : agentStep a s = onChannel f s p) (hp : s.hasChan f = true → Effect s a p.1)
    (ht : step s = .next t) : Effect s a t :=
  have hdue := due_of_step h hc ht
  .of_step_eq (hp hdue.vfset) (step_channel hdue hoff ha) ht

/-- What a step can do. -/
theorem step_effect (h : s.sched.head? = some a) (ha : a ≠ .powerOn) (ht : step s = .next t) : Effect s a t := by
  cases a with
  | compose m | parse x | parseAs op d x | isResponse x y | status x | get g x =>
    obtain ⟨r, he⟩ := step_neither h rfl ha
    exact .of_step_eq (.refl _ _) he ht
  | powerOn => exact absurd rfl ha
  | sendPf x hs => exact .of_step_eq (sendPf_effect rfl) (step_sendPf h rfl) ht
  | setGrants g => exact .of_step_eq (setGrants_effect rfl s g) (step_own h (by simp) (by simp) (by simp)) ht
  | enableInterrupts r =>
    cases r with
    | pf => exact .of_step_eq (setIntrPf_effect rfl true s) (step_enableInterrupts h) ht
    | vf f => exact .ofChannel h rfl (stageOf_eq h) rfl (fun hf => setIntrVf_effect hf rfl true) ht
  | disableInterrupts r =>
    cases r with
    | pf => exact .of_step_eq (setIntrPf_effect rfl false s) (step_disableInterrupts h) ht
    | vf f => exact .ofChannel h rfl (stageOf_eq h) rfl (fun hf => setIntrVf_effect hf rfl false) ht
  | hwInit r =>
    cases r with
    | pf => exact .of_step_eq (hwInitPf_effect s) (step_hwInitPf h) ht
    | vf f => exact .ofChannel h rfl (stageOf_eq h) rfl hwInitVf_effect ht
  | sendVf f x hs => exact .ofChannel h rfl (stageOf_eq h) rfl sendVf_effect ht
  | receivePf f hs => exact .ofChannel h rfl (stageOf_eq h) rfl receivePf_effect ht
  | receiveVf f hs => exact .ofChannel h rfl (stageOf_eq h) rfl receiveVf_effect ht
  | clearAckPf f hs => exact .ofChannel h rfl (stageOf_eq h) rfl clearAckPf_effect ht
  | clearAckVf f hs => exact .ofChannel h rfl (stageOf_eq h) rfl clearAckVf_effect ht
  | accept f hs => exact .ofChannel h rfl (stageOf_eq h) rfl accept_effect ht
  | decode f => exact decode_effect (due_of_step h rfl ht) ht
  | execute f x g => exact execute_effect (due_of_step h rfl ht) ht
  | handleRequest f y x g => exact handleRequest_effect (due_of_step h rfl ht) ht
  | respond f hs => exact .ofChannel h rfl (stageOf_eq h) rfl respond_effect ht
  | busyReject f hs hs' => exact .ofChannel h rfl (stageOf_eq h) rfl busyReject_effect ht
  | start f req hs hs' => exact .ofChannel h rfl (stageOf_eq h) rfl start_effect ht
  | poll f hs => exact .ofChannel h rfl (stageOf_eq h) rfl poll_effect ht
  | retry f hs hs' => exact .ofChannel h rfl (stageOf_eq h) rfl retry_effect ht
  | giveUp f hs => exact .ofChannel h rfl (stageOf_eq h) rfl giveUp_effect ht
  | readResponse f =>
    obtain ⟨r, he⟩ := step_readResponse (due_of_step h rfl ht)
    exact .of_step_eq (.refl _ _) he ht

end

end Sys2Proof.Machine
end

section
/-! Proofs of the statements on every step: what each side may write (spec/60_exceptions.md R307), the invariant and the flags
(spec/10_state.md R43, R44) and the calls of `PRIV` (spec/60_exceptions.md R309). -/

namespace Sys2Proof.Machine

open Sys2Proof

/-! ## What each side writes (R307) -/

section
variable {s t : State} {a : Action} {f : FuncId}

theorem sameVfSide_refl (c : Chan) : SameVfSide c c := by constructor <;> rfl

theorem samePfSide_refl (c : Chan) : SamePfSide c c := by constructor <;> rfl

theorem ne_powerOn_of_side (h : sideOf a ≠ .neither) : a ≠ .powerOn := fun ha => h (by rw [ha]; rfl)

/-- A step of the PF moves no channel but by the PF's moves. -/
theorem Effect.ofPf (h : Effect s a t) (ha : sideOf a = .pf) (k : FuncId) :
    t.chan k = s.chan k ∨ PfMove s a k (s.chan k) (t.chan k) := by
  rcases h.moves k with hk | ⟨-, hk⟩
  · exact .inl hk
  · cases hk with
    | pf _ move => exact .inr move
    | vf side => cases ha.symm.trans side

/-- A step of VF `f` moves no channel but its own, by the VF's moves. -/
theorem Effect.ofVf (h : Effect s a t) (ha : sideOf a = .vf f) (k : FuncId) :
    t.chan k = s.chan k ∨ (k = f ∧ VfMove s a k (s.chan k) (t.chan k)) := by
  rcases h.moves k with hk | ⟨-, hk⟩
  · exact .inl hk
  · cases hk with
    | pf side => cases ha.symm.trans side
    | vf side move => cases ha.symm.trans side; exact .inr ⟨rfl, move⟩

/-- A step of VF `f` writes no slot but its own (R64). -/
theorem Effect.sameMemBut (h : Effect s a t) (ha : sideOf a = .vf f) : SameMemBut f s t := by
  rcases h.mem with hm | ⟨k, x, -, hside, hx, hm⟩
  · exact fun b _ => by rw [hm]
  · rw [ha] at hside
    obtain rfl : f = k := by simpa using hside
    exact fun b hb => by rw [hm, read_writeSlot_other f hx b hb]

end

/-- Settles O59: the moves of each side. -/
theorem rolesWriteOnlyTheirState : Obligations.RolesWriteOnlyTheirState := by
  refine fun s t a h ht => ⟨fun hside f _ => ?pf, fun f hside => ?vf, fun hside ha => ?neither, fun g hg => ?grants⟩
  case pf =>
    have he := step_effect h (ne_powerOn_of_side (by simp [hside])) ht
    rcases he.ofPf hside f with hf | hf
    · rw [hf]
      exact ⟨sameVfSide_refl _, id, id⟩
    · exact ⟨hf.side, hf.pend, hf.outstanding⟩
  case vf =>
    have he := step_effect h (ne_powerOn_of_side (by simp [hside])) ht
    refine ⟨fun k hk => (he.ofVf hside k).resolve_right fun hm => hk hm.1, ?_, ?_, he.sameMemBut hside⟩ <;>
      rcases he.ofVf hside f with hf | ⟨-, hf⟩
    · rw [hf]; exact samePfSide_refl _
    · exact hf.side
    · rw [hf]; exact id
    · exact hf.ack
  case neither =>
    obtain ⟨r, he⟩ := step_neither h hside ha
    cases he.symm.trans ht
    exact ⟨rfl, rfl, rfl⟩
  case grants =>
    subst hg
    cases (step_own h (by simp) (by simp) (by simp)).symm.trans ht
    exact regranted_setGrants s g _ _

/-! ## The calls of `PRIV` (R309) -/

section
variable {s t : State} {a : Action} {f : FuncId} {i : Instr} {c : PrivCall}

theorem onChannel_priv {p : State × Result} (ht : onChannel f s p = .next t) : t.priv = none := by
  cases hf : s.hasChan f with
  | true => rw [onChannel_of hf] at ht; cases ht; rfl
  | false => rw [onChannel_absent hf] at ht; cases ht

/-- Of the agents' own steps only the host's `handle_request` can call `PRIV`. -/
theorem agentStep_priv (ha : ∀ f y p g, a ≠ .handleRequest f y p g) (ht : agentStep a s = .next t) : t.priv = none := by
  cases a with
  | enableInterrupts r | disableInterrupts r | hwInit r =>
    cases r with
    | pf => cases ht; rfl
    | vf f => exact onChannel_priv ht
  | handleRequest f y p g => exact absurd rfl (ha f y p g)
  | sendPf x hs | setGrants g | get g x | powerOn => cases ht; rfl
  | compose m | parse x | parseAs op d x | isResponse x y | status x =>
    simp only [agentStep] at ht
    split at ht <;> cases ht <;> rfl
  | _ => exact onChannel_priv ht

/-- The meaning of a message calls `PRIV` in T3 alone. -/
theorem exec_priv (hs : ∀ f p g, stageOf s ≠ .execute f p g) (ht : exec i s = .next t) : t.priv = none := by
  cases hi : i.dir with
  | req =>
    obtain ⟨allowed, reply, he⟩ := exec_request hi
    rw [he, runRequest] at ht
    cases hstage : stageOf s with
    | execute f p g => exact absurd hstage (hs f p g)
    | _ => rw [hstage] at ht; cases ht <;> rfl
  | rsp =>
    obtain ⟨view, he⟩ := exec_response hi
    rw [he, runResponse] at ht
    cases hstage : stageOf s with
    | _ => rw [hstage] at ht; cases ht <;> rfl

theorem stageOf_ne_execute (h : s.sched.head? = some a) (ha : ∀ f p g, a ≠ .execute f p g) (f : FuncId) (p : PrivAnswer)
    (g : GrantTable) : stageOf s ≠ .execute f p g := by
  rw [stageOf_eq h]
  cases a with
  | execute k x t => exact absurd rfl (ha k x t)
  | decode k =>
    dsimp only
    split
    · split <;> simp
    · simp
  | readResponse k => dsimp only; split <;> simp
  | _ => simp

/-- Only T3 and the host's `handle_request` can call `PRIV`. -/
theorem step_priv (h : s.sched.head? = some a) (hx : ∀ f p g, a ≠ .execute f p g) (hh : ∀ f y p g, a ≠ .handleRequest f y p g)
    (ht : step s = .next t) : t.priv = none := by
  rw [step_eq h] at ht
  cases hf : fetch s with
  | message i => rw [hf] at ht; exact exec_priv (stageOf_ne_execute h hx) ht
  | malformed f => rw [hf] at ht; cases ht; rfl
  | unparsed f e => rw [hf] at ht; cases ht; rfl
  | nothing => rw [hf] at ht; exact agentStep_priv hh ht

/-- T3 calls `PRIV` with the permitted request it executes. -/
theorem step_execute_priv {p : PrivAnswer} {g : GrantTable} (h : Due (.execute f p g) f s) (ht : step s = .next t)
    (hc : t.priv = some c) : c = ⟨f, (s.chan f).req⟩ ∧ Permitted s.cfg.pfFuncId f (s.chan f).grant (s.chan f).req := by
  by_cases hd : (s.chan f).dstate = .executing
  · rw [step_execute h hd] at ht
    cases hi : (s.chan f).req.dir with
    | req =>
      cases (exec_execute hi h hd).symm.trans ht
      exact answerRequest_priv.mp hc
    | rsp =>
      cases (exec_execute_response hi h hd).symm.trans ht
      cases hc
  · cases (step_execute_off h hd).symm.trans ht
    cases hc

/-- The host's call calls `PRIV` with the permitted request it parses. -/
theorem step_handleRequest_priv {y : Frame} {p : PrivAnswer} {g : GrantTable} (h : Due (.handleRequest f y p g) f s)
    (ht : step s = .next t) (hc : t.priv = some c) :
    c.f = f ∧ parse s.cfg.ops y = .ok c.m ∧ Permitted s.cfg.pfFuncId f (s.chan f).grant c.m := by
  by_cases hy : y.length = 32
  · cases (step_handleRequest h hy).symm.trans ht
    obtain ⟨hf, hp, -, hperm⟩ := handleRequest_priv.mp hc
    exact ⟨hf, hp, hperm⟩
  · cases (step_handleRequest_wrongLength hy h).symm.trans ht
    cases hc

end

/-- A permitted request names granted queues alone (R247, R249). -/
theorem PermittedRow.queues {f : FuncId} {g : Grant} {m : Instr} (h : PermittedRow f g m) :
    ∀ q ∈ queueIds m, GrantsQueue g q := by
  cases m with
  | qnotifyAddReq hd b | qnotifyDelReq hd b | qctxtRdReq hd b | qctxtInvReq hd b | qctxtClrReq hd b =>
    exact List.forall_mem_singleton.mpr h
  | qctxtWrtReq hd b => exact List.forall_mem_singleton.mpr h.1
  | _ => exact List.forall_mem_nil _

theorem DescGroup.includedBy_queue {t : Int} : DescGroup.queue.includedBy t = true ↔ t ≠ 0 := decide_eq_true_iff

theorem DescGroup.includedBy_completion {t : Int} : DescGroup.completion.includedBy t = true ↔ t ≠ 3 := decide_eq_true_iff

/-- The block checks the vector when an included interrupt enable is set (R248 (c)). -/
theorem usesVector_iff {b : QCtxt} :
    usesVector b = true ↔ (b.sel.cmptCtxtType ≠ 0 ∧ b.desc.irqEn = 1) ∨ (b.sel.cmptCtxtType ≠ 3 ∧ b.desc.cmptIntEn = 1) := by
  simp only [usesVector, Bool.or_eq_true, Bool.and_eq_true, decide_eq_true_iff, DescGroup.includedBy_queue,
    DescGroup.includedBy_completion]

/-- A permitted request names granted vectors alone, those of R248 (c) where it is checked (R249). -/
theorem PermittedRow.vectors {f : FuncId} {g : Grant} {m : Instr} (h : PermittedRow f g m) :
    ∀ v ∈ vectorIds m, GrantsVector g v := by
  cases m with
  | qctxtWrtReq hd b =>
    obtain ⟨-, -, hvec⟩ := h
    cases hu : usesVector b with
    | true => simpa [vectorIds, hu] using hvec (usesVector_iff.mp hu)
    | false => simp [vectorIds, hu]
  | intrCtxtWrtReq hd b | intrCtxtRdReq hd b | intrCtxtInvReq hd b | intrCtxtClrReq hd b => exact h
  | _ => exact List.forall_mem_nil _

/-- Settles O54: `PRIV` is called by T3 and by the host's call, each with a permitted request. -/
theorem privIsCalledOnlyWithinTheGrant : Obligations.PrivIsCalledOnlyWithinTheGrant := by
  intro s t c ht hc
  obtain ⟨a, h⟩ : ∃ a, s.sched.head? = some a := by
    cases hs : s.sched with
    | nil => rw [step_nil hs] at ht; cases ht; cases hc
    | cons a rest => exact ⟨a, rfl⟩
  cases a with
  | execute f p g =>
    have hdue := due_of_step h rfl ht
    obtain ⟨rfl, hperm⟩ := step_execute_priv hdue ht hc
    exact ⟨hdue.vfset, hperm, hperm.2.2.queues, hperm.2.2.vectors, .inl ⟨p, g, h, rfl⟩⟩
  | handleRequest f y p g =>
    have hdue := due_of_step h rfl ht
    obtain ⟨rfl, hp, hperm⟩ := step_handleRequest_priv hdue ht hc
    exact ⟨hdue.vfset, hperm, hperm.2.2.queues, hperm.2.2.vectors, .inr ⟨y, p, g, h, hp⟩⟩
  | _ =>
    rw [step_priv h (by simp) (by simp) ht] at hc
    cases hc

end Sys2Proof.Machine
end

section
/-! Proofs of the invariants (spec/10_state.md R43, R44, section 7; spec/45_pf_dispatch.md R257, R258): what each move keeps of a channel,
and what a step keeps of the memory and of `VFSET`. -/

namespace Sys2Proof.Machine

open Sys2Proof

/-! ## The memory stays inside the slots (R64) -/

/-- A write lists at most the byte it writes. -/
theorem Memory.mem_write {m : Memory} {k : Nat} {v : BitVec 8} {p : Nat × BitVec 8} (h : p ∈ m.write k v) :
    p ∈ m ∨ p.1 = k := by
  induction m with
  | nil =>
    simp only [Memory.write] at h
    split at h
    · cases h
    · exact .inr (by rw [List.mem_singleton.mp h])
  | cons q rest ih =>
    obtain ⟨a, b⟩ := q
    simp only [Memory.write] at h
    split at h
    · split at h
      · exact .inl h
      · rcases List.mem_cons.mp h with rfl | h
        · exact .inr rfl
        · exact .inl h
    · split at h
      · split at h
        · exact .inl (List.mem_cons_of_mem _ h)
        · rcases List.mem_cons.mp h with rfl | h
          · exact .inr rfl
          · exact .inl (List.mem_cons_of_mem _ h)
      · rcases List.mem_cons.mp h with rfl | h
        · exact .inl List.mem_cons_self
        · exact (ih h).imp_left (List.mem_cons_of_mem _)

theorem Memory.mem_writeWord {m : Memory} {a : Nat} {w : Word} {p : Nat × BitVec 8} (h : p ∈ m.writeWord a w) :
    p ∈ m ∨ (a ≤ p.1 ∧ p.1 < a + 4) := by
  rcases mem_write h with h | hp
  · rcases mem_write h with h | hp
    · rcases mem_write h with h | hp
      · rcases mem_write h with h | hp
        · exact .inl h
        · omega
      · omega
    · omega
  · omega

theorem Memory.mem_writeWords {m : Memory} {a : Nat} {ws : List Word} {p : Nat × BitVec 8} (h : p ∈ m.writeWords a ws) :
    p ∈ m ∨ (a ≤ p.1 ∧ p.1 < a + 4 * ws.length) := by
  induction ws generalizing m a with
  | nil => exact .inl h
  | cons w rest ih =>
    rw [List.length_cons]
    rcases ih h with h | hp
    · rcases mem_writeWord h with h | hp
      · exact .inl h
      · omega
    · omega

/-- A `send` lists bytes of its slot alone. -/
theorem mem_writeSlot {m : Memory} {f : FuncId} {x : Frame} (hx : x.length = 32) {p : Nat × BitVec 8}
    (h : p ∈ writeSlot m f x) : p ∈ m ∨ (slotBase f ≤ p.1 ∧ p.1 < slotBase f + 128) := by
  rcases Memory.mem_writeWords h with h | hp
  · exact .inl h
  · omega

/-! ## What the moves keep of a channel -/

section
variable {s t : State} {a : Action} {k : FuncId} {c d : Chan}

/-- The invariant of the dispatch machine of a channel. -/
structure MachineInv (pf f : FuncId) (c : Chan) : Prop where
  rxbufLen : c.rxbuf.length = 32
  respLen : c.resp.length = 32
  req : c.dstate = .executing → c.req.dir = .req ∧ WellFormed c.req
  resp : c.dstate = .responding → IsReply pf f c.resp

theorem ChanInv.machine {cfg : Config.Params} (h : ChanInv cfg k c) : MachineInv cfg.pfFuncId k c :=
  ⟨h.rxbufLen, h.respLen, h.req, h.resp⟩

theorem MachineMove.machineInv (h : MachineMove s a k c d) (hc : MachineInv s.cfg.pfFuncId k c) :
    MachineInv s.cfg.pfFuncId k d := by
  cases h with
  | keep state buffers =>
    obtain ⟨hrxbuf, hreq, hresp⟩ := buffers
    exact ⟨by rw [hrxbuf, hc.rxbufLen], by rw [hresp, hc.respLen], by rw [state, hreq]; exact hc.req,
      by rw [state, hresp]; exact hc.resp⟩
  | accepted before state rxbuf resp => exact ⟨rxbuf, by rw [resp, hc.respLen], by simp [state], by simp [state]⟩
  | latched before state req rxbuf resp =>
    exact ⟨by rw [rxbuf, hc.rxbufLen], by rw [resp, hc.respLen], fun _ => req, by simp [state]⟩
  | answered before state resp rxbuf => exact ⟨by rw [rxbuf, hc.rxbufLen], resp.len, by simp [state], fun _ => resp⟩
  | returned before state buffers | faulted before state cause buffers =>
    exact ⟨by rw [buffers.rxbuf, hc.rxbufLen], by rw [buffers.resp, hc.respLen], by simp [state], by simp [state]⟩
  | initialised cause state rxbuf resp => exact ⟨rxbuf, resp, by simp [state], by simp [state]⟩

theorem PfMove.chanInv (h : PfMove s a k c d) (hc : ChanInv s.cfg k c) : ChanInv s.cfg k d := by
  have hm := h.machine.machineInv hc.machine
  have hside := h.side
  refine ⟨fun ⟨hp, ha⟩ => hc.flags (h.flags.exclusive hp ha), hm.rxbufLen, hm.respLen, ?_, ?_, hm.req, hm.resp, ?_, ?_, ?_, ?_⟩
  · rw [hside.sent]; exact hc.sentLen
  · rw [hside.vfRxbuf]; exact hc.vfRxbufLen
  · rw [hside.vstate, hside.vfPolls]; exact hc.polls
  · rw [hside.vstate, hside.vfRetry]; exact hc.retries
  · rw [hside.vstate, hside.vfReq]; exact hc.vfReq
  · rw [hside.vstate, hside.sent]; exact hc.sent

/-- The invariant of the requester of a channel. -/
structure RequesterInv (cfg : Config.Params) (f : FuncId) (c : Chan) : Prop where
  sentLen : c.sent.length = 32
  polls : c.vstate = .wait → c.vfPolls ≤ cfg.pollMax
  retries : c.vstate = .wait → c.vfRetry ≤ cfg.retryMax
  vfReq : c.vstate = .wait →
    ∀ tag : BitVec 8, WellFormed (c.vfReq.withHeader ⟨tag.toNat, f.toNat, cfg.pfFuncId.toNat⟩)
  sent : c.vstate = .wait → dirOf c.sent = 0 ∧ srcOf c.sent = f.toNat ∧ dstOf c.sent = cfg.pfFuncId.toNat

theorem ChanInv.requester {cfg : Config.Params} (h : ChanInv cfg k c) : RequesterInv cfg k c :=
  ⟨h.sentLen, h.polls, h.retries, h.vfReq, h.sent⟩

theorem withHeader_dir (r : Request) (h : Header) : (r.withHeader h).dir = .req := by cases r <;> rfl

theorem withHeader_header (r : Request) (h : Header) : (r.withHeader h).header = h := by cases r <;> rfl

theorem withHeader_bodyLegal (r : Request) (h h' : Header) : (r.withHeader h).bodyLegal = (r.withHeader h').bodyLegal := by
  cases r <;> rfl

/-- Whether a request of a function to the PF is well formed does not depend on its tag (R282). -/
theorem wellFormed_withHeader {r : Request} {h : Header} (hw : WellFormed (r.withHeader h)) (tag src dst : BitVec 8) :
    WellFormed (r.withHeader ⟨tag.toNat, src.toNat, dst.toNat⟩) := by
  have := tag.isLt
  have := src.isLt
  have := dst.isLt
  simp only [WellFormed, wellFormed, withHeader_header, Bool.and_eq_true] at hw ⊢
  refine ⟨?_, (withHeader_bodyLegal r _ h).trans hw.2⟩
  simp only [Header.legal, Bool.and_eq_true, fits_iff]
  omega

/-- The words of a request of VF `k` to the PF (R277). -/
theorem sent_of_compose {r : Request} {x : Frame} (hx : compose s.cfg.ops (r.withHeader (requestHeader s k)) = .ok x) :
    x.length = 32 ∧ dirOf x = 0 ∧ srcOf x = k.toNat ∧ dstOf x = s.cfg.pfFuncId.toNat := by
  obtain ⟨hw, rfl⟩ := compose_ok_iff_wellFormed.mp hx
  have hlegal : (r.withHeader (requestHeader s k)).header.legal = true := by
    simp only [WellFormed, wellFormed, Bool.and_eq_true] at hw
    exact hw.1
  have hheader := headerOf_encode s.cfg.ops hlegal
  rw [withHeader_header] at hheader
  refine ⟨encode_length _ _, by rw [dirOf_encode, withHeader_dir]; rfl, ?_, ?_⟩
  · exact Int.ofNat.inj (congrArg Header.src hheader)
  · exact Int.ofNat.inj (congrArg Header.dst hheader)

theorem RequesterMove.requesterInv (h : RequesterMove s k c d) (hc : RequesterInv s.cfg k c) : RequesterInv s.cfg k d := by
  cases h with
  | keep state sent req polls retries =>
    exact ⟨by rw [sent]; exact hc.sentLen, by rw [state, polls]; exact hc.polls, by rw [state, retries]; exact hc.retries,
      by rw [state, req]; exact hc.vfReq, by rw [state, sent]; exact hc.sent⟩
  | ended state sent =>
    refine ⟨?_, by simp [state], by simp [state], by simp [state], by simp [state]⟩
    rcases sent with hs | hs
    · rw [hs]; exact hc.sentLen
    · exact hs
  | started before sent polls retries =>
    obtain ⟨hlen, hsent⟩ := sent_of_compose sent
    exact ⟨hlen, fun _ => polls, fun _ => by rw [retries]; exact Nat.zero_le _,
      fun _ tag => wellFormed_withHeader (compose_ok_iff_wellFormed.mp sent).1 tag _ _, fun _ => hsent⟩
  | polled before sent req polls retries =>
    exact ⟨by rw [sent]; exact hc.sentLen, fun _ => polls, fun _ => by rw [retries]; exact hc.retries before,
      fun _ => by rw [req]; exact hc.vfReq before, fun _ => by rw [sent]; exact hc.sent before⟩
  | retried before req sent polls retries =>
    obtain ⟨hlen, hsent⟩ := sent_of_compose sent
    exact ⟨hlen, fun _ => polls, fun _ => retries, fun _ => by rw [req]; exact hc.vfReq before, fun _ => hsent⟩
  | uncomposed before e sent =>
    exact absurd (hc.vfReq before (s.chan k).tagNext) (not_wellFormed_of_compose_error sent)

theorem VfMove.chanInv (h : VfMove s a k c d) (hc : ChanInv s.cfg k c) : ChanInv s.cfg k d := by
  have hr := h.requester.requesterInv hc.requester
  have hside := h.side
  refine ⟨fun ⟨hp, ha⟩ => hc.flags (h.flags.exclusive hp ha), ?_, ?_, hr.sentLen, ?_, ?_, ?_, hr.polls, hr.retries, hr.vfReq,
    hr.sent⟩
  · rw [hside.rxbuf]; exact hc.rxbufLen
  · rw [hside.resp]; exact hc.respLen
  · rcases h.vfRxbuf with hv | hv
    · rw [hv]; exact hc.vfRxbufLen
    · exact hv
  · rw [hside.dstate, hside.req]; exact hc.req
  · rw [hside.dstate, hside.resp]; exact hc.resp

theorem Move.chanInv (h : Move s a k c d) (hc : ChanInv s.cfg k c) : ChanInv s.cfg k d := by
  cases h with
  | pf _ move => exact move.chanInv hc
  | vf _ move => exact move.chanInv hc

theorem Move.flags (h : Move s a k c d) : FlagMove a c d := by
  cases h with
  | pf _ move => exact move.flags
  | vf _ move => exact move.flags

/-! ## What a step keeps of the state -/

theorem Inv.chan (hi : Inv s) (hk : s.hasChan k = true) : ChanInv s.cfg k (s.chan k) := hi.chans _ (chan_mem hk)

theorem Effect.inv (h : Effect s a t) (hi : Inv s) : Inv t where
  mem := by
    rcases h.mem with hm | ⟨f, x, -, -, -, hm⟩ <;> rw [hm]
    · exact hi.mem
    · exact writeSlot_wf f x hi.mem
  slots p hp := by
    simp only [h.hasChan]
    rcases h.mem with hm | ⟨f, x, hf, -, hx, hm⟩ <;> rw [hm] at hp
    · exact hi.slots p hp
    · rcases mem_writeSlot hx hp with hp | hp
      · exact hi.slots p hp
      · exact ⟨f, hf, hp⟩
  keys := by rw [h.keys]; exact hi.keys
  pfNoChan := by rw [h.hasChan, h.cfg]; exact hi.pfNoChan
  chans p hp := by
    obtain ⟨hk, hchan⟩ := chan_of_mem (by rw [h.keys]; exact hi.keys) hp
    rw [h.hasChan] at hk
    rw [h.cfg, ← hchan]
    rcases h.moves p.1 with hsame | ⟨-, hmove⟩
    · rw [hsame]; exact hi.chan hk
    · exact hmove.chanInv (hi.chan hk)

/-- Power-on reset empties the memory and resets every channel (R320). -/
theorem powerOn_inv (hi : Inv s) : Inv (powerOn s) where
  mem := reset_mem_wf
  slots p hp := by cases hp
  keys := by
    have hkeys : (powerOn s).chans.map Prod.fst = s.chans.map Prod.fst := updAll_keys s fun _ _ => Chan.reset
    rw [hkeys]; exact hi.keys
  pfNoChan := by rw [powerOn_hasChan]; exact hi.pfNoChan
  chans p hp := by
    obtain ⟨q, -, rfl⟩ := List.mem_map.mp hp
    exact chanInv_reset _ _

theorem Inv.retire (hi : Inv s) (r : Result) (p : Option PrivCall) : Inv (s.retire r p) :=
  ⟨hi.mem, hi.slots, hi.keys, hi.pfNoChan, hi.chans⟩

end

/-- Settles O55: every move keeps the invariant of its channel. -/
theorem everyStepKeepsTheInvariant : Obligations.EveryStepKeepsTheInvariant := by
  intro s t hi ht
  cases h : s.sched.head? with
  | none =>
    cases (step_nil (List.head?_eq_none_iff.mp h)).symm.trans ht
    exact hi.retire _ _
  | some a =>
    by_cases ha : a = .powerOn
    · subst ha
      cases (step_powerOn h).symm.trans ht
      exact (powerOn_inv hi).retire _ _
    · exact (step_effect h ha ht).inv hi

/-- Settles O58: the moves of the flags. -/
theorem pendingImpliesOutstanding : Obligations.PendingImpliesOutstanding := by
  intro s t a hi h hfail ht hbefore f hf
  by_cases ha : a = .powerOn
  · subst ha
    cases (step_powerOn h).symm.trans ht
    rw [retire_chan, powerOn_chan (by simpa using hf)]
    nofun
  have he := step_effect h ha ht
  rw [he.hasChan] at hf
  rcases he.moves f with hsame | ⟨-, hmove⟩
  · rw [hsame]; exact hbefore f hf
  · exact hmove.flags.tracked hfail (hi.chan hf).flags (hbefore f hf)

/-! ## `FAULTED` (R257, R258) -/

section
variable {s t : State} {a : Action} {f : FuncId}

/-- What a step does to the dispatch machine of a function. -/
theorem Effect.machine (h : Effect s a t) (f : FuncId) : MachineMove s a f (s.chan f) (t.chan f) := by
  rcases h.moves f with hf | ⟨-, hf⟩
  · rw [hf]; exact .keep rfl ⟨rfl, rfl, rfl⟩
  · cases hf with
    | pf _ move => exact move.machine
    | vf _ move => exact .keep move.side.dstate ⟨move.side.rxbuf, move.side.req, move.side.resp⟩

theorem MachineMove.cause_of_faulted {k : FuncId} {c d : Chan} (h : MachineMove s a k c d) (hc : c.dstate ≠ .faulted)
    (hd : d.dstate = .faulted) : MayFault a k ∧ SameBuffers c d := by
  cases h with
  | keep state => exact absurd (state.symm.trans hd) hc
  | faulted _ _ cause buffers => exact ⟨cause, buffers⟩
  | accepted _ state | latched _ state | answered _ state | returned _ state | initialised _ state => simp [state] at hd

theorem MachineMove.stays_faulted {k : FuncId} {c d : Chan} (h : MachineMove s a k c d) (ha : keepsService a = true)
    (hc : c.dstate = .faulted) : d.dstate = .faulted := by
  cases h with
  | keep state => exact state.trans hc
  | faulted _ state => exact state
  | initialised cause => simp [ha] at cause
  | accepted before | latched before | answered before | returned before => simp [hc] at before

/-- The faulting transitions of `f` fault it with their result, and touch no other channel: under the invariant T4 sends to `f`. -/
theorem step_faults (hi : Inv s) (hdue : Due a f s) (ha : MayFault a f) (ht : step s = .next t)
    (hc : (s.chan f).dstate ≠ .faulted) (hd : (t.chan f).dstate = .faulted) :
    t.result = .error .hardwareFault ∧ ∀ k, k ≠ f → t.chan k = s.chan k := by
  obtain ⟨hs, hs', rfl | rfl | rfl⟩ := ha
  · rcases accept_cases f hs s with ⟨-, he⟩ | ⟨-, -, -, he⟩ | ⟨-, -, -, he⟩ <;>
      cases (step_accept hdue he).symm.trans ht
    · exact absurd hd hc
    · exact ⟨rfl, fun k hk => (took_updChan f s _ _).only.others k hk⟩
    · rw [retire_updChan_chan hdue.vfset] at hd; cases hd
  · by_cases hdst : (s.chan f).dstate = .responding
    swap
    · have he : respond f hs s = (s, .notEnabled) := by simp only [respond, if_neg hdst]
      cases (step_respond hdue he).symm.trans ht
      exact absurd hd hc
    have hreply := (hi.chan hdue.vfset).resp hdst
    rcases respond_cases f hs s hdue.vfset hreply.len hreply.dst with ⟨-, he⟩ | ⟨-, -, he⟩ | ⟨-, -, -, -, he⟩ | ⟨-, -, -, -, he⟩ <;>
      cases (step_respond hdue he).symm.trans ht
    · exact absurd hd hc
    · exact absurd hd hc
    · exact ⟨rfl, fun k hk => (took_withMem_updChan f s _ _ _).only.others k hk⟩
    · rw [retire_withMem_updChan_chan hdue.vfset] at hd; cases hd
  · rcases busyReject_cases f hs hs' s hdue.vfset with ⟨-, he⟩ | ⟨-, -, -, he⟩ | ⟨-, -, -, -, he⟩ | ⟨-, -, -, -, he⟩ <;>
      cases (step_busyReject hdue he).symm.trans ht
    · exact absurd hd hc
    · exact ⟨rfl, fun k hk => (took_updChan f s _ _).only.others k hk⟩
    · exact ⟨rfl, fun k hk => (took_withMem_updChan f s _ _ _).only.others k hk⟩
    · rw [retire_withMem_updChan_chan hdue.vfset] at hd; exact absurd hd hc

theorem powerOn_chan_eq (s : State) (f : FuncId) : (powerOn s).chan f = Chan.reset := by
  cases hf : s.hasChan f with
  | true => exact powerOn_chan hf
  | false => exact chan_of_absent (by rw [powerOn_hasChan, hf])

/-- In `FAULTED` none of T1 to T5 is enabled (R258; log 2). -/
theorem step_of_faulted {hs hs' : Bool} {x : PrivAnswer} {g : GrantTable} (h : Due a f s) (hd : (s.chan f).dstate = .faulted)
    (ha : a = .accept f hs ∨ a = .decode f ∨ a = .execute f x g ∨ a = .respond f hs ∨ a = .busyReject f hs hs') :
    ∃ r, step s = .next (s.retire r none) := by
  rcases ha with rfl | rfl | rfl | rfl | rfl
  · have he : accept f hs s = (s, .notEnabled) := by simp [accept, hd]
    exact ⟨_, step_accept h he⟩
  · refine ⟨_, step_channel h ?_ rfl⟩
    rw [stageOf_eq h.head]
    simp [h.vfset, hd]
  · exact ⟨_, step_execute_off h (by simp [hd])⟩
  · have he : respond f hs s = (s, .notEnabled) := by simp [respond, hd]
    exact ⟨_, step_respond h he⟩
  · have he : busyReject f hs hs' s = (s, .notEnabled) := by simp [busyReject, busy, hd]
    exact ⟨_, step_busyReject h he⟩

end

/-- Settles O35: of the moves of the dispatch machine one enters `FAULTED`, and its transitions do so with a `HardwareFault`. -/
theorem onlyAHardwareFaultEntersFaulted : Obligations.OnlyAHardwareFaultEntersFaulted := by
  intro s t f hi ht hc hd
  cases h : s.sched.head? with
  | none =>
    cases (step_nil (List.head?_eq_none_iff.mp h)).symm.trans ht
    exact absurd hd hc
  | some a =>
    have ha : a ≠ .powerOn := by
      rintro rfl
      cases (step_powerOn h).symm.trans ht
      rw [retire_chan, powerOn_chan_eq] at hd
      cases hd
    obtain ⟨hcause, hrxbuf, hreq, hresp⟩ := ((step_effect h ha ht).machine f).cause_of_faulted hc hd
    have hdue : Due a f s := by
      obtain ⟨hs, hs', rfl | rfl | rfl⟩ := hcause <;> exact due_of_step h rfl ht
    obtain ⟨hresult, hothers⟩ := step_faults hi hdue hcause ht hc hd
    obtain ⟨hs, hs', hcause⟩ := hcause
    exact ⟨hresult, ⟨hs, hs', by simpa using hcause⟩, hrxbuf, hreq, hresp, hothers⟩

/-- Settles O36: the moves of the dispatch machine leave `FAULTED` by an initialisation alone, and T1 to T5 are not enabled there. -/
theorem faultedIsTerminal : Obligations.FaultedIsTerminal := by
  intro s t f a h ht hd
  refine ⟨fun hkeep => ?_, ?_, fun ha => ?_⟩
  · have ha : a ≠ .powerOn := by rintro rfl; cases hkeep
    exact ((step_effect h.head ha ht).machine f).stays_faulted hkeep hd
  · rintro ⟨hs, hs', x, g, hT⟩
    obtain ⟨r, he⟩ := step_of_faulted h hd hT
    cases he.symm.trans ht
    exact ⟨rfl, rfl⟩
  · subst ha
    cases (step_hwInitPf h.head).symm.trans ht
    rw [retire_chan, hwInitPf_chan h.vfset]
    rfl

end Sys2Proof.Machine
end

section
/-! Proof that the wait of a VF is bounded by its counters (spec/70_reset_and_hazards.md R341): what each transition of the requester does
to the two counters, and what that does to the two measures. -/

namespace Sys2Proof.Machine

open Sys2Proof

/-! ## The measures -/

section
variable {cfg : Config.Params} {c d : Chan}

/-- A poll counted lowers both measures. -/
theorem measures_of_poll (hr : d.vfRetry = c.vfRetry) (hp : c.vfPolls < d.vfPolls) (hc : c.vfPolls < cfg.pollMax) :
    pollsLeft cfg d < pollsLeft cfg c ∧ waitMeasure cfg d < waitMeasure cfg c := by
  simp only [pollsLeft, waitMeasure, hr]
  omega

/-- A retry counted after the polls are spent adds no poll and lowers the measure. -/
theorem measures_of_retry (hr : d.vfRetry = c.vfRetry + 1) (hc : c.vfRetry < cfg.retryMax) (hp : cfg.pollMax ≤ c.vfPolls) :
    pollsLeft cfg d ≤ pollsLeft cfg c ∧ waitMeasure cfg d < waitMeasure cfg c := by
  obtain ⟨n, hn⟩ : ∃ n, cfg.retryMax - c.vfRetry = n + 1 := ⟨cfg.retryMax - c.vfRetry - 1, by omega⟩
  have hd : cfg.retryMax - (c.vfRetry + 1) = n := by omega
  simp only [pollsLeft, waitMeasure, hr, hn, hd, Nat.succ_mul]
  omega

/-- A transaction starts with all its retries to go (R278). -/
theorem pollsLeft_of_start (hr : d.vfRetry = 0) : pollsLeft cfg d ≤ (1 + cfg.retryMax) * cfg.pollMax := by
  simp only [pollsLeft, hr, Nat.sub_zero, Nat.add_mul, Nat.one_mul]
  omega

theorem measures_of_sameVfSide (h : SameVfSide c d) : pollsLeft cfg d = pollsLeft cfg c ∧ waitMeasure cfg d = waitMeasure cfg c := by
  simp only [pollsLeft, waitMeasure, h.vfRetry, h.vfPolls, and_self]

end

/-! ## The counters after each transition -/

section
variable {s t : State} {f : FuncId} {a : Action} {hs hs' : Bool}

/-- A step of another agent leaves the requester alone (R307). -/
theorem Effect.sameVfSide (h : Effect s a t) (ha : sideOf a ≠ .vf f) : SameVfSide (s.chan f) (t.chan f) := by
  rcases h.moves f with hsame | ⟨-, hmove⟩
  · rw [hsame]; exact sameVfSide_refl _
  · cases hmove with
    | pf _ move => exact move.side
    | vf side => exact absurd side ha

/-- A step that starts a transaction resets the count of retries. -/
theorem RequesterMove.retries_of_start {k : FuncId} {c d : Chan} (h : RequesterMove s k c d) (hc : c.vstate = .idle)
    (hd : d.vstate = .wait) : d.vfRetry = 0 := by
  cases h with
  | keep state => simp [state, hc] at hd
  | ended state => simp [state] at hd
  | started _ _ _ retries => exact retries
  | polled before | retried before | uncomposed before => simp [hc] at before

theorem start_resets_retries {req : Request} (h : s.sched.head? = some (.start f req hs hs')) (ht : step s = .next t)
    (hc : (s.chan f).vstate = .idle) (hd : (t.chan f).vstate = .wait) : (t.chan f).vfRetry = 0 := by
  rcases (step_effect h (by simp) ht).ofVf rfl f with hsame | ⟨-, hmove⟩
  · simp [hsame, hc] at hd
  · exact hmove.requester.retries_of_start hc hd

/-- A poll ends the transaction or is counted (R279, R280). -/
theorem poll_counts (h : Due (.poll f hs) f s) (ht : step s = .next t) (hv : (s.chan f).vstate = .wait)
    (hp : (s.chan f).vfPolls < s.cfg.pollMax) :
    (t.chan f).vstate = .idle ∨ ((t.chan f).vfRetry = (s.chan f).vfRetry ∧ (s.chan f).vfPolls < (t.chan f).vfPolls) := by
  rcases poll_cases f hs s with ⟨hoff, -⟩ | ⟨-, ⟨-, he⟩ | ⟨-, -, he⟩ | ⟨-, -, -, he⟩ | ⟨-, -, -, he⟩⟩
  · exact absurd ⟨hv, hp⟩ hoff
  all_goals
    cases (step_poll h he).symm.trans ht
    rw [retire_updChan_chan h.vfset]
  · exact .inr ⟨rfl, Nat.lt_succ_self _⟩
  · exact .inr ⟨rfl, hp⟩
  · exact .inl rfl
  · exact .inr ⟨rfl, Nat.lt_succ_self _⟩

/-- A retry is counted, whatever its `send` does (R282). -/
theorem retry_counts (hi : Inv s) (h : Due (.retry f hs hs') f s) (ht : step s = .next t) (hv : (s.chan f).vstate = .wait)
    (hp : s.cfg.pollMax ≤ (s.chan f).vfPolls) (hr : (s.chan f).vfRetry < s.cfg.retryMax) :
    (t.chan f).vfRetry = (s.chan f).vfRetry + 1 := by
  rcases retry_cases f hs hs' s h.vfset (compose_retry hi h.vfset hv) with ⟨hoff, -⟩ | ⟨-, ⟨-, -, he⟩ | ⟨-, -, he⟩ | ⟨-, -, he⟩⟩
  · exact absurd ⟨waitOver_iff.mpr ⟨hv, hp⟩, hr⟩ hoff
  all_goals cases (step_retry h he).symm.trans ht
  · rw [retire_updChan_chan h.vfset]
  all_goals rw [retire_withMem_updChan_chan h.vfset]

/-- Giving up ends the transaction (R283). -/
theorem giveUp_ends (h : Due (.giveUp f hs) f s) (ht : step s = .next t) (hv : (s.chan f).vstate = .wait)
    (hp : s.cfg.pollMax ≤ (s.chan f).vfPolls) (hr : (s.chan f).vfRetry = s.cfg.retryMax) : (t.chan f).vstate = .idle := by
  rcases giveUp_cases f hs s h.vfset with ⟨hoff, -⟩ | ⟨-, ⟨-, he⟩ | ⟨-, -, he⟩ | ⟨-, -, he⟩⟩
  · exact absurd ⟨waitOver_iff.mpr ⟨hv, hp⟩, hr⟩ hoff
  all_goals
    cases (step_giveUp h he).symm.trans ht
    rw [retire_updChan_chan h.vfset]

end

theorem step_cfg {s t : State} {a : Action} (h : s.sched.head? = some a) (ht : step s = .next t) : t.cfg = s.cfg := by
  by_cases ha : a = .powerOn
  · subst ha
    cases (step_powerOn h).symm.trans ht
    rfl
  · exact (step_effect h ha ht).cfg

/-- Settles O50: the counters of each transition against the measures. -/
theorem waitIsBoundedByTheCounters : Obligations.WaitIsBoundedByTheCounters := by
  intro s t f a hi hf h ht
  rw [step_cfg h ht]
  refine ⟨fun hside ha => ?others, ?start, fun hv => ⟨?poll, ?retry, ?giveUp, ?enabled⟩⟩
  case others =>
    have hsame := (step_effect h ha ht).sameVfSide hside
    exact ⟨hsame.vstate, measures_of_sameVfSide hsame⟩
  case start =>
    rintro ⟨req, hs, hs', rfl⟩ hc hd
    exact pollsLeft_of_start (start_resets_retries h ht hc hd)
  case poll =>
    rintro ⟨hs, rfl⟩ hp
    refine (poll_counts ⟨h, hf⟩ ht hv hp).imp_right fun ⟨hretry, hpolls⟩ => measures_of_poll hretry hpolls hp
  case retry =>
    rintro ⟨hs, hs', rfl⟩ hp hr
    exact measures_of_retry (retry_counts hi ⟨h, hf⟩ ht hv hp hr) hr hp
  case giveUp =>
    rintro ⟨hs, rfl⟩ hp hr
    exact giveUp_ends ⟨h, hf⟩ ht hv hp hr
  case enabled =>
    have hbound := (hi.chan hf).retries hv
    omega

end Sys2Proof.Machine
end

section
/-! Proof that a VF learns only what its own channel shows (spec/60_exceptions.md R307): each operation of VF `f`, run in two states that
look the same to VF `f`, gives the same result and leaves two such states. -/

namespace Sys2Proof.Machine

open Sys2Proof

/-! ## The VF's part of a channel -/

/-- The channel with the PF's own state blanked out. -/
def vfPart (c : Chan) : Chan :=
  { c with
    dstate := .idle, rxbuf := [], req := Chan.resetReq, resp := [], ackShadow := false, intrEnPf := false
    grant := Grant.reset }

theorem vfPart_eq_iff {c d : Chan} :
    vfPart c = vfPart d ↔ SameVfSide c d ∧ c.pend = d.pend ∧ c.ack = d.ack ∧ c.outstanding = d.outstanding := by
  constructor
  · intro h
    exact ⟨⟨(congrArg Chan.sent h).symm, (congrArg Chan.vfRxbuf h).symm, (congrArg Chan.tagNext h).symm,
      (congrArg Chan.vstate h).symm, (congrArg Chan.vfReq h).symm, (congrArg Chan.vfPolls h).symm,
      (congrArg Chan.vfRetry h).symm, (congrArg Chan.vfHf h).symm, (congrArg Chan.vfFaulted h).symm,
      (congrArg Chan.intrEnVf h).symm, (congrArg Chan.vfBase h).symm⟩,
      (congrArg Chan.pend h :), (congrArg Chan.ack h :), (congrArg Chan.outstanding h :)⟩
  · rintro ⟨hs, hp, ha, ho⟩
    simp only [vfPart, hp, ha, ho, hs.sent, hs.vfRxbuf, hs.tagNext, hs.vstate, hs.vfReq, hs.vfPolls, hs.vfRetry, hs.vfHf,
      hs.vfFaulted, hs.intrEnVf, hs.vfBase]

section
variable {s s' t t' : State} {f : FuncId} {hs hs' : Bool} {x : Frame} {a : Action}

theorem SameVfView.vfPart (v : SameVfView f s s') : vfPart (s.chan f) = vfPart (s'.chan f) :=
  vfPart_eq_iff.mpr ⟨v.side, v.pend, v.ack, v.outstanding⟩

/-- The same update of the channel, if it neither reads nor writes the PF's own state. -/
theorem SameVfView.updChan (v : SameVfView f s s') {u : Chan → Chan}
    (hu : ∀ c, Machine.vfPart (u c) = u (Machine.vfPart c) := by exact fun _ => rfl) :
    SameVfView f (s.updChan f u) (s'.updChan f u) := by
  have hpart : Machine.vfPart (u (s.chan f)) = Machine.vfPart (u (s'.chan f)) := by rw [hu, hu, v.vfPart]
  obtain ⟨hside, hpend, hack, hout⟩ := vfPart_eq_iff.mp hpart
  have hc := updChan_chan_same s f u v.vfset.1
  have hc' := updChan_chan_same s' f u v.vfset.2
  exact ⟨v.cfg, v.inits, ⟨(updChan_hasChan s f f u).trans v.vfset.1, (updChan_hasChan s' f f u).trans v.vfset.2⟩, v.wf,
    by rw [hc, hc']; exact hside, by rw [hc, hc']; exact hpend, by rw [hc, hc']; exact hack, by rw [hc, hc']; exact hout, v.slot⟩

/-- The same frame written into the slot. -/
theorem SameVfView.write (v : SameVfView f s s') (hx : x.length = 32) :
    SameVfView f { s with mem := writeSlot s.mem f x } { s' with mem := writeSlot s'.mem f x } :=
  ⟨v.cfg, v.inits, v.vfset, ⟨writeSlot_wf f x v.wf.1, writeSlot_wf f x v.wf.2⟩, v.side, v.pend, v.ack, v.outstanding,
    (readSlot_writeSlot f v.wf.1 hx).trans (readSlot_writeSlot f v.wf.2 hx).symm⟩

theorem SameVfView.retire (v : SameVfView f s s') (r : Result) : SameVfView f (s.retire r none) (s'.retire r none) :=
  ⟨v.cfg, v.inits, v.vfset, v.wf, v.side, v.pend, v.ack, v.outstanding, v.slot⟩

/-- Two outcomes that look the same to VF `f`. -/
structure SameOutcome {ρ : Type} (f : FuncId) (p q : State × ρ) : Prop where
  view : SameVfView f p.1 q.1
  result : p.2 = q.2

theorem SameOutcome.of {ρ : Type} (v : SameVfView f t t') (r : ρ) : SameOutcome f (t, r) (t', r) := ⟨v, rfl⟩

theorem SameOutcome.pairs {ρ : Type} {p q : State × ρ} (h : SameOutcome f p q) :
    ∃ t t' r, p = (t, r) ∧ q = (t', r) ∧ SameVfView f t t' :=
  ⟨p.1, q.1, p.2, rfl, by rw [h.result], h.view⟩

/-! ## The handshake -/

theorem receiveVf_of_empty (ha : (s.chan f).ack = false) : receiveVf f hs s = (s, .error .noMessage) := by
  simpa [ha] using receiveVf_cases f hs s

theorem receiveVf_of_failed (ha : (s.chan f).ack = true) : receiveVf f true s = (s, .error .hardwareFault) := by
  simpa [ha] using receiveVf_cases f true s

theorem receiveVf_of_frame (ha : (s.chan f).ack = true) : receiveVf f false s =
    (s.updChan f (fun c => { c with ack := false, outstanding := false, vfRxbuf := readSlot s.mem f }),
      .ok (readSlot s.mem f)) := by
  simpa [ha] using receiveVf_cases f false s

theorem receiveVf_view (v : SameVfView f s s') : SameOutcome f (receiveVf f hs s) (receiveVf f hs s') := by
  cases ha : (s.chan f).ack with
  | false => rw [receiveVf_of_empty ha, receiveVf_of_empty (v.ack ▸ ha)]; exact .of v _
  | true =>
    have ha' : (s'.chan f).ack = true := v.ack ▸ ha
    cases hs with
    | true => rw [receiveVf_of_failed ha, receiveVf_of_failed ha']; exact .of v _
    | false =>
      rw [receiveVf_of_frame ha, receiveVf_of_frame ha', v.slot]
      exact .of v.updChan _

theorem sendVf_of_busy (hx : x.length = 32) (h : (s.chan f).outstanding = true ∨ (s.chan f).pend = true ∨ (s.chan f).ack = true) :
    sendVf f x hs s = (s, .error .channelBusy) := by
  rcases sendVf_cases f x hs s with ⟨hl, -⟩ | ⟨-, -, he⟩ | ⟨-, ho, hp, ha, -⟩ | ⟨-, ho, hp, ha, -⟩
  · exact absurd hx hl
  · exact he
  all_goals simp [ho, hp, ha] at h

theorem sendVf_of_failed (hx : x.length = 32)
    (h : ¬((s.chan f).outstanding = true ∨ (s.chan f).pend = true ∨ (s.chan f).ack = true)) :
    sendVf f x true s = ({ s with mem := writeSlot s.mem f x }, .error .hardwareFault) := by
  rcases sendVf_cases f x true s with ⟨hl, -⟩ | ⟨-, hb, -⟩ | ⟨-, -, -, -, -, he⟩ | ⟨-, -, -, -, hno, -⟩
  · exact absurd hx hl
  · exact absurd hb h
  · exact he
  · cases hno

theorem sendVf_of_free (hx : x.length = 32)
    (h : ¬((s.chan f).outstanding = true ∨ (s.chan f).pend = true ∨ (s.chan f).ack = true)) :
    sendVf f x false s = (State.updChan { s with mem := writeSlot s.mem f x } f fun c =>
      { c with pend := true, outstanding := true }, .ok ()) := by
  rcases sendVf_cases f x false s with ⟨hl, -⟩ | ⟨-, hb, -⟩ | ⟨-, -, -, -, hno, -⟩ | ⟨-, -, -, -, -, he⟩
  · exact absurd hx hl
  · exact absurd hb h
  · cases hno
  · exact he

theorem sendVf_view (v : SameVfView f s s') : SameOutcome f (sendVf f x hs s) (sendVf f x hs s') := by
  by_cases hx : x.length = 32
  swap
  · rw [sendVf_wrongLength hx, sendVf_wrongLength hx]; exact .of v _
  by_cases hb : (s.chan f).outstanding = true ∨ (s.chan f).pend = true ∨ (s.chan f).ack = true
  · rw [sendVf_of_busy hx hb, sendVf_of_busy hx (by rwa [← v.outstanding, ← v.pend, ← v.ack])]; exact .of v _
  have hb' : ¬((s'.chan f).outstanding = true ∨ (s'.chan f).pend = true ∨ (s'.chan f).ack = true) := by
    rwa [← v.outstanding, ← v.pend, ← v.ack]
  cases hs with
  | true => rw [sendVf_of_failed hx hb, sendVf_of_failed hx hb']; exact .of (v.write hx) _
  | false => rw [sendVf_of_free hx hb, sendVf_of_free hx hb']; exact .of (v.write hx).updChan _

theorem clearAckVf_of_failed (f : FuncId) (s : State) : clearAckVf f true s =
    (s.updChan f (fun c => { c with outstanding := false }), .error .hardwareFault) := by
  simpa using clearAckVf_cases f true s

theorem clearAckVf_of_ok (f : FuncId) (s : State) : clearAckVf f false s =
    (s.updChan f (fun c => { c with outstanding := false, pend := false, ack := false }), .ok ()) := by
  simpa using clearAckVf_cases f false s

theorem clearAckVf_view (v : SameVfView f s s') : SameOutcome f (clearAckVf f hs s) (clearAckVf f hs s') := by
  cases hs with
  | true => rw [clearAckVf_of_failed, clearAckVf_of_failed]; exact .of v.updChan _
  | false => rw [clearAckVf_of_ok, clearAckVf_of_ok]; exact .of v.updChan _

/-! ## The requester -/

theorem requestHeader_view (v : SameVfView f s s') : requestHeader s' f = requestHeader s f := by
  simp only [requestHeader, v.side.tagNext, v.cfg]

theorem drainStale_of_fresh (h : ¬((s.chan f).ack = true ∧ (s.chan f).outstanding = false)) :
    drainStale f hs s = (s, .ok ()) := by
  rcases drainStale_cases f hs s with ⟨-, he⟩ | ⟨ha, ho, -⟩ | ⟨ha, ho, -⟩
  · exact he
  all_goals exact absurd ⟨ha, ho⟩ h

theorem drainStale_of_failed (h : (s.chan f).ack = true ∧ (s.chan f).outstanding = false) :
    drainStale f true s = (s, .error .hardwareFault) := by
  simpa [h.1, h.2] using drainStale_cases f true s

theorem drainStale_of_stale (h : (s.chan f).ack = true ∧ (s.chan f).outstanding = false) : drainStale f false s =
    (s.updChan f (fun c => { c with ack := false, outstanding := false, vfRxbuf := readSlot s.mem f }), .ok ()) := by
  simpa [h.1, h.2] using drainStale_cases f false s

theorem drainStale_view (v : SameVfView f s s') : SameOutcome f (drainStale f hs s) (drainStale f hs s') := by
  by_cases h : (s.chan f).ack = true ∧ (s.chan f).outstanding = false
  · have h' : (s'.chan f).ack = true ∧ (s'.chan f).outstanding = false := by rwa [← v.ack, ← v.outstanding]
    cases hs with
    | true => rw [drainStale_of_failed h, drainStale_of_failed h']; exact .of v _
    | false =>
      rw [drainStale_of_stale h, drainStale_of_stale h', v.slot]
      exact .of v.updChan _
  · have h' : ¬((s'.chan f).ack = true ∧ (s'.chan f).outstanding = false) := by rwa [← v.ack, ← v.outstanding]
    rw [drainStale_of_fresh h, drainStale_of_fresh h']
    exact .of v _

theorem start_view {req : Request} (v : SameVfView f s s') :
    SameOutcome f (start f req hs hs' s) (start f req hs hs' s') := by
  simp only [start, v.side.vstate, v.side.vfFaulted, requestHeader_view v, ← v.cfg]
  by_cases hv : (s.chan f).vstate = .wait
  · simp only [if_pos hv]; exact .of v _
  by_cases hfa : (s.chan f).vfFaulted = true
  · simp only [if_neg hv, if_pos hfa]; exact .of v _
  simp only [if_neg hv, if_neg hfa]
  cases compose s.cfg.ops (req.withHeader (requestHeader s f)) with
  | error e => exact .of v _
  | ok x =>
    obtain ⟨t, t', r, he, he', hdrain⟩ := (drainStale_view (hs := hs) v).pairs
    simp only [he, he']
    cases r with
    | error e => exact .of hdrain _
    | ok _ =>
      have hbump : SameVfView f (bumpTag f t) (bumpTag f t') := hdrain.updChan
      obtain ⟨w, w', q, he, he', hsend⟩ := (sendVf_view (x := x) (hs := hs') hbump).pairs
      simp only [he, he']
      cases q with
      | ok _ => exact .of hsend.updChan _
      | error e =>
        cases e with
        | hardwareFault => exact .of hsend.updChan _
        | _ => exact .of hsend _

theorem poll_view (v : SameVfView f s s') : SameOutcome f (poll f hs s) (poll f hs s') := by
  simp only [poll, v.side.vstate, v.side.vfPolls, v.side.sent, ← v.cfg]
  by_cases h : (s.chan f).vstate = .wait ∧ (s.chan f).vfPolls < s.cfg.pollMax
  swap
  · simp only [if_neg h]; exact .of v _
  simp only [if_pos h]
  obtain ⟨t, t', r, he, he', hview⟩ := (receiveVf_view (hs := hs) v).pairs
  simp only [he, he']
  cases r with
  | ok y =>
    dsimp only
    split
    · exact .of hview.updChan _
    · exact .of hview.updChan _
  | error e =>
    cases e with
    | noMessage | hardwareFault => exact .of hview.updChan _
    | _ => exact .of hview _

theorem expire_eq (f : FuncId) (hs : Bool) (s : State) : expire f hs s = s.updChan f (afterExpire hs) := by
  rcases expire_cases f hs s with ⟨rfl, he⟩ | ⟨rfl, he⟩ <;> exact he

theorem expire_view (v : SameVfView f s s') : SameVfView f (expire f hs s) (expire f hs s') := by
  rw [expire_eq, expire_eq]
  exact v.updChan fun c => by cases hs <;> rfl

theorem waitOver_view (v : SameVfView f s s') : waitOver f s' = waitOver f s := by
  simp only [waitOver, v.side.vstate, v.side.vfPolls, v.cfg]

theorem retry_view (v : SameVfView f s s') : SameOutcome f (retry f hs hs' s) (retry f hs hs' s') := by
  simp only [retry, waitOver_view v, v.side.vfRetry, ← v.cfg]
  by_cases h : waitOver f s = true ∧ (s.chan f).vfRetry < s.cfg.retryMax
  swap
  · simp only [if_neg h]; exact .of v _
  simp only [if_pos h]
  have hexpire : SameVfView f ((expire f hs s).updChan f fun c => { c with vfRetry := c.vfRetry + 1 })
      ((expire f hs s').updChan f fun c => { c with vfRetry := c.vfRetry + 1 }) := (expire_view v).updChan
  generalize (expire f hs s).updChan f (fun c => { c with vfRetry := c.vfRetry + 1 }) = t at hexpire ⊢
  generalize (expire f hs s').updChan f (fun c => { c with vfRetry := c.vfRetry + 1 }) = t' at hexpire ⊢
  rw [requestHeader_view hexpire, hexpire.side.vfReq]
  cases compose s.cfg.ops ((t.chan f).vfReq.withHeader (requestHeader t f)) with
  | error e => exact .of hexpire _
  | ok x =>
    have hbump : SameVfView f (bumpTag f t) (bumpTag f t') := hexpire.updChan
    have hsent : SameVfView f ((bumpTag f t).updChan f fun c => { c with sent := x })
        ((bumpTag f t').updChan f fun c => { c with sent := x }) := hbump.updChan
    obtain ⟨w, w', q, he, he', hsend⟩ := (sendVf_view (x := x) (hs := hs') hsent).pairs
    simp only [he, he']
    cases q <;> exact .of hsend.updChan _

theorem giveUp_view (v : SameVfView f s s') : SameOutcome f (giveUp f hs s) (giveUp f hs s') := by
  simp only [giveUp, waitOver_view v, v.side.vfRetry, ← v.cfg]
  by_cases h : waitOver f s = true ∧ (s.chan f).vfRetry = s.cfg.retryMax
  swap
  · simp only [if_neg h]; exact .of v _
  simp only [if_pos h]
  have hexpire : SameVfView f ((expire f hs s).updChan f fun c => { c with vstate := .idle })
      ((expire f hs s').updChan f fun c => { c with vstate := .idle }) := (expire_view v).updChan
  generalize (expire f hs s).updChan f (fun c => { c with vstate := .idle }) = t at hexpire ⊢
  generalize (expire f hs s').updChan f (fun c => { c with vstate := .idle }) = t' at hexpire ⊢
  rw [hexpire.side.vfHf]
  split
  · exact .of hexpire.updChan _
  · exact .of hexpire _

/-- `hw_init(true)` leaves the same free values in both states, for the index is the same (log 5). -/
theorem hwInitVf_view (v : SameVfView f s s') : SameVfView f (hwInitVf f s) (hwInitVf f s') := by
  have h : SameVfView f (s.updChan f (initVfChan s.inits f)) (s'.updChan f (initVfChan s.inits f)) := v.updChan
  have hs' : hwInitVf f s' = { s'.updChan f (initVfChan s.inits f) with inits := s.inits + 1 } := by rw [v.inits]; rfl
  rw [hs']
  exact ⟨h.cfg, rfl, h.vfset, h.wf, h.side, h.pend, h.ack, h.outstanding, h.slot⟩

/-! ## The step -/

/-- The two steps of an operation of VF `f`. -/
theorem step_view {p p' : State × Result} (h : s.sched.head? = some a) (h' : s'.sched.head? = some a) (v : SameVfView f s s')
    (hoff : stageOf s = .off) (hoff' : stageOf s' = .off) (ha : agentStep a s = onChannel f s p)
    (ha' : agentStep a s' = onChannel f s' p') (hp : SameOutcome f p p') :
    ∃ t t', step s = .next t ∧ step s' = .next t' ∧ t.result = t'.result ∧ SameVfView f t t' := by
  obtain ⟨t, t', r, rfl, rfl, hview⟩ := hp.pairs
  exact ⟨_, _, step_channel ⟨h, v.vfset.1⟩ hoff ha, step_channel ⟨h', v.vfset.2⟩ hoff' ha', rfl, hview.retire r⟩

/-- The two steps of a caller that reads the same `VF_RXBUF[f]` (R286). -/
theorem step_readResponse_view (h : s.sched.head? = some (.readResponse f)) (h' : s'.sched.head? = some (.readResponse f))
    (v : SameVfView f s s') :
    ∃ t t', step s = .next t ∧ step s' = .next t' ∧ t.result = t'.result ∧ SameVfView f t t' := by
  have hdue : Due (.readResponse f) f s := ⟨h, v.vfset.1⟩
  have hdue' : Due (.readResponse f) f s' := ⟨h', v.vfset.2⟩
  have hparse : parse s'.cfg.ops (s'.chan f).vfRxbuf = parse s.cfg.ops (s.chan f).vfRxbuf := by
    rw [v.side.vfRxbuf, v.cfg]
  cases hp : parse s.cfg.ops (s.chan f).vfRxbuf with
  | error e =>
    refine ⟨_, _, step_read_unparsed hdue hp, step_read_unparsed hdue' (hparse.trans hp), ?_, ?_⟩
    · rw [retire_result, retire_result, v.side.vfRxbuf]
    · rw [v.side.vfRxbuf]; exact v.retire _
  | ok i =>
    have hstep := step_read hdue hp
    have hstep' := step_read hdue' (hparse.trans hp)
    cases hi : i.dir with
    | req =>
      obtain ⟨allowed, reply, hexec⟩ := exec_request hi
      rw [hexec, runRequest_read (stageOf_read hdue)] at hstep
      rw [hexec, runRequest_read (stageOf_read hdue')] at hstep'
      exact ⟨_, _, hstep, hstep', rfl, v.retire _⟩
    | rsp =>
      obtain ⟨view, hexec⟩ := exec_response hi
      rw [hexec, runResponse_read (stageOf_read hdue)] at hstep
      rw [hexec, runResponse_read (stageOf_read hdue')] at hstep'
      exact ⟨_, _, hstep, hstep', rfl, v.retire _⟩

end

/-- Settles O60: the operation of each of the VF's steps. -/
theorem vfStepDependsOnItsChannelOnly : Obligations.VfStepDependsOnItsChannelOnly := by
  intro s s' f a hside h h' v
  cases a with
  | sendVf k x hs =>
    cases hside
    have ho := sendVf_view (x := x) (hs := hs) v
    exact step_view h h' v (stageOf_eq h) (stageOf_eq h') rfl rfl ⟨ho.view, congrArg resultOf ho.result⟩
  | receiveVf k hs =>
    cases hside
    have ho := receiveVf_view (hs := hs) v
    exact step_view h h' v (stageOf_eq h) (stageOf_eq h') rfl rfl ⟨ho.view, congrArg (frameResult none) ho.result⟩
  | clearAckVf k hs =>
    cases hside
    have ho := clearAckVf_view (hs := hs) v
    exact step_view h h' v (stageOf_eq h) (stageOf_eq h') rfl rfl ⟨ho.view, congrArg resultOf ho.result⟩
  | enableInterrupts r | disableInterrupts r =>
    cases r with
    | pf => cases hside
    | vf k =>
      cases hside
      exact step_view h h' v (stageOf_eq h) (stageOf_eq h') rfl rfl (.of v.updChan _)
  | hwInit r =>
    cases r with
    | pf => cases hside
    | vf k =>
      cases hside
      exact step_view h h' v (stageOf_eq h) (stageOf_eq h') rfl rfl (.of (hwInitVf_view v) _)
  | start k req hs hs' => cases hside; exact step_view h h' v (stageOf_eq h) (stageOf_eq h') rfl rfl (start_view v)
  | poll k hs => cases hside; exact step_view h h' v (stageOf_eq h) (stageOf_eq h') rfl rfl (poll_view v)
  | retry k hs hs' => cases hside; exact step_view h h' v (stageOf_eq h) (stageOf_eq h') rfl rfl (retry_view v)
  | giveUp k hs => cases hside; exact step_view h h' v (stageOf_eq h) (stageOf_eq h') rfl rfl (giveUp_view v)
  | readResponse k => cases hside; exact step_readResponse_view h h' v
  | _ => cases hside

end Sys2Proof.Machine
end
